-- ==== Sys2Proof/Word.lean ====
section
/-! DEFINITION. The value types of the AES128-GCM core (00_scope.md R7, 30_encoding.md R48 to R50).
A byte array whose length is fixed is one bit vector with byte 0 at the top, so that the hexadecimal
literal of a block reads as the spec's hex string does (log 21). -/

namespace Sys2Proof

/-- A byte, 0 to 255 (R7). -/
abbrev Byte := BitVec 8

/-- A 4-byte word of the key schedule, byte 0 (the leftmost) most significant (R50), and the type of a
32-bit command word (R45). -/
abbrev Word := BitVec 32

/-- A block of 16 bytes, byte 0 most significant (R48). -/
abbrev Block := BitVec 128

/-- An initialisation vector of 12 bytes, byte 0 most significant (R15). -/
abbrev Nonce := BitVec 96

/-- One row of the State: its bytes in columns 0 to 3. -/
structure Row where
  c0 : Byte
  c1 : Byte
  c2 : Byte
  c3 : Byte
deriving DecidableEq, Repr

/-- The State, a 4 by 4 byte matrix `S[row][column]`, held as its rows 0 to 3 (R23, R49). -/
structure Matrix where
  r0 : Row
  r1 : Row
  r2 : Row
  r3 : Row
deriving DecidableEq, Repr

/-- The round-key schedule RK: 176 bytes as the eleven round keys 0 to 10 (R24, R50). -/
structure Schedule where
  k0 : Block
  k1 : Block
  k2 : Block
  k3 : Block
  k4 : Block
  k5 : Block
  k6 : Block
  k7 : Block
  k8 : Block
  k9 : Block
  k10 : Block
deriving DecidableEq, Repr

end Sys2Proof
end

