-- ==== Sys2Proof/Machine/Bytes.lean ====
section
/-! DEFINITION. The bytes of words and blocks, big-endian integers, and the bit index of a field element
(00_scope.md R7, R8; 30_encoding.md R48, R50). -/

namespace Sys2Proof.Machine

/-- Element `i` of a block, 0 to 15, byte 0 first (R48). -/
def byteAt (b : Block) (i : Nat) : Byte := b.extractLsb' (8 * (15 - i)) 8

/-- Word `i` of a block, 0 to 3: bytes `4i` to `4i+3` (R50). -/
def wordAt (b : Block) (i : Nat) : Word := b.extractLsb' (32 * (3 - i)) 32

/-- Byte `i` of a word, 0 to 3, byte 0 the leftmost (R50). -/
def wordByte (t : Word) (i : Nat) : Byte := t.extractLsb' (8 * (3 - i)) 8

/-- The word with bytes `t0` to `t3`. -/
def wordOf (t0 t1 t2 t3 : Byte) : Word := t0 ++ t1 ++ t2 ++ t3

/-- The block with words `w0` to `w3`. -/
def blockOfWords (w0 w1 w2 w3 : Word) : Block := w0 ++ w1 ++ w2 ++ w3

/-- The block whose byte `i` is `f i`. -/
def blockOf (f : Nat → Byte) : Block :=
  blockOfWords (wordOf (f 0) (f 1) (f 2) (f 3)) (wordOf (f 4) (f 5) (f 6) (f 7))
    (wordOf (f 8) (f 9) (f 10) (f 11)) (wordOf (f 12) (f 13) (f 14) (f 15))

/-- The bytes of a block, byte 0 first. -/
def blockBytes (b : Block) : List Byte := (List.range 16).map (byteAt b)

/-- The block of the first 16 bytes of a list. -/
def blockOfBytes (l : List Byte) : Block := blockOf fun i => l.getD i 0

/-- The bytes of a word, byte 0 first. -/
def wordBytes (t : Word) : List Byte := (List.range 4).map (wordByte t)

/-- The word of the first 4 bytes of a list. -/
def wordOfBytes (l : List Byte) : Word := wordOf (l.getD 0 0) (l.getD 1 0) (l.getD 2 0) (l.getD 3 0)

/-- `be`, the big-endian value of a byte array (R8). -/
def be : List Byte → Nat
  | [] => 0
  | b :: rest => b.toNat * 256 ^ rest.length + be rest

/-- `tobe(v, n)`, the `n` bytes of `v`, the most significant first (R8). -/
def tobe (v : Nat) : Nat → List Byte
  | 0 => []
  | n + 1 => BitVec.ofNat 8 (v / 256 ^ n) :: tobe v n

/-- `gbit(X, i)`: bit `i` of a field element, index 0 being bit 7 of byte 0 (R8, R53). -/
def gbit (x : Block) (i : Nat) : Bool := x.getMsbD i

end Sys2Proof.Machine
end

