-- ==== Sys2Proof/Machine/Aes.lean ====
section
/-! DEFINITION. The AES-128 functions: byte functions, round operations, key schedule, cipher
(40_aes_round_ops.md, 41_aes_key_schedule.md, 42_aes_cipher.md). -/

namespace Sys2Proof.Machine

/-! ## Byte functions -/

/-- The S-box table of R65, row `a[7:4]` by row, columns 0 to f. -/
def sboxRows : List Block :=
  [0x637c777bf26b6fc53001672bfed7ab76, 0xca82c97dfa5947f0add4a2af9ca472c0,
   0xb7fd9326363ff7cc34a5e5f171d83115, 0x04c723c31896059a071280e2eb27b275,
   0x09832c1a1b6e5aa0523bd6b329e32f84, 0x53d100ed20fcb15b6acbbe394a4c58cf,
   0xd0efaafb434d338545f9027f503c9fa8, 0x51a3408f929d38f5bcb6da2110fff3d2,
   0xcd0c13ec5f974417c4a77e3d645d1973, 0x60814fdc222a908846eeb814de5e0bdb,
   0xe0323a0a4906245cc2d3ac629195e479, 0xe7c8376d8dd54ea96c56f4ea657aae08,
   0xba78252e1ca6b4c6e8dd741f4bbd8b8a, 0x703eb5664803f60e613557b986c11d9e,
   0xe1f8981169d98e949b1e87e9ce5528df, 0x8ca1890dbfe6426841992d0fb054bb16]

/-- "SBOX(a) is the entry in row a[7:4], column a[3:0]" (R65). -/
def sboxByte (a : Byte) : Byte :=
  byteAt (sboxRows.getD (a.extractLsb' 4 4).toNat 0) (a.extractLsb' 0 4).toNat

/-- `XTIME(b) = ((b << 1) & 0xff) ^ (0x1b if b[7] = 1 else 0x00)` (R66). -/
def xtimeByte (b : Byte) : Byte := (b <<< 1) ^^^ (if b.getLsbD 7 then 0x1b else 0x00)

/-- `MUL3(b) = XTIME(b) ^ b` (R67). -/
def mul3Byte (b : Byte) : Byte := xtimeByte b ^^^ b

/-! ## The State -/

/-- The byte of a row in column `c`, 0 to 3. -/
def rowAt (r : Row) (c : Nat) : Byte :=
  match c with
  | 0 => r.c0
  | 1 => r.c1
  | 2 => r.c2
  | _ => r.c3

/-- `S[r][c]`, r and c from 0 to 3 (R49). -/
def matrixAt (m : Matrix) (r c : Nat) : Byte :=
  match r with
  | 0 => rowAt m.r0 c
  | 1 => rowAt m.r1 c
  | 2 => rowAt m.r2 c
  | _ => rowAt m.r3 c

/-- The row whose byte in column `c` is `f c`. -/
def rowOf (f : Nat → Byte) : Row := { c0 := f 0, c1 := f 1, c2 := f 2, c3 := f 3 }

/-- The State with `S[r][c] = f r c`. -/
def matrixOf (f : Nat → Nat → Byte) : Matrix :=
  { r0 := rowOf (f 0), r1 := rowOf (f 1), r2 := rowOf (f 2), r3 := rowOf (f 3) }

/-- LDST: "byte i of the 16-byte input becomes state[i mod 4][i div 4]", so `S[r][c]` is byte `4c + r`
(R49, R68). -/
def loadState (b : Block) : Matrix := matrixOf fun r c => byteAt b (4 * c + r)

/-- STST: `out[i] <- S[i mod 4][i div 4]` (R73). -/
def storeState (m : Matrix) : Block := blockOf fun i => matrixAt m (i % 4) (i / 4)

/-! ## Round operations -/

/-- ARK with the round key `k`: byte `j` of it lies over `S[j mod 4][j div 4]` (R69). -/
def addRoundKey (k : Block) (m : Matrix) : Matrix :=
  matrixOf fun r c => matrixAt m r c ^^^ byteAt k (4 * c + r)

/-- SUBB: `S[r][c] <- SBOX(S[r][c])` (R70). -/
def subBytes (m : Matrix) : Matrix := matrixOf fun r c => sboxByte (matrixAt m r c)

/-- SHROW: `S'[r][c] <- S[r][(c + r) mod 4]` (R71). -/
def shiftRows (m : Matrix) : Matrix := matrixOf fun r c => matrixAt m r ((c + r) % 4)

/-- New row `k` of a column whose old bytes are `a0` to `a3` (R72). -/
def mixColumn (a0 a1 a2 a3 : Byte) (k : Nat) : Byte :=
  match k with
  | 0 => xtimeByte a0 ^^^ mul3Byte a1 ^^^ a2 ^^^ a3
  | 1 => a0 ^^^ xtimeByte a1 ^^^ mul3Byte a2 ^^^ a3
  | 2 => a0 ^^^ a1 ^^^ xtimeByte a2 ^^^ mul3Byte a3
  | _ => mul3Byte a0 ^^^ a1 ^^^ a2 ^^^ xtimeByte a3

/-- MIXC: every column is multiplied by the fixed matrix (R72). -/
def mixColumns (m : Matrix) : Matrix :=
  matrixOf fun r c => mixColumn (matrixAt m 0 c) (matrixAt m 1 c) (matrixAt m 2 c) (matrixAt m 3 c) r

/-! ## Key schedule -/

/-- `ROTW(t) = [t[1], t[2], t[3], t[0]]` (R80). -/
def rotWord (t : Word) : Word := wordOf (wordByte t 1) (wordByte t 2) (wordByte t 3) (wordByte t 0)

/-- SUBW: SBOX of every byte (R81). -/
def subWord (t : Word) : Word :=
  wordOf (sboxByte (wordByte t 0)) (sboxByte (wordByte t 1)) (sboxByte (wordByte t 2)) (sboxByte (wordByte t 3))

/-- The round constants from the first on: 0x01, then each the XTIME of the one before (R82). -/
def roundConstantFrom : Nat → Byte
  | 0 => 0x01
  | n + 1 => xtimeByte (roundConstantFrom n)

/-- "RCON(1) = 0x01 and RCON(k+1) = XTIME(RCON(k))", k from 1 to 10 (R82). -/
def roundConstant (k : Nat) : Byte := roundConstantFrom (k - 1)

/-- The temporary word of the boundary word that starts round key `k`: the previous word after ROTW and SUBW,
its leftmost byte XORed with RCON(k) (R83). -/
def boundaryWord (k : Nat) (t : Word) : Word := subWord (rotWord t) ^^^ wordOf (roundConstant k) 0 0 0

/-- Round key `k` from round key `k - 1`: each word is the word 16 byte positions back XORed with the word
before it, transformed for the boundary word (R83). -/
def nextRoundKey (k : Nat) (b : Block) : Block :=
  let w0 := wordAt b 0 ^^^ boundaryWord k (wordAt b 3)
  let w1 := wordAt b 1 ^^^ w0
  let w2 := wordAt b 2 ^^^ w1
  let w3 := wordAt b 3 ^^^ w2
  blockOfWords w0 w1 w2 w3

/-- KEXP: "Round key 0 is the key" and the ten that follow (R83). -/
def expandKey (key : Block) : Schedule :=
  let k1 := nextRoundKey 1 key
  let k2 := nextRoundKey 2 k1
  let k3 := nextRoundKey 3 k2
  let k4 := nextRoundKey 4 k3
  let k5 := nextRoundKey 5 k4
  let k6 := nextRoundKey 6 k5
  let k7 := nextRoundKey 7 k6
  let k8 := nextRoundKey 8 k7
  let k9 := nextRoundKey 9 k8
  let k10 := nextRoundKey 10 k9
  { k0 := key, k1 := k1, k2 := k2, k3 := k3, k4 := k4, k5 := k5, k6 := k6, k7 := k7, k8 := k8, k9 := k9, k10 := k10 }

/-- Round key `r`, 0 to 10: `RK[16r..16r+15]` (R50). -/
def roundKey (rk : Schedule) (r : Nat) : Block :=
  match r with
  | 0 => rk.k0
  | 1 => rk.k1
  | 2 => rk.k2
  | 3 => rk.k3
  | 4 => rk.k4
  | 5 => rk.k5
  | 6 => rk.k6
  | 7 => rk.k7
  | 8 => rk.k8
  | 9 => rk.k9
  | _ => rk.k10

/-- `RK[i]`, i from 0 to 175 (R50). -/
def scheduleByte (rk : Schedule) (i : Nat) : Byte := byteAt (roundKey rk (i / 16)) (i % 16)

/-! ## The cipher -/

/-- Round `r` of rounds 1 to 9: SUBB, SHROW, MIXC, ARK(r) (R90). -/
def middleRound (rk : Schedule) (m : Matrix) (r : Nat) : Matrix :=
  addRoundKey (roundKey rk r) (mixColumns (shiftRows (subBytes m)))

/-- The State after CIPHER's last ARK: LDST, ARK(0), rounds 1 to 9, then SUBB, SHROW, ARK(10) (R90). -/
def cipherState (rk : Schedule) (b : Block) : Matrix :=
  let m := addRoundKey (roundKey rk 0) (loadState b)
  let m := (List.range' 1 9).foldl (middleRound rk) m
  addRoundKey (roundKey rk 10) (shiftRows (subBytes m))

/-- CIPHER: the encryption of one block under a schedule (R90). -/
def cipherBlock (rk : Schedule) (b : Block) : Block := storeState (cipherState rk b)

end Sys2Proof.Machine
end

