-- ==== Sys2Proof/Config.lean ====
section
/-! DEFINITION. What an implementation fixes: the parameters the spec leaves open (00_scope.md R6), and the model's
one free value. -/

namespace Sys2Proof.Machine

/-- A range of addresses, `base` to `base + size - 1`. -/
structure Range where
  base : Nat
  size : Nat
deriving DecidableEq, Repr

/-- The platform's parameters (R6): `AW` the width of a buffer-memory address, `CW` the width of a block
count, and `holes` the ranges of addresses that are NOT populated, so that `Populated(a)` holds outside
them. REGMAP is outside the spec (R12). Held in the state as data (log 3, DESIGN CHOICE). -/
structure Platform where
  AW : Nat
  CW : Nat
  holes : List Range
deriving DecidableEq, Repr

/-- The spec's defaults: AW = 32, CW = 32, every address populated (D7, D8). -/
def Platform.default : Platform := { AW := 32, CW := 32, holes := [] }

/-- The constraint R6 puts on CW: "it must satisfy 1 <= CW <= 57". -/
abbrev Platform.ok (p : Platform) : Prop := 1 ≤ p.CW ∧ p.CW ≤ 57

/-- A free value: what the storage of datapath register number `reg` is left with by command number `n` that has
completed, when the register holds no value (R25, U18); number 9 is the port with nothing on it (log 8). Nothing is known
of it. No command and no host read depends on it; an operation presented on its own can read it (log 2, DESIGN CHOICE). -/
opaque freeBlock : Nat → Nat → Block

end Sys2Proof.Machine
end

