-- ==== Sys2Proof/Syntax.lean ====
section
/-! DEFINITION. The instructions: one constructor for each row of spec/opcode_table.json.
The arguments are the operands that 30_encoding.md R58 lists as inputs of the operation; a register the
operation reads or writes is not an argument. -/

namespace Sys2Proof

/-- The three host commands (R46) and the 24 named operations (R58). -/
inductive Instr where
  /-- NOP, the command word that issues nothing (R123). -/
  | nop
  /-- ENCRYPT_BLOCK (R92). -/
  | encryptBlock
  /-- SEAL (R120). -/
  | sealMessage
  /-- LDST, initial state load of block `b` (R68). -/
  | ldst (b : Block)
  /-- ARK, AddRoundKey with round key `r` (R69). -/
  | ark (r : Nat)
  /-- SUBB, SubBytes (R70). -/
  | subb
  /-- SHROW, ShiftRows (R71). -/
  | shrow
  /-- MIXC, MixColumns (R72). -/
  | mixc
  /-- STST, state store (R73). -/
  | stst
  /-- ROTW, rotate the word `t` left by one byte (R80). -/
  | rotw (t : Word)
  /-- SUBW, substitute the bytes of the word `t` (R81). -/
  | subw (t : Word)
  /-- RCON, round constant number `k` (R82). -/
  | rcon (k : Nat)
  /-- KEXP, key expansion (R83). -/
  | kexp
  /-- CIPHER, encryption of block `b` under the current schedule (R90). -/
  | cipher (b : Block)
  /-- MKJ0, the initial counter block (R100). -/
  | mkj0
  /-- INC32, increment the counter (R101). -/
  | inc32
  /-- XOR128 of the blocks `a` and `b` (R102). -/
  | xor128 (a b : Block)
  /-- GFSTEP with the bit `x` (R103). -/
  | gfstep (x : Bool)
  /-- GFMUL of `a` (scanned) and `b` (seeds V) (R104). -/
  | gfmul (a b : Block)
  /-- LENBLK for `a` associated-data blocks and `p` plaintext blocks (R110). -/
  | lenblk (a p : Nat)
  /-- HSUB, hash subkey derivation (R115). -/
  | hsub
  /-- GCTR, counter-mode encryption of the blocks `bs` (R116). -/
  | gctr (bs : List Block)
  /-- GHASH of the blocks `xs` (R117). -/
  | ghash (xs : List Block)
  /-- TAGENC, tag computation (R119). -/
  | tagenc
  /-- SBOX of the byte `a` (R65). -/
  | sbox (a : Byte)
  /-- XTIME of the byte `b` (R66). -/
  | xtime (b : Byte)
  /-- MUL3 of the byte `b` (R67). -/
  | mul3 (b : Byte)
deriving DecidableEq, Repr

end Sys2Proof
end

