-- ==== Sys2Proof/Machine/State.lean ====
section
/-! DEFINITION. The state of the machine: everything the spec gives it (10_state.md, 20_memory.md), as plain
data, with its value after reset (R28). Uppercase names are the spec's.

A register is its storage and the spec's own two-valued mark: "Every register and every byte of buffer memory holds
either a value or no value" (R11; log 1). -/

namespace Sys2Proof.Machine

/-- Why the machine stops with a fault: there is no reason. "The table of exception causes is empty" (R135), and "No
behaviour of this core is treated as `fault`" (93_implementation_defined.md); every stop is a refusal (R137). -/
inductive Fault where
deriving DecidableEq, Repr

/-- Why a step has no meaning (R137). All are safe: the run stops where the spec gives no behaviour. -/
inductive Refusal where
  /-- An instruction with no meaning in this model. Raised by exec's refused arms only (there is none). -/
  | notModelled (mnemonic : String)
  /-- RF_BUSY: a host move other than reading STATUS, a command, an access to a region of the running
  command, or an operation from outside the sequencer, while BUSY = 1 (R42, R137; log 16). -/
  | rfBusy
  /-- RF_BADCMD: a command word with OPC = 3 or a bit of ZERO set (R47). Raised by the CMD write. -/
  | rfBadCmd
  /-- RF_NOVALUE: a command is issued while an operand register or input byte it reads holds no value, or the host
  reads a register or byte that holds none (R11, R92, R122, R137), a result that no poll has shown included (R156; log 23).
  Raised by those; and by a MemRead of the core,
  "defined only when every `MEM[addr + k]` holds a value" (R32), in states that no command reaches. -/
  | rfNoValue
  /-- RF_REGION: a SEAL with an invalid region (R37). -/
  | rfRegion
  /-- RF_OVERLAP: a SEAL whose ciphertext region shares an address with another region (R38). -/
  | rfOverlap
  /-- RF_ACCESS: a host move against a register's access right, to a register number above 11, or with a
  value that is not of the register's type (R12, U23; log 10). -/
  | rfAccess
  /-- A HostMemWrite to an address outside MEM: not below 2^AW, or not populated (R30, R37). The model's own reason
  for the refusal that R137 asks for in "a situation the source never considered". Raised by that move only
  (log 11). -/
  | noSuchAddress
  /-- An operation code that R58 leaves unassigned, or an operand outside the range its rule gives: the
  model's own, raised where an operation is presented by its code and by the meaning of an ill-formed term
  (log 18). -/
  | badUop
deriving DecidableEq, Repr

/-- A register: `val` is what its storage holds, and `held` says whether it holds a value in the sense of R11. A
command and a host read look at `held`; an operation presented on its own works on `val` (log 1, log 2). -/
structure Reg (α : Type) where
  val : α
  held : Bool
deriving DecidableEq, Repr

/-- A register that has been given the value `v`: "A host write or a core write gives a register ... a value" (R11). -/
def Reg.holding {α : Type} (v : α) : Reg α := { val := v, held := true }

/-- A register that holds no value, over the storage contents `v`. -/
def Reg.blank {α : Type} (v : α) : Reg α := { val := v, held := false }

/-- "A rule may say that a register is left with no value" (R11). -/
def Reg.drop {α : Type} (r : Reg α) : Reg α := .blank r.val

/-- The value a register holds, if it holds one. -/
def Reg.value {α : Type} (r : Reg α) : Option α := if r.held then some r.val else none

/-- The host registers but CMD, which holds nothing (R20), and STATUS (R13). -/
structure HostRegs where
  KEY : Reg Block
  IV : Reg Nonce
  DIN : Reg Block
  DOUT : Reg Block
  TAG : Reg Block
  PT_ADDR : Reg Nat
  CT_ADDR : Reg Nat
  AD_ADDR : Reg Nat
  PT_BLOCKS : Reg Nat
  AD_BLOCKS : Reg Nat
deriving DecidableEq, Repr

/-- The datapath registers (R23). -/
structure Datapath where
  S : Reg Matrix
  RK : Reg Schedule
  H : Reg Block
  CB : Reg Block
  KS : Reg Block
  X : Reg Block
  Y : Reg Block
  Z : Reg Block
  V : Reg Block
  LB : Reg Block
deriving DecidableEq, Repr

/-- The host registers after reset: none holds a value (R28), and the storage of each holds 0 (log 1, DESIGN CHOICE). -/
def HostRegs.atReset : HostRegs where
  KEY := .blank 0
  IV := .blank 0
  DIN := .blank 0
  DOUT := .blank 0
  TAG := .blank 0
  PT_ADDR := .blank 0
  CT_ADDR := .blank 0
  AD_ADDR := .blank 0
  PT_BLOCKS := .blank 0
  AD_BLOCKS := .blank 0

/-- The datapath registers after reset: none holds a value (R28), and the storage of each holds 0 (log 1, DESIGN
CHOICE). -/
def Datapath.atReset : Datapath where
  S :=
    .blank
      { r0 := { c0 := 0, c1 := 0, c2 := 0, c3 := 0 }, r1 := { c0 := 0, c1 := 0, c2 := 0, c3 := 0 }
        r2 := { c0 := 0, c1 := 0, c2 := 0, c3 := 0 }, r3 := { c0 := 0, c1 := 0, c2 := 0, c3 := 0 } }
  RK := .blank { k0 := 0, k1 := 0, k2 := 0, k3 := 0, k4 := 0, k5 := 0, k6 := 0, k7 := 0, k8 := 0, k9 := 0, k10 := 0 }
  H := .blank 0
  CB := .blank 0
  KS := .blank 0
  X := .blank 0
  Y := .blank 0
  Z := .blank 0
  V := .blank 0
  LB := .blank 0

/-- The commands that can be in progress: OP of the sequencer position, `none` being no command (R22). -/
inductive Command where
  | encryptBlock
  | sealMessage
deriving DecidableEq, Repr

/-- PHASE of the sequencer position (R22). -/
inductive Phase where
  | idle
  | kexp
  | cipher
  | hsub
  | gctr
  | ghashAd
  | ghashCt
  | ghashLen
  | tagenc
  | done
deriving DecidableEq, Repr

/-- The sequencer position (OP, PHASE, RND, BLK, BIT) (R22). R22 gives RND inside a cipher invocation, BLK inside a
loop over blocks and BIT inside a field multiplication; elsewhere during a command they are 0 here (log 22,
DESIGN CHOICE). -/
structure SeqPos where
  op : Option Command
  phase : Phase
  rnd : Nat
  blk : Nat
  bit : Nat
deriving DecidableEq, Repr

/-- The position with no command in progress (R28). -/
def SeqPos.idle : SeqPos := { op := none, phase := .idle, rnd := 0, blk := 0, bit := 0 }

/-- Where an operation of a command takes a block from: the all-zero block or a register. -/
inductive Src where
  | zero
  | din
  | cb
  | x
  | y
  | ks
  | lb
deriving DecidableEq, Repr

/-- Where a command puts the block an operation delivers. -/
inductive Dst where
  | h
  | ks
  | y
  | tag
deriving DecidableEq, Repr

/-- The three regions of SEAL (R31). -/
inductive RegionName where
  | pt
  | ct
  | ad
deriving DecidableEq, Repr

/-- One line of the pseudocode of R90, R92, R104, R119 or R120: a named operation with the operands it has
there, a block access to MEM, or a move between registers. -/
inductive Micro where
  | kexp
  | ldst (src : Src)
  | ark (r : Nat)
  | subb
  | shrow
  | mixc
  | stst
  | mkj0
  | inc32
  | xor128 (a b : Src)
  /-- GFSTEP(gbit(H, i)), line `i` of GFMUL's loop in GHASH. -/
  | gfstep (i : Nat)
  | lenblk
  /-- X <- MemRead(base + 16 * BLK, 16) of a region. -/
  | load (r : RegionName)
  /-- MemWrite(CT_ADDR + 16 * BLK, 16, the block delivered). -/
  | store
  /-- Y <- 0^128. -/
  | clearY
  /-- Z <- 0^128; V <- the block delivered: how GFMUL starts. -/
  | seed
  /-- out <- Z: how GFMUL ends. -/
  | product
  /-- A register takes the block delivered. -/
  | move (d : Dst)
  /-- The completion of the command. -/
  | finish
deriving DecidableEq, Repr

/-- A micro-operation with the RND and BIT of its position. -/
structure SeqItem where
  rnd : Nat
  bit : Nat
  act : Micro
deriving DecidableEq, Repr

/-- The sequencer: its position and, the model's own, what is left to do there (log 20). -/
structure Sequencer where
  pos : SeqPos
  todo : List SeqItem
deriving DecidableEq, Repr

/-- The sequencer with nothing to do. -/
def Sequencer.idle : Sequencer := { pos := .idle, todo := [] }

/-- What an operation delivers: its byte, word, block or blocks out (R58). -/
inductive OpOut where
  | byte (b : Byte)
  | word (t : Word)
  | block (b : Block)
  | blocks (bs : List Block)
deriving DecidableEq, Repr

/-- The moves of the host (R12). A register is named by its number (R13) and its value given as an unsigned
number, byte 0 of a byte array most significant. -/
inductive HostMove where
  /-- HostWrite(reg, v). -/
  | write (reg v : Nat)
  /-- HostRead(reg). -/
  | read (reg : Nat)
  /-- HostMemWrite(addr, bytes). -/
  | memWrite (addr : Nat) (bytes : List Byte)
  /-- HostMemRead(addr, n). -/
  | memRead (addr n : Nat)
deriving DecidableEq, Repr

/-- What a host read returned. -/
inductive Reply where
  | reg (reg v : Nat)
  | mem (addr : Nat) (bytes : List Byte)
deriving DecidableEq, Repr

/-- Whose turn it is (log 4, log 5). -/
inductive Turn where
  /-- The host makes a move; a write to CMD issues a command, which the core then runs one micro-operation a
  step. -/
  | host (m : HostMove)
  /-- The script line WAIT (R59). -/
  | wait
  /-- The core takes one step of the command in progress. -/
  | core
  /-- A write to CMD whose command runs whole in this step: R10's "one core step per command". -/
  | command (w : Word)
  /-- A named operation presented by its code and operand bytes (R58; log 7). -/
  | uop (bytes : List Byte)
  /-- The platform asserts reset (R150, R151). -/
  | reset
deriving DecidableEq, Repr

/-- What commands that have completed produced, and no HostRead(STATUS) that returned DONE = 1 has shown the host yet: "DOUT,
TAG and the ciphertext region hold the command's results once a `HostRead(STATUS)` has returned DONE = 1, and not before"
(R156, R41; log 23). -/
structure Unseen where
  /-- DOUT and TAG. -/
  results : Bool
  /-- The bytes of ciphertext regions, less those the host has written since. -/
  bytes : List Range
deriving DecidableEq, Repr

/-- Every result has been shown. -/
def Unseen.nothing : Unseen := { results := false, bytes := [] }

/-- Buffer memory: the bytes that hold a value, by address, addresses strictly rising; an address that is not
listed holds no value (R11, R28). -/
abbrev Memory := List Host.Cell

/-- The canonical form of a memory. -/
abbrev Memory.wf (m : Memory) : Prop := m.Pairwise fun p q => p.1 < q.1

/-- The state of the machine. -/
structure State where
  /-- The platform's parameters (R6). -/
  plat : Platform
  /-- The host registers (R13). -/
  host : HostRegs
  /-- STATUS (R21). -/
  STATUS : Word
  /-- The sequencer (R22). -/
  seq : Sequencer
  /-- The datapath registers (R23). -/
  dp : Datapath
  /-- Buffer memory (R30). -/
  MEM : Memory
  /-- The results that the host has not been shown (R156). -/
  unseen : Unseen
  /-- The port an operation delivers to, the model's own (log 8). -/
  out : Option OpOut
  /-- The turns to come, the model's own (log 5). -/
  agenda : List Turn
  /-- What the host's reads returned, newest first, the model's own (log 8). -/
  replies : List Reply
  /-- How many free values have been drawn, the model's own: the number of commands that have completed (log 2). -/
  drawn : Nat
deriving DecidableEq, Repr

/-- The machine right after reset (R28). -/
def State.reset : State where
  plat := .default
  host := .atReset
  STATUS := 0
  seq := .idle
  dp := .atReset
  MEM := []
  unseen := .nothing
  out := none
  agenda := []
  replies := []
  drawn := 0

/-- What a step or a meaning answers. -/
abbrev Result := Host.Outcome State Fault Refusal

end Sys2Proof.Machine
end

