-- ==== Sys2Proof/Machine/Ops.lean ====
section
/-! DEFINITION. The named operations over registers and memory that the meanings share.

Taking an exception: the core has none, so there is no such operation. "The core raises no synchronous
exception" (60_exceptions.md R135); "There is no trap entry: no state is saved, no mode changes, no vector
is fetched" (R140); "There is no trap return" (R141). -/

namespace Sys2Proof.Machine

/-! ## Sequencing and reading -/

/-- Go on with `f` if `r` answers a next state; otherwise stop as `r` does. -/
def andThen (r : Result) (f : State → Result) : Result :=
  match r with
  | .next s => f s
  | .fault e => .fault e
  | .refused e => .refused e

/-- Read what may hold no value: a host read (R11, R137), or a MemRead, "defined only when every `MEM[addr + k]` holds
a value" (R32). -/
def reading {α : Type} (o : Option α) (f : α → Result) : Result :=
  match o with
  | none => .refused .rfNoValue
  | some v => f v

/-- `for i in first .. first+n-1: f i` (R9). -/
def forBlocks (f : Nat → State → Result) : Nat → Nat → State → Result
  | 0, _, s => .next s
  | n + 1, first, s => andThen (f first s) (forBlocks f n (first + 1))

/-! ## Updates of the state -/

def State.withHost (s : State) (v : HostRegs) : State := { s with host := v }
def State.withStatus (s : State) (v : Word) : State := { s with STATUS := v }
def State.withSeq (s : State) (v : Sequencer) : State := { s with seq := v }
def State.withDp (s : State) (v : Datapath) : State := { s with dp := v }
def State.withMem (s : State) (v : Memory) : State := { s with MEM := v }
def State.withUnseen (s : State) (v : Unseen) : State := { s with unseen := v }
def State.withOut (s : State) (v : Option OpOut) : State := { s with out := v }
def State.withAgenda (s : State) (v : List Turn) : State := { s with agenda := v }
def State.withReplies (s : State) (v : List Reply) : State := { s with replies := v }
def State.withDrawn (s : State) (v : Nat) : State := { s with drawn := v }

def HostRegs.setKEY (h : HostRegs) (v : Reg Block) : HostRegs := { h with KEY := v }
def HostRegs.setIV (h : HostRegs) (v : Reg Nonce) : HostRegs := { h with IV := v }
def HostRegs.setDIN (h : HostRegs) (v : Reg Block) : HostRegs := { h with DIN := v }
def HostRegs.setDOUT (h : HostRegs) (v : Reg Block) : HostRegs := { h with DOUT := v }
def HostRegs.setTAG (h : HostRegs) (v : Reg Block) : HostRegs := { h with TAG := v }
def HostRegs.setPT_ADDR (h : HostRegs) (v : Reg Nat) : HostRegs := { h with PT_ADDR := v }
def HostRegs.setCT_ADDR (h : HostRegs) (v : Reg Nat) : HostRegs := { h with CT_ADDR := v }
def HostRegs.setAD_ADDR (h : HostRegs) (v : Reg Nat) : HostRegs := { h with AD_ADDR := v }
def HostRegs.setPT_BLOCKS (h : HostRegs) (v : Reg Nat) : HostRegs := { h with PT_BLOCKS := v }
def HostRegs.setAD_BLOCKS (h : HostRegs) (v : Reg Nat) : HostRegs := { h with AD_BLOCKS := v }

def Datapath.setS (d : Datapath) (v : Reg Matrix) : Datapath := { d with S := v }
def Datapath.setRK (d : Datapath) (v : Reg Schedule) : Datapath := { d with RK := v }
def Datapath.setH (d : Datapath) (v : Reg Block) : Datapath := { d with H := v }
def Datapath.setCB (d : Datapath) (v : Reg Block) : Datapath := { d with CB := v }
def Datapath.setKS (d : Datapath) (v : Reg Block) : Datapath := { d with KS := v }
def Datapath.setX (d : Datapath) (v : Reg Block) : Datapath := { d with X := v }
def Datapath.setY (d : Datapath) (v : Reg Block) : Datapath := { d with Y := v }
def Datapath.setZ (d : Datapath) (v : Reg Block) : Datapath := { d with Z := v }
def Datapath.setV (d : Datapath) (v : Reg Block) : Datapath := { d with V := v }
def Datapath.setLB (d : Datapath) (v : Reg Block) : Datapath := { d with LB := v }

/-- An operation delivers `v`. -/
def State.deliver (s : State) (v : OpOut) : State := s.withOut (some v)

/-- The block an operation has delivered. -/
def State.delivered (s : State) : Option Block :=
  match s.out with
  | some (.block b) => some b
  | _ => none

/-- The block on the port, for the lines of the pseudocode that use the block just delivered; with none there, in states
that no command reaches, a free value (log 8). -/
def State.portBlock (s : State) : Block := s.delivered.getD (freeBlock s.drawn 9)

/-! ## Buffer memory (20_memory.md) -/

/-- The value of the byte at address `a`, if it holds one. -/
def Memory.read (m : Memory) (a : Nat) : Option Byte :=
  match m with
  | [] => none
  | (a', b) :: rest => if a' = a then some b else Memory.read rest a

/-- Give the byte at address `a` the value `b`. -/
def Memory.write (m : Memory) (a : Nat) (b : Byte) : Memory :=
  match m with
  | [] => [(a, b)]
  | (a', b') :: rest =>
    if a < a' then (a, b) :: (a', b') :: rest
    else if a = a' then (a, b) :: rest
    else (a', b') :: Memory.write rest a b

/-- Leave the bytes `base` to `base + size - 1` with no value. -/
def Memory.erase (m : Memory) (base size : Nat) : Memory :=
  m.filter fun c => !(decide (base ≤ c.1 ∧ c.1 < base + size))

/-- `MemRead(a, n)` (R32), if every byte holds a value. -/
def Memory.readBytes (m : Memory) (a : Nat) : Nat → Option (List Byte)
  | 0 => some []
  | n + 1 =>
    match m.read a, Memory.readBytes m (a + 1) n with
    | some b, some bs => some (b :: bs)
    | _, _ => none

/-- `MemWrite(a, n, v)`: the bytes in ascending address order (R33, R36). -/
def Memory.writeBytes (m : Memory) (a : Nat) : List Byte → Memory
  | [] => m
  | b :: bs => Memory.writeBytes (m.write a b) (a + 1) bs

/-- `MemRead(a, 16)` (R32). -/
def Memory.readBlock (m : Memory) (a : Nat) : Option Block :=
  match m.readBytes a 16 with
  | none => none
  | some bs => some (blockOfBytes bs)

/-- `MemWrite(a, 16, b)` (R33). -/
def Memory.writeBlock (m : Memory) (a : Nat) (b : Block) : Memory := m.writeBytes a (blockBytes b)

end Sys2Proof.Machine
end

