-- ==== Sys2Proof/Machine/Flags.lean ====
section
/-! DEFINITION. STATUS and its two flags, the only flags of the core (10_state.md R21). "No datapath
operation sets a condition code and no operation reads one". -/

namespace Sys2Proof.Machine

/-- STATUS.BUSY, bit 0. -/
def State.busy (s : State) : Bool := s.STATUS.getLsbD 0

/-- STATUS.DONE, bit 1. -/
def State.isDone (s : State) : Bool := s.STATUS.getLsbD 1

/-- What a read of STATUS returns: bits 31 to 2 are hardwired to 0. -/
def State.readStatus (s : State) : Word := s.STATUS &&& 3

/-- STATUS.BUSY <- 1 ; STATUS.DONE <- 0: the issue of a command. -/
def statusAtIssue (w : Word) : Word := (w ||| 1) &&& ~~~2

/-- STATUS.BUSY <- 0 ; STATUS.DONE <- 1: the completion of a command. -/
def statusAtCompletion (w : Word) : Word := (w &&& ~~~1) ||| 2

end Sys2Proof.Machine
end

