-- ==== Sys2Proof/Machine/Operands.lean ====
section
/-! DEFINITION. Where operands come from: block sources, the addresses of blocks (30_encoding.md R55), and
SEAL's regions with their validity and overlap (20_memory.md R31, R37, R38). -/

namespace Sys2Proof.Machine

/-- The block of a source. -/
def Src.block (src : Src) (s : State) : Block :=
  match src with
  | .zero => 0
  | .din => s.host.DIN.val
  | .cb => s.dp.CB.val
  | .x => s.dp.X.val
  | .y => s.dp.Y.val
  | .ks => s.dp.KS.val
  | .lb => s.dp.LB.val

/-- The base register of a region (R31). -/
def RegionName.baseReg (r : RegionName) (s : State) : Reg Nat :=
  match r with
  | .pt => s.host.PT_ADDR
  | .ct => s.host.CT_ADDR
  | .ad => s.host.AD_ADDR

/-- The base of a region, if its register holds a value (R31). -/
def RegionName.base (r : RegionName) (s : State) : Option Nat := (r.baseReg s).value

/-- "The address of block i of a region with base register A is zext_AW(A) + 16*i" (R55). -/
def blockAddr (base i : Nat) : Nat := base + 16 * i

/-- The address of block `i` of a region (R55). -/
def RegionName.block (r : RegionName) (i : Nat) (s : State) : Nat := blockAddr (r.baseReg s).val i

/-- PT_BLOCKS; SEAL's issue check makes sure it holds a value. -/
def State.ptBlocks (s : State) : Nat := s.host.PT_BLOCKS.value.getD 0

/-- AD_BLOCKS; SEAL's issue check makes sure it holds a value. -/
def State.adBlocks (s : State) : Nat := s.host.AD_BLOCKS.value.getD 0

/-- The block count of a region (R31). -/
def RegionName.blocks (r : RegionName) (s : State) : Nat :=
  match r with
  | .pt => s.ptBlocks
  | .ct => s.ptBlocks
  | .ad => s.adBlocks

/-- The addresses of a region: its base to `base + 16*n - 1`, none when its block count n is 0; then "its address
register is not read" (R31). -/
def RegionName.range (r : RegionName) (s : State) : Range :=
  if r.blocks s = 0 then { base := 0, size := 0 }
  else { base := (r.base s).getD 0, size := 16 * r.blocks s }

/-- Address `a` lies in the range. -/
abbrev Range.has (r : Range) (a : Nat) : Prop := r.base ≤ a ∧ a < r.base + r.size

/-- Two ranges share an address. -/
def Range.meets (r q : Range) : Bool :=
  decide (0 < r.size ∧ 0 < q.size ∧ r.base < q.base + q.size ∧ q.base < r.base + r.size)

/-- The addresses of a range that lie outside another, as ranges that are not empty. -/
def Range.minus (r q : Range) : List Range :=
  if r.meets q then
    [{ base := r.base, size := q.base - r.base },
      { base := q.base + q.size, size := r.base + r.size - (q.base + q.size) }].filter fun p => decide (0 < p.size)
  else [r]

/-- A range shares an address with a ciphertext region that the host has not been shown. -/
def Unseen.meets (u : Unseen) (r : Range) : Bool := u.bytes.any fun q => q.meets r

/-- What is left to show once the host has written the bytes of a range itself (R11, R156; log 23). -/
def Unseen.minus (u : Unseen) (r : Range) : Unseen := { u with bytes := u.bytes.flatMap fun q => q.minus r }

/-- `Populated(a)` (R6). -/
def populated (p : Platform) (a : Nat) : Bool := !(p.holes.any fun h => decide (h.has a))

/-- A range lies in the buffer memory: it does not pass the top of the address space and every address in it
is populated (R37). -/
def Range.inMemory (p : Platform) (r : Range) : Bool :=
  decide (r.size = 0 ∨ r.base + r.size ≤ 2 ^ p.AW) && !(p.holes.any fun h => r.meets h)

/-- Every byte of the range holds a value. -/
def Range.written (m : Memory) (r : Range) : Bool :=
  (List.range r.size).all fun k => (m.read (r.base + k)).isSome

/-- The range shares an address with a region of the command in progress (R42). ENCRYPT_BLOCK "touches no
memory" (R30). -/
def State.inRunningRegion (s : State) (r : Range) : Bool :=
  match s.seq.pos.op with
  | some .sealMessage =>
    r.meets (RegionName.pt.range s) || r.meets (RegionName.ct.range s) || r.meets (RegionName.ad.range s)
  | _ => false

end Sys2Proof.Machine
end

