-- ==== Sys2Proof/Machine/AesOps.lean ====
section
/-! DEFINITION. The AES operations on the state: the shared operation `op…` that commands are composed of, and
the meaning `exec…` of each instruction (40_aes_round_ops.md, 41_aes_key_schedule.md, 42_aes_cipher.md).
"No operation in this file writes a flag, raises an exception, touches memory or depends on any state other
than its stated operands." A block, word or byte out is delivered on the port (log 8). An operation works on what the
storage of a register holds (log 2) and gives the registers it writes a value. -/

namespace Sys2Proof.Machine

/-! ## Byte functions: R65, R66, R67 -/

/-- SBOX (R65). -/
def execSbox (a : Byte) (s : State) : Result := .next (s.deliver (.byte (sboxByte a)))

/-- XTIME (R66). -/
def execXtime (b : Byte) (s : State) : Result := .next (s.deliver (.byte (xtimeByte b)))

/-- MUL3 (R67). -/
def execMul3 (b : Byte) (s : State) : Result := .next (s.deliver (.byte (mul3Byte b)))

/-! ## State load and store, round operations: R68 to R73 -/

/-- LDST: S <- the block, byte i at `S[i mod 4][i div 4]` (R68). -/
def opLdst (b : Block) (s : State) : Result := .next (s.withDp (s.dp.setS (.holding (loadState b))))

def execLdst (b : Block) (s : State) : Result := opLdst b s

/-- ARK: S is XORed with round key r, "0 <= r <= 10" (R69); another r is no operand of ARK (log 18). -/
def opArk (r : Nat) (s : State) : Result :=
  if r ≤ 10 then
    .next (s.withDp (s.dp.setS (.holding (addRoundKey (roundKey s.dp.RK.val r) s.dp.S.val))))
  else .refused .badUop

def execArk (r : Nat) (s : State) : Result := opArk r s

/-- An operation that "reads and writes S". -/
def onState (f : Matrix → Matrix) (s : State) : Result :=
  .next (s.withDp (s.dp.setS (.holding (f s.dp.S.val))))

/-- SUBB (R70). -/
def opSubb (s : State) : Result := onState subBytes s

def execSubb (s : State) : Result := opSubb s

/-- SHROW (R71). -/
def opShrow (s : State) : Result := onState shiftRows s

def execShrow (s : State) : Result := opShrow s

/-- MIXC (R72). -/
def opMixc (s : State) : Result := onState mixColumns s

def execMixc (s : State) : Result := opMixc s

/-- STST: the block out is S, which is not changed (R73). -/
def opStst (s : State) : Result := .next (s.deliver (.block (storeState s.dp.S.val)))

def execStst (s : State) : Result := opStst s

/-! ## Key schedule: R80 to R83 -/

/-- ROTW (R80). -/
def execRotw (t : Word) (s : State) : Result := .next (s.deliver (.word (rotWord t)))

/-- SUBW (R81). -/
def execSubw (t : Word) (s : State) : Result := .next (s.deliver (.word (subWord t)))

/-- RCON: "an index k, 1 <= k <= 10" (R82); another k is no operand of RCON (log 18). -/
def execRcon (k : Nat) (s : State) : Result :=
  if 1 ≤ k ∧ k ≤ 10 then .next (s.deliver (.byte (roundConstant k))) else .refused .badUop

/-- KEXP: RK from KEY (R83). -/
def opKexp (s : State) : Result :=
  .next (s.withDp (s.dp.setRK (.holding (expandKey s.host.KEY.val))))

def execKexp (s : State) : Result := opKexp s

/-! ## The cipher: R90 -/

/-- CIPHER: reads RK, "uses S as working register", and delivers the encrypted block (R90; log 19). -/
def opCipher (b : Block) (s : State) : Result :=
  .next ((s.withDp (s.dp.setS (.holding (cipherState s.dp.RK.val b)))).deliver (.block (cipherBlock s.dp.RK.val b)))

def execCipher (b : Block) (s : State) : Result := opCipher b s

end Sys2Proof.Machine
end

