-- ==== Sys2Proof/Machine/Gcm.lean ====
section
/-! DEFINITION. The GCM functions: counter block, multiplier, length block, and the counter-mode and hash
loops over a list of blocks (43_gcm_primitives.md, 44_gcm_seal.md). -/

namespace Sys2Proof.Machine

/-- J0: `IV[0..11] || 00 00 00 01` (R51, R100). -/
def initialCounter (iv : Nonce) : Block := iv ++ 1#32

/-- Bytes 0 to 11 of a counter block (R51). -/
def counterNonce (cb : Block) : Nonce := cb.extractLsb' 32 96

/-- The counter, bytes 12 to 15 big-endian (R51). -/
def counterField (cb : Block) : BitVec 32 := cb.extractLsb' 0 32

/-- INC32: the counter plus 1 modulo 2^32, bytes 0 to 11 unchanged (R101). -/
def incrementCounter (cb : Block) : Block := counterNonce cb ++ (counterField cb + 1)

/-- GFSTEP's new Z: Z, XORed with V if the bit is 1 (R103). -/
def gfNextZ (x : Bool) (z v : Block) : Block := if x then z ^^^ v else z

/-- GFSTEP's new V: V shifted right by one bit "as one 128-bit quantity with byte 0 on top", byte 0 then
XORed with 0xE1 if the bit shifted out was 1 (R103). -/
def gfNextV (v : Block) : Block := if v.getLsbD 0 then (v >>> 1) ^^^ (0xE1#8 ++ 0#120) else v >>> 1

/-- Z and V after GFSTEP for the bits `is` of `a`, in that order (R104). -/
def gfSteps (a : Block) (is : List Nat) (zv : Block × Block) : Block × Block :=
  is.foldl (fun zv i => (gfNextZ (gbit a i) zv.1 zv.2, gfNextV zv.2)) zv

/-- Z and V at the end of `GFMUL(a, b)`: `Z <- 0^128; V <- b; for i in 0 .. 127: GFSTEP(gbit(a, i))` (R104). -/
def gfLoop (a b : Block) : Block × Block := gfSteps a (List.range 128) (0, b)

/-- GFMUL: multiplication in GF(2^128) (R104). -/
def gfMul (a b : Block) : Block := (gfLoop a b).1

/-- LENBLK: `tobe(128 * a, 8) || tobe(128 * p, 8)` (R52, R110). -/
def lengthBlock (a p : Nat) : Block := BitVec.ofNat 64 (128 * a) ++ BitVec.ofNat 64 (128 * p)

/-- The output blocks of GCTR over `bs` from the counter block `cb` (R116). -/
def gctrBlocks (rk : Schedule) (cb : Block) : List Block → List Block
  | [] => []
  | b :: bs => (b ^^^ cipherBlock rk cb) :: gctrBlocks rk (incrementCounter cb) bs

/-- The accumulator of GHASH after the blocks `xs`, from `y` on (R117). -/
def ghashFrom (h y : Block) (xs : List Block) : Block := xs.foldl (fun y x => gfMul h (y ^^^ x)) y

end Sys2Proof.Machine
end

