-- ==== Sys2Proof/Machine/GcmOps.lean ====
section
/-! DEFINITION. The GCM operations on the state: the shared operation `op…` that commands are composed of, and
the meaning `exec…` of each instruction (43_gcm_primitives.md, 44_gcm_seal.md section 1). They work on what the storage
of a register holds (log 2) and give the registers they write a value. -/

namespace Sys2Proof.Machine

/-- A register takes the block delivered, as in `KS <- CIPHER(CB)` (R120). -/
def moveTo (d : Dst) (s : State) : Result :=
  .next (match d with
    | .h => s.withDp (s.dp.setH (.holding s.portBlock))
    | .ks => s.withDp (s.dp.setKS (.holding s.portBlock))
    | .y => s.withDp (s.dp.setY (.holding s.portBlock))
    | .tag => s.withHost (s.host.setTAG (.holding s.portBlock)))

/-! ## Primitives: R100 to R110 -/

/-- MKJ0: CB from IV (R100). -/
def opMkj0 (s : State) : Result :=
  .next (s.withDp (s.dp.setCB (.holding (initialCounter s.host.IV.val))))

def execMkj0 (s : State) : Result := opMkj0 s

/-- INC32 (R101). -/
def opInc32 (s : State) : Result :=
  .next (s.withDp (s.dp.setCB (.holding (incrementCounter s.dp.CB.val))))

def execInc32 (s : State) : Result := opInc32 s

/-- XOR128: `out[k] <- A[k] ^ B[k]` (R102). -/
def opXor128 (a b : Block) (s : State) : Result := .next (s.deliver (.block (a ^^^ b)))

def execXor128 (a b : Block) (s : State) : Result := opXor128 a b s

/-- GFSTEP (R103). -/
def opGfstep (x : Bool) (s : State) : Result :=
  .next (s.withDp ((s.dp.setZ (.holding (gfNextZ x s.dp.Z.val s.dp.V.val))).setV (.holding (gfNextV s.dp.V.val))))

def execGfstep (x : Bool) (s : State) : Result := opGfstep x s

/-- GFMUL: `Z <- 0^128; V <- B; for i in 0 .. 127: GFSTEP(gbit(A, i)); out <- Z` (R104). -/
def opGfmul (a b : Block) (s : State) : Result :=
  .next ((s.withDp ((s.dp.setZ (.holding (gfLoop a b).1)).setV (.holding (gfLoop a b).2))).deliver (.block (gfMul a b)))

def execGfmul (a b : Block) (s : State) : Result := opGfmul a b s

/-- LENBLK (R110); the counts are below 2^57, since CW <= 57 (R6; log 18). -/
def opLenblk (a p : Nat) (s : State) : Result :=
  if a < 2 ^ 57 ∧ p < 2 ^ 57 then .next (s.withDp (s.dp.setLB (.holding (lengthBlock a p))))
  else .refused .badUop

def execLenblk (a p : Nat) (s : State) : Result := opLenblk a p s

/-! ## Composite operations: R115 to R119 -/

/-- HSUB: `H <- CIPHER(0^128)` (R115). -/
def opHsub (s : State) : Result := andThen (opCipher 0 s) fun s => moveTo .h s

def execHsub (s : State) : Result := opHsub s

/-- `KS <- CIPHER(CB)`. -/
def keystream (s : State) : Result :=
  andThen (opCipher s.dp.CB.val s) fun s => moveTo .ks s

/-- `XOR128(b, KS)` for a block b. -/
def xorKeystream (b : Block) (s : State) : Result := opXor128 b s.dp.KS.val s

/-- GCTR's loop: `KS <- CIPHER(CB); O_i <- XOR128(B_i, KS); INC32` (R116); `done` holds the blocks out so far,
the last first. -/
def gctrLoop (bs done : List Block) (s : State) : Result :=
  match bs with
  | [] => .next (s.deliver (.blocks done.reverse))
  | b :: rest =>
    andThen (keystream s) fun s => andThen (xorKeystream b s) fun s =>
      let o := s.portBlock
      andThen (opInc32 s) fun s => gctrLoop rest (o :: done) s

/-- GCTR over the blocks `bs` (R116). -/
def execGctr (bs : List Block) (s : State) : Result := gctrLoop bs [] s

/-- `Y <- 0^128`. -/
def opClearY (s : State) : Result := .next (s.withDp (s.dp.setY (.holding 0)))

/-- `Y <- GFMUL(H, XOR128(Y, x))` (R117). -/
def hashBlock (x : Block) (s : State) : Result :=
  andThen (opXor128 s.dp.Y.val x s) fun s => andThen (opGfmul s.dp.H.val s.portBlock s) fun s => moveTo .y s

/-- GHASH's loop (R117). -/
def hashLoop (xs : List Block) (s : State) : Result :=
  match xs with
  | [] => .next s
  | x :: rest => andThen (hashBlock x s) fun s => hashLoop rest s

/-- GHASH of the blocks `xs` (R117). -/
def execGhash (xs : List Block) (s : State) : Result := andThen (opClearY s) fun s => hashLoop xs s

/-- TAGENC: `MKJ0; KS <- CIPHER(CB); TAG <- XOR128(Y, KS); INC32` (R119). The counter is re-seeded from IV
(R153). -/
def opTagenc (s : State) : Result :=
  andThen (opMkj0 s) fun s => andThen (keystream s) fun s =>
    andThen (xorKeystream s.dp.Y.val s) fun s => andThen (moveTo .tag s) fun s => opInc32 s

def execTagenc (s : State) : Result := opTagenc s

end Sys2Proof.Machine
end

