-- ==== Sys2Proof/Machine/Commands.lean ====
section
/-! DEFINITION. The host commands NOP, ENCRYPT_BLOCK and SEAL (42_aes_cipher.md R92, 44_gcm_seal.md R120 to
R123): issue checks, issue, phases, completion. A meaning here runs the whole command (R10: "one core step
per command"); Machine/Sequencer.lean runs it one micro-operation a step (log 4). -/

namespace Sys2Proof.Machine

/-! ## Issue checks -/

/-- The issue check of NOP (R123). -/
def nopCheck (s : State) : Option Refusal := if s.busy then some .rfBusy else none

/-- The issue checks of ENCRYPT_BLOCK: "if STATUS.BUSY = 1, refuse(RF_BUSY); if KEY or DIN holds no value,
refuse(RF_NOVALUE)" (R92). -/
def encryptCheck (s : State) : Option Refusal :=
  if s.busy then some .rfBusy
  else if !s.host.KEY.held || !s.host.DIN.held then some .rfNoValue
  else none

/-- The issue checks of SEAL, "in this order; the first that fails decides the reason" (R122). -/
def sealCheck (s : State) : Option Refusal :=
  if s.busy then some .rfBusy
  else if !s.host.KEY.held || !s.host.IV.held || !s.host.PT_BLOCKS.held || !s.host.AD_BLOCKS.held then
    some .rfNoValue
  else if (decide (0 < s.ptBlocks) && (!s.host.PT_ADDR.held || !s.host.CT_ADDR.held))
      || (decide (0 < s.adBlocks) && !s.host.AD_ADDR.held) then
    some .rfNoValue
  else if !((RegionName.pt.range s).inMemory s.plat && (RegionName.ct.range s).inMemory s.plat
      && (RegionName.ad.range s).inMemory s.plat) then
    some .rfRegion
  else if (RegionName.ct.range s).meets (RegionName.pt.range s)
      || (RegionName.ct.range s).meets (RegionName.ad.range s) then
    some .rfOverlap
  else if !((RegionName.pt.range s).written s.MEM && (RegionName.ad.range s).written s.MEM) then
    some .rfNoValue
  else none

/-! ## Issue and completion -/

/-- "At issue": BUSY <- 1, DONE <- 0, DOUT and TAG left with no value (R27, R92, R120), and the sequencer at
the first phase, KEXP (R22). -/
def issue (c : Command) (s : State) : State :=
  ((s.withStatus (statusAtIssue s.STATUS)).withHost ((s.host.setDOUT s.host.DOUT.drop).setTAG s.host.TAG.drop)).withSeq
    { pos := { op := some c, phase := .kexp, rnd := 0, blk := 0, bit := 0 }
      todo := [{ rnd := 0, bit := 0, act := .kexp }] }

/-- The datapath registers after command number `n`: "after a command completes each of them holds no value" (R25), and
the storage of each is left with a free value (U18; log 2). -/
def Datapath.leftBy (n : Nat) : Datapath where
  S := .blank (loadState (freeBlock n 0))
  RK :=
    .blank
      { k0 := freeBlock n 10, k1 := freeBlock n 11, k2 := freeBlock n 12, k3 := freeBlock n 13, k4 := freeBlock n 14
        k5 := freeBlock n 15, k6 := freeBlock n 16, k7 := freeBlock n 17, k8 := freeBlock n 18, k9 := freeBlock n 19
        k10 := freeBlock n 20 }
  H := .blank (freeBlock n 1)
  CB := .blank (freeBlock n 2)
  KS := .blank (freeBlock n 3)
  X := .blank (freeBlock n 4)
  Y := .blank (freeBlock n 5)
  Z := .blank (freeBlock n 6)
  V := .blank (freeBlock n 7)
  LB := .blank (freeBlock n 8)

/-- What the host is left to be shown as the command in progress completes: DOUT and TAG, and SEAL's ciphertext region
beside those of earlier commands (R41, R156; log 23). -/
def State.unseenAtCompletion (s : State) : Unseen where
  results := true
  bytes :=
    match s.seq.pos.op with
    | some .sealMessage => if s.ptBlocks = 0 then s.unseen.bytes else RegionName.ct.range s :: s.unseen.bytes
    | _ => s.unseen.bytes

/-- "Completion": the scratch is left with no value (R25), BUSY <- 0, DONE <- 1, the sequencer idle; the results wait
for a poll of STATUS (R156). -/
def complete (s : State) : State :=
  (((((s.withDp (.leftBy s.drawn)).withDrawn (s.drawn + 1)).withOut none).withStatus
    (statusAtCompletion s.STATUS)).withSeq .idle).withUnseen s.unseenAtCompletion

/-- The completion of the command in progress; ENCRYPT_BLOCK's begins with `DOUT <- KS` (R92). -/
def opFinish (s : State) : Result :=
  match s.seq.pos.op with
  | some .encryptBlock => .next (complete (s.withHost (s.host.setDOUT (.holding s.dp.KS.val))))
  | _ => .next (complete s)

/-! ## NOP -/

/-- NOP: nothing changes (R123). -/
def execNop (s : State) : Result :=
  match nopCheck s with
  | some r => .refused r
  | none => .next s

/-! ## ENCRYPT_BLOCK -/

/-- ENCRYPT_BLOCK from its issue on: KEXP; KS <- CIPHER(DIN); completion (R92). -/
def runEncrypt (s : State) : Result :=
  andThen (opKexp s) fun s => andThen (opCipher s.host.DIN.val s) fun s =>
    andThen (moveTo .ks s) fun s => opFinish s

/-- ENCRYPT_BLOCK (R92). -/
def execEncryptBlock (s : State) : Result :=
  match encryptCheck s with
  | some r => .refused r
  | none => runEncrypt (issue .encryptBlock s)

/-! ## SEAL -/

/-- `X <- MemRead(base + 16*i, 16)` (R32, R55). -/
def loadBlock (r : RegionName) (i : Nat) (s : State) : Result :=
  reading (s.MEM.readBlock (r.block i s)) fun x => .next (s.withDp (s.dp.setX (.holding x)))

/-- `MemWrite(CT_ADDR + 16*i, 16, …)` of the block delivered (R33, R55). -/
def storeBlock (i : Nat) (s : State) : Result :=
  .next (s.withMem (s.MEM.writeBlock (RegionName.ct.block i s) s.portBlock))

/-- Block i of PHASE GCTR (R120). -/
def sealGctrBlock (i : Nat) (s : State) : Result :=
  andThen (loadBlock .pt i s) fun s => andThen (keystream s) fun s =>
    andThen (xorKeystream s.dp.X.val s) fun s => andThen (storeBlock i s) fun s => opInc32 s

/-- Block i of PHASE GHASH_AD or GHASH_CT (R120). -/
def sealHashBlock (r : RegionName) (i : Nat) (s : State) : Result :=
  andThen (loadBlock r i s) fun s => hashBlock s.dp.X.val s

/-- PHASE GHASH_LEN (R120). -/
def sealHashLength (s : State) : Result :=
  andThen (opLenblk s.adBlocks s.ptBlocks s) fun s => hashBlock s.dp.LB.val s

/-- SEAL from its issue on: the phases of R120, in the order of R121. -/
def runSeal (s : State) : Result :=
  andThen (opKexp s) fun s =>
  andThen (opHsub s) fun s =>
  andThen (opMkj0 s) fun s =>
  andThen (opInc32 s) fun s =>
  andThen (forBlocks sealGctrBlock s.ptBlocks 0 s) fun s =>
  andThen (opClearY s) fun s =>
  andThen (forBlocks (sealHashBlock .ad) s.adBlocks 0 s) fun s =>
  andThen (forBlocks (sealHashBlock .ct) s.ptBlocks 0 s) fun s =>
  andThen (sealHashLength s) fun s =>
  andThen (opTagenc s) fun s => opFinish s

/-- SEAL (R120, R122). -/
def execSeal (s : State) : Result :=
  match sealCheck s with
  | some r => .refused r
  | none => runSeal (issue .sealMessage s)

end Sys2Proof.Machine
end

