-- ==== Sys2Proof/Machine/Dispatch.lean ====
section
/-! DEFINITION. The meaning of every instruction: one arm per constructor. -/

namespace Sys2Proof.Machine

def exec (i : Instr) (s : State) : Host.Outcome State Fault Refusal :=
  match i with
  | .nop => Sys2Proof.Machine.execNop s
  | .encryptBlock => Sys2Proof.Machine.execEncryptBlock s
  | .sealMessage => Sys2Proof.Machine.execSeal s
  | .ldst b => Sys2Proof.Machine.execLdst b s
  | .ark r => Sys2Proof.Machine.execArk r s
  | .subb => Sys2Proof.Machine.execSubb s
  | .shrow => Sys2Proof.Machine.execShrow s
  | .mixc => Sys2Proof.Machine.execMixc s
  | .stst => Sys2Proof.Machine.execStst s
  | .rotw t => Sys2Proof.Machine.execRotw t s
  | .subw t => Sys2Proof.Machine.execSubw t s
  | .rcon k => Sys2Proof.Machine.execRcon k s
  | .kexp => Sys2Proof.Machine.execKexp s
  | .cipher b => Sys2Proof.Machine.execCipher b s
  | .mkj0 => Sys2Proof.Machine.execMkj0 s
  | .inc32 => Sys2Proof.Machine.execInc32 s
  | .xor128 a b => Sys2Proof.Machine.execXor128 a b s
  | .gfstep x => Sys2Proof.Machine.execGfstep x s
  | .gfmul a b => Sys2Proof.Machine.execGfmul a b s
  | .lenblk a p => Sys2Proof.Machine.execLenblk a p s
  | .hsub => Sys2Proof.Machine.execHsub s
  | .gctr bs => Sys2Proof.Machine.execGctr bs s
  | .ghash xs => Sys2Proof.Machine.execGhash xs s
  | .tagenc => Sys2Proof.Machine.execTagenc s
  | .sbox a => Sys2Proof.Machine.execSbox a s
  | .xtime b => Sys2Proof.Machine.execXtime b s
  | .mul3 b => Sys2Proof.Machine.execMul3 b s

end Sys2Proof.Machine
end

