-- ==== Sys2Proof/WellFormed.lean ====
section
/-! DEFINITION. Which terms of Instr the spec gives a meaning: the ranges of the operands. -/

namespace Sys2Proof

/-- The operand ranges the rules give: ARK's round index "0 <= r <= 10" (R69), RCON's index
"1 <= k <= 10" (R82), LENBLK's counts below 2^57 since CW <= 57 (R6, R110). A sequence of blocks has fewer
than 2^64 of them: that is the model's bound, from its 8-byte length field (log 7, DESIGN CHOICE). -/
def Instr.wellFormed : Instr → Bool
  | .ark r => decide (r ≤ 10)
  | .rcon k => decide (1 ≤ k ∧ k ≤ 10)
  | .lenblk a p => decide (a < 2 ^ 57 ∧ p < 2 ^ 57)
  | .gctr bs => decide (bs.length < 2 ^ 64)
  | .ghash xs => decide (xs.length < 2 ^ 64)
  | .nop | .encryptBlock | .sealMessage | .ldst _ | .subb | .shrow | .mixc | .stst | .rotw _ | .subw _
  | .kexp | .cipher _ | .mkj0 | .inc32 | .xor128 _ _ | .gfstep _ | .gfmul _ _ | .hsub | .tagenc
  | .sbox _ | .xtime _ | .mul3 _ => true

end Sys2Proof
end

