-- ==== Sys2Proof/Decode.lean ====
section
/-! DEFINITION. Decoding and encoding (30_encoding.md R45 to R47, R57, R58).
A host command is one 32-bit word. A named operation is its 8-bit code UOP; the spec gives its operands no
bits ("inputs and outputs of the operation, not fields of an encoding"), so the model writes them as bytes
after the code, in the order of the rule's operand list (log 7, DESIGN CHOICE). -/

namespace Sys2Proof

open Sys2Proof.Machine (blockBytes blockOfBytes wordBytes wordOfBytes be tobe)

/-- Why a code is no instruction. -/
inductive DecodeError where
  /-- Command word with OPC = 3 (R47). -/
  | reservedOpc
  /-- Command word with a bit of ZERO set (R47). -/
  | zeroFieldSet
  /-- An operation code R58 leaves unassigned. -/
  | unassignedUop
  /-- Fewer bytes than the operation's operands take. -/
  | truncated
  /-- An operand outside the range its rule gives (R69, R82, R103, R110). -/
  | operandRange
deriving DecidableEq, Repr

/-- What stands for an instruction outside the machine: a command word or the bytes of an operation. -/
inductive Code where
  | command (w : Word)
  | uop (bytes : List Byte)
deriving DecidableEq, Repr

/-- Field OPC of a command word, bits 1 to 0 (R45). -/
def opcField (w : Word) : BitVec 2 := w.extractLsb' 0 2

/-- Field ZERO of a command word, bits 31 to 2 (R45). -/
def zeroField (w : Word) : BitVec 30 := w.extractLsb' 2 30

/-- The command a 32-bit word encodes (R46), or why it has no meaning (R47). -/
def decodeCommand (w : Word) : Except DecodeError Instr :=
  if zeroField w ≠ 0 then .error .zeroFieldSet
  else match (opcField w).toNat with
    | 0 => .ok .nop
    | 1 => .ok .encryptBlock
    | 2 => .ok .sealMessage
    | _ => .error .reservedOpc

/-- What the decoder of operations answers: an instruction and the bytes after it, or why there is none. -/
abbrev Decoded := Except DecodeError (Instr × List Byte)

/-- Go on with one operand byte. -/
def onByte (bs : List Byte) (f : Byte → List Byte → Decoded) : Decoded :=
  match bs with
  | [] => .error .truncated
  | b :: rest => f b rest

/-- Go on with an operand of `n` bytes. -/
def onBytes (n : Nat) (bs : List Byte) (f : List Byte → List Byte → Decoded) : Decoded :=
  if bs.length < n then .error .truncated else f (bs.take n) (bs.drop n)

/-- Go on with an operand word (4 bytes). -/
def onWord (bs : List Byte) (f : Word → List Byte → Decoded) : Decoded :=
  onBytes 4 bs fun h rest => f (wordOfBytes h) rest

/-- Go on with an operand block (16 bytes). -/
def onBlock (bs : List Byte) (f : Block → List Byte → Decoded) : Decoded :=
  onBytes 16 bs fun h rest => f (blockOfBytes h) rest

/-- Go on with an operand count (8 bytes, big-endian). -/
def onCount (bs : List Byte) (f : Nat → List Byte → Decoded) : Decoded :=
  onBytes 8 bs fun h rest => f (be h) rest

/-- Go on with `n` operand blocks. -/
def onBlocks (n : Nat) (bs : List Byte) (f : List Block → List Byte → Decoded) : Decoded :=
  match n with
  | 0 => f [] bs
  | m + 1 => onBlock bs fun b rest => onBlocks m rest fun t rest' => f (b :: t) rest'

/-- Accept an instruction if its operand is in range. -/
def accept (ok : Bool) (i : Instr) (rest : List Byte) : Decoded :=
  if ok then .ok (i, rest) else .error .operandRange

/-- The operation whose bytes stand at the front of a list (the table of R58), with the bytes after it.
RCON's operand byte is its index less 1, so that the ten indices are the bytes 0 to 9 (log 7). -/
def decodeUop (bs : List Byte) : Decoded :=
  match bs with
  | [] => .error .truncated
  | c :: rest =>
    match c.toNat with
    | 0x01 => onBlock rest fun b r => .ok (.ldst b, r)
    | 0x02 => onByte rest fun k r => accept (decide (k.toNat ≤ 10)) (.ark k.toNat) r
    | 0x03 => .ok (.subb, rest)
    | 0x04 => .ok (.shrow, rest)
    | 0x05 => .ok (.mixc, rest)
    | 0x06 => .ok (.stst, rest)
    | 0x08 => onWord rest fun t r => .ok (.rotw t, r)
    | 0x09 => onWord rest fun t r => .ok (.subw t, r)
    | 0x0a => onByte rest fun k r => accept (decide (k.toNat ≤ 9)) (.rcon (k.toNat + 1)) r
    | 0x0b => .ok (.kexp, rest)
    | 0x0c => onBlock rest fun b r => .ok (.cipher b, r)
    | 0x10 => .ok (.mkj0, rest)
    | 0x11 => .ok (.inc32, rest)
    | 0x12 => onBlock rest fun a r => onBlock r fun b r' => .ok (.xor128 a b, r')
    | 0x13 => onByte rest fun x r => accept (decide (x.toNat ≤ 1)) (.gfstep (x.getLsbD 0)) r
    | 0x14 => onBlock rest fun a r => onBlock r fun b r' => .ok (.gfmul a b, r')
    | 0x15 => onCount rest fun a r => onCount r fun p r' =>
        accept (decide (a < 2 ^ 57 ∧ p < 2 ^ 57)) (.lenblk a p) r'
    | 0x16 => .ok (.hsub, rest)
    | 0x17 => onCount rest fun n r => onBlocks n r fun xs r' => .ok (.gctr xs, r')
    | 0x18 => onCount rest fun n r => onBlocks n r fun xs r' => .ok (.ghash xs, r')
    | 0x19 => .ok (.tagenc, rest)
    | 0x20 => onByte rest fun b r => .ok (.sbox b, r)
    | 0x21 => onByte rest fun b r => .ok (.xtime b, r)
    | 0x22 => onByte rest fun b r => .ok (.mul3 b, r)
    | _ => .error .unassignedUop

/-- The instruction a code stands for; bytes after an operation's own are not part of it. -/
def decode (c : Code) : Except DecodeError Instr :=
  match c with
  | .command w => decodeCommand w
  | .uop bs =>
    match decodeUop bs with
    | .error e => .error e
    | .ok (i, _) => .ok i

/-- The bytes of a sequence of blocks: their number (8 bytes, big-endian), then the blocks. -/
def sequenceBytes (xs : List Block) : List Byte := tobe xs.length 8 ++ xs.flatMap blockBytes

/-- The code of an instruction (R46, R58). -/
def encode (i : Instr) : Code :=
  match i with
  | .nop => .command 0x00000000
  | .encryptBlock => .command 0x00000001
  | .sealMessage => .command 0x00000002
  | .ldst b => .uop (0x01 :: blockBytes b)
  | .ark r => .uop [0x02, BitVec.ofNat 8 r]
  | .subb => .uop [0x03]
  | .shrow => .uop [0x04]
  | .mixc => .uop [0x05]
  | .stst => .uop [0x06]
  | .rotw t => .uop (0x08 :: wordBytes t)
  | .subw t => .uop (0x09 :: wordBytes t)
  | .rcon k => .uop [0x0a, BitVec.ofNat 8 (k - 1)]
  | .kexp => .uop [0x0b]
  | .cipher b => .uop (0x0c :: blockBytes b)
  | .mkj0 => .uop [0x10]
  | .inc32 => .uop [0x11]
  | .xor128 a b => .uop (0x12 :: (blockBytes a ++ blockBytes b))
  | .gfstep x => .uop [0x13, if x then 1 else 0]
  | .gfmul a b => .uop (0x14 :: (blockBytes a ++ blockBytes b))
  | .lenblk a p => .uop (0x15 :: (tobe a 8 ++ tobe p 8))
  | .hsub => .uop [0x16]
  | .gctr bs => .uop (0x17 :: sequenceBytes bs)
  | .ghash xs => .uop (0x18 :: sequenceBytes xs)
  | .tagenc => .uop [0x19]
  | .sbox a => .uop [0x20, a]
  | .xtime b => .uop [0x21, b]
  | .mul3 b => .uop [0x22, b]

/-- The bytes of a number's low `nbits` bits, bits 7 to 0 first, then 40 zero bytes: an operation's code and
its operand bytes, all 0 (the longest operation with zero operands has 33 bytes). -/
def tableBytes (nbits w : Nat) : List Byte :=
  (List.range (nbits / 8)).map (fun k => BitVec.ofNat 8 (w / 256 ^ k)) ++ List.replicate 40 0

/-- The code of an opcode-table row's word: a row of 32 bits is a command word, a shorter one an
operation's code. -/
def tableCode (nbits w : Nat) : Code :=
  if nbits = 32 then .command (BitVec.ofNat 32 w) else .uop (tableBytes nbits w)

/-- The instruction the decoder reads from a word as spec/opcode_table.json numbers its bits. -/
def decodeTableWord (nbits w : Nat) : Option Instr :=
  match decode (tableCode nbits w) with
  | .error _ => none
  | .ok i => some i

end Sys2Proof
end

