-- ==== Sys2Proof/Machine/Sequencer.lean ====
section
/-! DEFINITION. The sequencer: the command in progress, one micro-operation a step (10_state.md R10, R22;
42_aes_cipher.md R91, R94; 44_gcm_seal.md R121, R127). The lists below are the pseudocode blocks of R90,
R92, R104, R119 and R120, line by line, each line with the RND and BIT of its position. -/

namespace Sys2Proof.Machine

/-! ## One micro-operation -/

/-- GFSTEP(gbit(H, i)): GHASH's GFMUL scans H (R104, R117). -/
def gfstepOfH (i : Nat) (s : State) : Result := opGfstep (gbit s.dp.H.val i) s

/-- XOR128 of two blocks held in registers. -/
def xorSources (a b : Src) (s : State) : Result := opXor128 (a.block s) (b.block s) s

/-- `Z <- 0^128; V <- B`, B being the block delivered (R104). -/
def seedProduct (s : State) : Result :=
  .next (s.withDp ((s.dp.setZ (.holding 0)).setV (.holding s.portBlock)))

/-- `out <- Z` (R104). -/
def deliverProduct (s : State) : Result := .next (s.deliver (.block s.dp.Z.val))

/-- What one micro-operation does. -/
def Micro.run (m : Micro) (s : State) : Result :=
  match m with
  | .kexp => opKexp s
  | .ldst src => opLdst (src.block s) s
  | .ark r => opArk r s
  | .subb => opSubb s
  | .shrow => opShrow s
  | .mixc => opMixc s
  | .stst => opStst s
  | .mkj0 => opMkj0 s
  | .inc32 => opInc32 s
  | .xor128 a b => xorSources a b s
  | .gfstep i => gfstepOfH i s
  | .lenblk => opLenblk s.adBlocks s.ptBlocks s
  | .load r => loadBlock r s.seq.pos.blk s
  | .store => storeBlock s.seq.pos.blk s
  | .clearY => opClearY s
  | .seed => seedProduct s
  | .product => deliverProduct s
  | .move d => moveTo d s
  | .finish => opFinish s

/-! ## The micro-operations of a position -/

/-- Round `r` of rounds 1 to 9 (R90). -/
def middleRoundItems (r : Nat) : List SeqItem :=
  [{ rnd := r, bit := 0, act := .subb }, { rnd := r, bit := 0, act := .shrow },
   { rnd := r, bit := 0, act := .mixc }, { rnd := r, bit := 0, act := .ark r }]

/-- The 42 micro-operations of CIPHER of a block source (R90), with RND as R91 says; BIT is 0 (log 22, DESIGN
CHOICE). -/
def cipherItems (src : Src) : List SeqItem :=
  [{ rnd := 0, bit := 0, act := .ldst src }, { rnd := 0, bit := 0, act := .ark 0 }]
    ++ (List.range' 1 9).flatMap middleRoundItems
    ++ [{ rnd := 10, bit := 0, act := .subb }, { rnd := 10, bit := 0, act := .shrow },
        { rnd := 10, bit := 0, act := .ark 10 }, { rnd := 10, bit := 0, act := .stst }]

/-- A micro-operation outside the loops over RND and BIT: both are 0, where R22, R91 and R121 state no value (log 22,
DESIGN CHOICE). -/
def plain (m : Micro) : SeqItem := { rnd := 0, bit := 0, act := m }

/-- `Y <- GFMUL(H, XOR128(Y, src))` (R104, R117). RND is 0 throughout, and BIT before and after the loop (log 22,
DESIGN CHOICE). -/
def hashItems (src : Src) : List SeqItem :=
  [plain (.xor128 .y src), plain .seed]
    ++ (List.range 128).map (fun i => { rnd := 0, bit := i, act := .gfstep i })
    ++ [plain .product, plain (.move .y)]

/-- The body of GCTR's loop over the plaintext blocks (R120). -/
def gctrItems : List SeqItem :=
  [plain (.load .pt)] ++ cipherItems .cb
    ++ [plain (.move .ks), plain (.xor128 .x .ks), plain .store, plain .inc32]

/-- The body of the loops over the blocks to hash (R120). -/
def hashBlockItems (r : RegionName) : List SeqItem := plain (.load r) :: hashItems .x

/-- PHASE TAGENC (R119). -/
def tagItems : List SeqItem :=
  [plain .mkj0] ++ cipherItems .cb
    ++ [plain (.move .ks), plain (.xor128 .y .ks), plain (.move .tag), plain .inc32]

/-! ## Advancing the position -/

/-- Stand at the first micro-operation of a list, at phase `p` and block `blk`. Outside a loop over blocks `blk` is 0,
where R22 and R121 state no value, as it is throughout ENCRYPT_BLOCK; RND and BIT start at 0 (log 22, DESIGN
CHOICE). -/
def enter (p : Phase) (blk : Nat) (items : List SeqItem) (s : State) : State :=
  s.withSeq { pos := { op := s.seq.pos.op, phase := p, rnd := 0, blk := blk, bit := 0 }, todo := items }

/-- PHASE GHASH_LEN. -/
def enterHashLength (s : State) : State := enter .ghashLen 0 (plain .lenblk :: hashItems .lb) s

/-- PHASE GHASH_CT. With PT_BLOCKS = 0 it has no micro-operation, and the position goes from GHASH_AD on to GHASH_LEN
without standing at it; R121 says that the phases run once each, and no rule says whether PHASE takes a value for a
phase in which nothing is done (log 24, DESIGN CHOICE). -/
def enterHashCt (s : State) : State :=
  if 0 < s.ptBlocks then enter .ghashCt 0 (hashBlockItems .ct) s else enterHashLength s

/-- PHASE GHASH_AD: `Y <- 0^128`, then the first block if there is one. -/
def enterHashAd (s : State) : State :=
  enter .ghashAd 0 (plain .clearY :: (if 0 < s.adBlocks then hashBlockItems .ad else [])) s

/-- PHASE GCTR: MKJ0, INC32, then the first block if there is one. -/
def enterGctr (s : State) : State :=
  enter .gctr 0 (plain .mkj0 :: plain .inc32 :: (if 0 < s.ptBlocks then gctrItems else [])) s

/-- The position after the last micro-operation of the present one (R121): the next block of the phase's
loop, else the next phase. -/
def advance (s : State) : State :=
  let next := s.seq.pos.blk + 1
  match s.seq.pos.phase with
  | .idle => s
  | .kexp =>
    match s.seq.pos.op with
    | some .encryptBlock => enter .cipher 0 (cipherItems .din ++ [plain (.move .ks)]) s
    | _ => enter .hsub 0 (cipherItems .zero ++ [plain (.move .h)]) s
  | .cipher => enter .done 0 [plain .finish] s
  | .hsub => enterGctr s
  | .gctr => if next < s.ptBlocks then enter .gctr next gctrItems s else enterHashAd s
  | .ghashAd => if next < s.adBlocks then enter .ghashAd next (hashBlockItems .ad) s else enterHashCt s
  | .ghashCt => if next < s.ptBlocks then enter .ghashCt next (hashBlockItems .ct) s else enterHashLength s
  | .ghashLen => enter .tagenc 0 tagItems s
  | .tagenc => enter .done 0 [plain .finish] s
  | .done => s

/-- The position once a micro-operation is done and `rest` is left; a completed command has none. -/
def moveOn (rest : List SeqItem) (s : State) : State :=
  if s.seq.pos.op = none then s
  else match rest with
    | [] => advance s
    | it :: _ =>
      s.withSeq
        { pos := { op := s.seq.pos.op, phase := s.seq.pos.phase, rnd := it.rnd, blk := s.seq.pos.blk, bit := it.bit }
          todo := rest }

/-- One step of the core: the next micro-operation of the command in progress. "Between commands the core is
idle" (R147), and its step changes nothing. -/
def coreStep (s : State) : Result :=
  match s.seq.todo with
  | [] => .next s
  | it :: rest => andThen (it.act.run s) fun t => .next (moveOn rest t)

end Sys2Proof.Machine
end

