-- ==== Sys2Proof/Machine/HostPort.lean ====
section
/-! DEFINITION. The host's moves (10_state.md R12, R13; 20_memory.md R41, R42), reset (70_reset_and_hazards.md
R150, R151), and the host scripts (30_encoding.md R59, R60). -/

namespace Sys2Proof.Machine

/-! ## Register moves -/

/-- Write an operand register of `width` bits: "HostWrite(reg, v) writes the whole of a writable host register
with a value of the register's type" (R12); another value is refused (log 10). -/
def writeReg (width v : Nat) (set : HostRegs) (s : State) : Result :=
  if v < 2 ^ width then .next (s.withHost set) else .refused .rfAccess

/-- "A HostWrite(CMD, w) with STATUS.BUSY = 0 issues the command that the word w encodes" (R20): its issue
checks, then its issue; the core runs it in later steps. -/
def issueCommand (w : Word) (s : State) : Result :=
  match decodeCommand w with
  | .error _ => .refused .rfBadCmd
  | .ok .encryptBlock =>
    match encryptCheck s with
    | some r => .refused r
    | none => .next (issue .encryptBlock s)
  | .ok .sealMessage =>
    match sealCheck s with
    | some r => .refused r
    | none => .next (issue .sealMessage s)
  | .ok _ => execNop s

/-- HostWrite(reg, v) (R12, R13). While BUSY it is refused (R42); DOUT, TAG and STATUS are read-only and
registers above 11 do not exist (U23). -/
def hostWrite (reg v : Nat) (s : State) : Result :=
  if s.busy then .refused .rfBusy
  else match reg with
    | 0 => writeReg 128 v (s.host.setKEY (.holding (BitVec.ofNat 128 v))) s
    | 1 => writeReg 96 v (s.host.setIV (.holding (BitVec.ofNat 96 v))) s
    | 2 => writeReg 128 v (s.host.setDIN (.holding (BitVec.ofNat 128 v))) s
    | 5 => writeReg s.plat.AW v (s.host.setPT_ADDR (.holding v)) s
    | 6 => writeReg s.plat.AW v (s.host.setCT_ADDR (.holding v)) s
    | 7 => writeReg s.plat.AW v (s.host.setAD_ADDR (.holding v)) s
    | 8 => writeReg s.plat.CW v (s.host.setPT_BLOCKS (.holding v)) s
    | 9 => writeReg s.plat.CW v (s.host.setAD_BLOCKS (.holding v)) s
    | 10 => if v < 2 ^ 32 then issueCommand (BitVec.ofNat 32 v) s else .refused .rfAccess
    | _ => .refused .rfAccess

/-- What a result register holds for the host: nothing until a poll of STATUS has shown the results (R156). -/
def State.shown {α : Type} (s : State) (r : Reg α) : Option α := if s.unseen.results then none else r.value

/-- The value of a readable register, as a number; the outer `none` says that the register is not readable:
CMD is write-only and registers above 11 do not exist (R13). -/
def regValue (reg : Nat) (s : State) : Option (Option Nat) :=
  match reg with
  | 0 => some (s.host.KEY.value.map BitVec.toNat)
  | 1 => some (s.host.IV.value.map BitVec.toNat)
  | 2 => some (s.host.DIN.value.map BitVec.toNat)
  | 3 => some ((s.shown s.host.DOUT).map BitVec.toNat)
  | 4 => some ((s.shown s.host.TAG).map BitVec.toNat)
  | 5 => some s.host.PT_ADDR.value
  | 6 => some s.host.CT_ADDR.value
  | 7 => some s.host.AD_ADDR.value
  | 8 => some s.host.PT_BLOCKS.value
  | 9 => some s.host.AD_BLOCKS.value
  | 11 => some (some s.readStatus.toNat)
  | _ => none

/-- What a host read returned is kept for the host. -/
def State.reply (s : State) (r : Reply) : State := s.withReplies (r :: s.replies)

/-- A HostRead(STATUS) that returns DONE = 1 shows the host the results (R41, R156). -/
def State.afterRead (reg : Nat) (s : State) : State :=
  if reg = 11 ∧ s.isDone = true then s.withUnseen .nothing else s

/-- HostRead(reg) (R12). While BUSY only STATUS may be read (R42). -/
def hostRead (reg : Nat) (s : State) : Result :=
  if s.busy && reg != 11 then .refused .rfBusy
  else match regValue reg s with
    | none => .refused .rfAccess
    | some v => reading v fun n => .next ((s.afterRead reg).reply (.reg reg n))

/-! ## Memory moves -/

/-- Go on with a host access to `n` bytes from `addr` on: while BUSY none may lie in a region of the command in
progress (R42; log 9, log 12), and all must exist, or the access is refused for the reason `missing` (log 11). -/
def hostAccess (addr n : Nat) (missing : Refusal) (s : State) (f : Result) : Result :=
  let r : Range := { base := addr, size := n }
  if s.busy && s.inRunningRegion r then .refused .rfBusy
  else if !r.inMemory s.plat then .refused missing
  else f

/-- HostMemWrite(addr, bytes) (R12). A byte of a ciphertext region that no poll has shown holds the host's value from then
on (R11; log 23). -/
def hostMemWrite (addr : Nat) (bytes : List Byte) (s : State) : Result :=
  hostAccess addr bytes.length .noSuchAddress s
    (.next ((s.withMem (s.MEM.writeBytes addr bytes)).withUnseen (s.unseen.minus { base := addr, size := bytes.length })))

/-- What `n` bytes from `addr` on hold for the host, if each holds a value: none of a ciphertext region does until a poll
of STATUS has shown it (R156). -/
def State.shownBytes (addr n : Nat) (s : State) : Option (List Byte) :=
  if s.unseen.meets { base := addr, size := n } then none else s.MEM.readBytes addr n

/-- HostMemRead(addr, n) (R12): RF_NOVALUE if a byte holds no value (R11, R137), as one that does not exist does. -/
def hostMemRead (addr n : Nat) (s : State) : Result :=
  hostAccess addr n .rfNoValue s (reading (s.shownBytes addr n) fun bs => .next (s.reply (.mem addr bs)))

/-- A move of the host. -/
def hostMove (m : HostMove) (s : State) : Result :=
  match m with
  | .write reg v => hostWrite reg v s
  | .read reg => hostRead reg s
  | .memWrite addr bytes => hostMemWrite addr bytes s
  | .memRead addr n => hostMemRead addr n s

/-! ## Reset -/

/-- MEM after reset: "memory is not touched, except that the ciphertext region of a command abandoned by reset
holds no value" (D13, R151; log 13). -/
def memAfterReset (s : State) : Memory :=
  match s.seq.pos.op with
  | some .sealMessage => s.MEM.erase (RegionName.ct.range s).base (RegionName.ct.range s).size
  | _ => s.MEM

/-- Reset: the core's state as after power-on (R28, R150); the platform, the turns to come and what the host
has read are not the core's (log 13), and a ciphertext region that no poll has shown is not shown by a reset (R156;
log 23). -/
def resetCore (s : State) : State :=
  { plat := s.plat
    host := State.reset.host
    STATUS := State.reset.STATUS
    seq := State.reset.seq
    dp := State.reset.dp
    MEM := memAfterReset s
    unseen := { results := false, bytes := s.unseen.bytes }
    out := State.reset.out
    agenda := s.agenda
    replies := s.replies
    drawn := s.drawn }

/-! ## Host scripts -/

/-- The script line `CMD <mnemonic>`: a HostWrite of the command's word to CMD (R59). -/
def cmdLine (w : Nat) : Turn := .host (.write 10 w)

/-- The expansion of the pseudo-instruction `encrypt_block(out, in, key)` (R60). -/
def encryptScript (key input : Block) : List Turn :=
  [.host (.write 0 key.toNat), .host (.write 2 input.toNat), cmdLine 1, .wait, .host (.read 3)]

/-- The expansion of the pseudo-instruction `seal(ct, tag, key, iv, pt, len_p, ad, len_ad)` with the buffers at
Ap, Ac and Aa (R60); `pt` and `ad` are the bytes of the buffers. -/
def sealScript (Ap Ac Aa : Nat) (key : Block) (iv : Nonce) (pt : List Byte) (lenP : Nat) (ad : List Byte)
    (lenAd : Nat) : List Turn :=
  [.host (.write 0 key.toNat), .host (.write 1 iv.toNat)]
    ++ (if lenP = 0 then [] else [.host (.memWrite Ap pt)])
    ++ (if lenAd = 0 then [] else [.host (.memWrite Aa ad)])
    ++ [.host (.write 5 Ap), .host (.write 6 Ac), .host (.write 7 Aa), .host (.write 8 lenP),
        .host (.write 9 lenAd), cmdLine 2, .wait, .host (.memRead Ac (16 * lenP)), .host (.read 4)]

end Sys2Proof.Machine
end

