-- ==== Sys2Proof/Machine/Turns.lean ====
section
/-! DEFINITION. What each turn of the agenda does (log 4, log 5). -/

namespace Sys2Proof.Machine

/-- A write to CMD whose command runs whole in this step (R10, R20, D34). A CMD write while BUSY is refused
whatever its word (R20). -/
def runCommand (w : Word) (s : State) : Result :=
  if s.busy then .refused .rfBusy
  else match decodeCommand w with
    | .error _ => .refused .rfBadCmd
    | .ok i => exec i s

/-- An operation presented by its code and operand bytes (R58). The core is one sequencer, so none is taken
while a command is in progress (R139; log 16). -/
def runUop (bytes : List Byte) (s : State) : Result :=
  if s.busy then .refused .rfBusy
  else match decodeUop bytes with
    | .error _ => .refused .badUop
    | .ok (i, _) => exec i s

/-- WAIT "repeats HostRead(STATUS) until it returns DONE = 1" (R59; log 15). `s` is the state with the WAIT
still the next turn, `rest` the turns after it. While the command runs, the core takes its steps. -/
def runWait (rest : List Turn) (s : State) : Result :=
  if s.isDone then hostRead 11 (s.withAgenda rest)
  else coreStep s

/-- What the turn `t` does in the state `s`, whose agenda is `t :: rest`. -/
def runTurn (t : Turn) (rest : List Turn) (s : State) : Result :=
  match t with
  | .host m => hostMove m (s.withAgenda rest)
  | .wait => runWait rest s
  | .core => coreStep (s.withAgenda rest)
  | .command w => runCommand w (s.withAgenda rest)
  | .uop bytes => runUop bytes (s.withAgenda rest)
  | .reset => .next (resetCore (s.withAgenda rest))

/-- The turn that presents an instruction's code. -/
def turnOf (c : Code) : Turn :=
  match c with
  | .command w => .command w
  | .uop bytes => .uop bytes

end Sys2Proof.Machine
end

