-- ==== Sys2Proof/Machine/Step.lean ====
section
/-! DEFINITION. One step of the machine. -/

namespace Sys2Proof.Machine

/-- One step: the next turn of the agenda; with no turn to come, the core's step, so that a command that has
been issued completes (R159). -/
def step (s : State) : Host.Outcome State Fault Refusal :=
  match s.agenda with
  | [] => coreStep s
  | t :: rest => runTurn t rest s

/-- The state whose very next step runs the instruction with the bits `w`: the machine fetches nothing (R22,
R43), so its code is presented as the next turn (log 6). -/
def State.withFetchWord (s : State) (nbits w : Nat) : State :=
  s.withAgenda (turnOf (tableCode nbits w) :: s.agenda)

end Sys2Proof.Machine
end

