-- ==== Sys2Proof/Safety.lean ====
section
/-! DEFINITION. What the claims speak of: the invariant of the machine, the registers an operation may write,
and runs of instructions and of the sequencer. -/

namespace Sys2Proof.Machine

/-! ## The invariant -/

/-- The host registers hold values of their types: an address below 2^AW, a block count below 2^CW (R13). -/
structure HostRegs.InRange (h : HostRegs) (p : Platform) : Prop where
  ptAddr : ∀ v, h.PT_ADDR.value = some v → v < 2 ^ p.AW
  ctAddr : ∀ v, h.CT_ADDR.value = some v → v < 2 ^ p.AW
  adAddr : ∀ v, h.AD_ADDR.value = some v → v < 2 ^ p.AW
  ptBlocks : ∀ v, h.PT_BLOCKS.value = some v → v < 2 ^ p.CW
  adBlocks : ∀ v, h.AD_BLOCKS.value = some v → v < 2 ^ p.CW

/-- The phases R22 gives each command, and IDLE with none in progress. -/
def phasesOf (op : Option Command) : List Phase :=
  match op with
  | none => [.idle]
  | some .encryptBlock => [.kexp, .cipher, .done]
  | some .sealMessage => [.kexp, .hsub, .gctr, .ghashAd, .ghashCt, .ghashLen, .tagenc, .done]

/-- The sequencer position is one R22 allows: it is idle with no command in progress and has something left to do
with one; PHASE is one of the command's; RND is 0 to 10, BIT 0 to 127 and BLK 0 to 2^CW - 1. -/
structure Sequencer.Sound (q : Sequencer) (p : Platform) : Prop where
  idle : q.pos.op = none → q = .idle
  running : q.pos.op ≠ none → q.todo ≠ []
  phase : q.pos.phase ∈ phasesOf q.pos.op
  rnd : q.pos.rnd ≤ 10
  bit : q.pos.bit ≤ 127
  blk : q.pos.blk < 2 ^ p.CW
  todo : ∀ it ∈ q.todo, it.rnd ≤ 10 ∧ it.bit ≤ 127

/-- The region whose block BLK a micro-operation accesses. -/
def Micro.region (m : Micro) : Option RegionName :=
  match m with
  | .load r => some r
  | .store => some .ct
  | _ => none

/-- The block count of a region, if its register holds a value (R31). -/
def RegionName.count (r : RegionName) (s : State) : Option Nat :=
  match r with
  | .pt => s.host.PT_BLOCKS.value
  | .ct => s.host.PT_BLOCKS.value
  | .ad => s.host.AD_BLOCKS.value

/-- Address `x` lies in a region: base to base + 16*n - 1, for the block count n (R31). -/
def State.InRegion (s : State) (r : RegionName) (x : Nat) : Prop :=
  ∃ base n, r.base s = some base ∧ r.count s = some n ∧ base ≤ x ∧ x < base + 16 * n

/-- SEAL's counts hold values, and so do the bases of its regions that are not empty; the regions lie in the
buffer memory, and the ciphertext region shares no address with the others (R31, R37, R38). -/
structure State.RegionsSound (s : State) : Prop where
  counted : ∀ r : RegionName, r.count s ≠ none
  based : ∀ (r : RegionName) (n : Nat), r.count s = some n → 0 < n → r.base s ≠ none
  inside : ∀ (r : RegionName) (x : Nat), s.InRegion r x → x < 2 ^ s.plat.AW ∧ populated s.plat x = true
  apart : ∀ x, s.InRegion .ct x → ¬ s.InRegion .pt x ∧ ¬ s.InRegion .ad x

/-- The operand registers a command reads hold values: "a command that would read an operand holding no value is
refused at issue" (R11, R92, R122); of SEAL's address and count registers `RegionsSound` speaks. -/
def State.OperandsHeld (s : State) (op : Option Command) : Prop :=
  match op with
  | none => True
  | some .encryptBlock => s.host.KEY.held = true ∧ s.host.DIN.held = true
  | some .sealMessage => s.host.KEY.held = true ∧ s.host.IV.held = true

/-- The invariant of the machine: CW is as R6 requires; memory is canonical and lists existing addresses only
(R30, R37); STATUS has its reserved bits 0 and never both flags (R21); BUSY is 1 exactly while a command is in
progress (R21); registers and the sequencer position are in range (R13, R22); the operands of a command in progress hold
values (R11); a SEAL in progress has sound
regions, and memory is accessed only by a SEAL and only in blocks of its regions (R30, R31). -/
structure State.Inv (s : State) : Prop where
  plat : s.plat.ok
  mem : s.MEM.wf
  addresses : ∀ c ∈ s.MEM, c.1 < 2 ^ s.plat.AW ∧ populated s.plat c.1 = true
  reserved : s.STATUS.extractLsb' 2 30 = 0
  oneFlag : ¬ (s.busy = true ∧ s.isDone = true)
  busy : s.busy = true ↔ s.seq.pos.op ≠ none
  host : s.host.InRange s.plat
  seq : s.seq.Sound s.plat
  operands : s.OperandsHeld s.seq.pos.op
  regions : s.seq.pos.op = some .sealMessage → s.RegionsSound
  blocks : ∀ it ∈ s.seq.todo, ∀ r, it.act.region = some r →
    s.seq.pos.op = some .sealMessage ∧ ∃ n, r.count s = some n ∧ s.seq.pos.blk < n

/-- R24's invariant of a SEAL in progress: once its counter block is built (no MKJ0 left in PHASE GCTR, or a
later phase, DONE included), CB holds a value whose bytes 0 to 11 are IV. -/
def State.CounterFromNonce (s : State) : Prop :=
  s.seq.pos.op = some .sealMessage →
  (s.seq.pos.phase = .gctr ∧ plain .mkj0 ∉ s.seq.todo) ∨ s.seq.pos.phase = .ghashAd ∨ s.seq.pos.phase = .ghashCt
    ∨ s.seq.pos.phase = .ghashLen ∨ s.seq.pos.phase = .tagenc ∨ s.seq.pos.phase = .done →
  s.dp.CB.held = true ∧ counterNonce s.dp.CB.val = s.host.IV.val

/-! ## Registers without a value -/

/-- The register, marked as holding what its storage holds. -/
def Reg.marked {α : Type} (r : Reg α) : Reg α := .holding r.val

/-- The state with KEY, IV, TAG and every datapath register marked as holding what its storage holds: the registers that
an operation presented on its own reads or writes. -/
def State.marked (s : State) : State :=
  { s with
    host := { s.host with KEY := s.host.KEY.marked, IV := s.host.IV.marked, TAG := s.host.TAG.marked }
    dp :=
      { S := s.dp.S.marked, RK := s.dp.RK.marked, H := s.dp.H.marked, CB := s.dp.CB.marked, KS := s.dp.KS.marked
        X := s.dp.X.marked, Y := s.dp.Y.marked, Z := s.dp.Z.marked, V := s.dp.V.marked, LB := s.dp.LB.marked } }

/-! ## Frames -/

/-- Every byte of memory reads as before. -/
def SameMemory (s t : State) : Prop := ∀ a, t.MEM.read a = s.MEM.read a

/-- Nothing the host can reach or the sequencer holds is changed: the platform, the host registers, STATUS, the
sequencer, every byte of memory, the turns to come, the replies, what the host has not been shown and the
number of free values drawn. Datapath and port may change. -/
structure SameButScratch (s t : State) : Prop where
  plat : t.plat = s.plat
  host : t.host = s.host
  status : t.STATUS = s.STATUS
  seq : t.seq = s.seq
  mem : SameMemory s t
  agenda : t.agenda = s.agenda
  replies : t.replies = s.replies
  unseen : t.unseen = s.unseen
  drawn : t.drawn = s.drawn

/-- The registers "never written by the core" (R26). -/
structure SameOperands (h k : HostRegs) : Prop where
  key : k.KEY = h.KEY
  iv : k.IV = h.IV
  din : k.DIN = h.DIN
  ptAddr : k.PT_ADDR = h.PT_ADDR
  ctAddr : k.CT_ADDR = h.CT_ADDR
  adAddr : k.AD_ADDR = h.AD_ADDR
  ptBlocks : k.PT_BLOCKS = h.PT_BLOCKS
  adBlocks : k.AD_BLOCKS = h.AD_BLOCKS

/-- The datapath `old` with the registers that the operation writes taken from `new` (the "written by" column of
R23, with S as CIPHER's working register, R90, and Z and V as GFMUL's, R104). R23 has KS written by "CIPHER, through
STST"; here KS is written where the pseudocode puts CIPHER's block there, in GCTR and TAGENC, and not by CIPHER or
HSUB (log 19, DEDUCED). A command leaves none with a value (R25). -/
def scratchAfter (i : Instr) (old new : Datapath) : Datapath :=
  match i with
  | .ldst _ | .ark _ | .subb | .shrow | .mixc | .cipher _ => old.setS new.S
  | .kexp => old.setRK new.RK
  | .mkj0 | .inc32 => old.setCB new.CB
  | .gfstep _ | .gfmul _ _ => (old.setZ new.Z).setV new.V
  | .lenblk _ _ => old.setLB new.LB
  | .hsub => (old.setS new.S).setH new.H
  | .gctr _ | .tagenc => ((old.setS new.S).setCB new.CB).setKS new.KS
  | .ghash _ => ((old.setY new.Y).setZ new.Z).setV new.V
  | .nop | .stst | .rotw _ | .subw _ | .rcon _ | .xor128 _ _ | .sbox _ | .xtime _ | .mul3 _ => old
  | .encryptBlock | .sealMessage => new

/-- No datapath register holds a value (R25, R28). -/
def Datapath.holdsNothing (d : Datapath) : Bool :=
  !(d.S.held || d.RK.held || d.H.held || d.CB.held || d.KS.held || d.X.held || d.Y.held || d.Z.held || d.V.held
    || d.LB.held)

/-- No host register but STATUS holds a value (R28). -/
def HostRegs.holdsNothing (h : HostRegs) : Bool :=
  !(h.KEY.held || h.IV.held || h.DIN.held || h.DOUT.held || h.TAG.held || h.PT_ADDR.held || h.CT_ADDR.held
    || h.AD_ADDR.held || h.PT_BLOCKS.held || h.AD_BLOCKS.held)

/-! ## The host's accesses to memory -/

/-- The reasons for which the rules let an instruction be refused: the issue checks of R92, R122 and R123 for a
command, an operand out of range (log 18) for an operation. An operation with operands in range has none: it completes
(log 2). -/
def refusalsOf (i : Instr) : List Refusal :=
  match i with
  | .nop => [.rfBusy]
  | .encryptBlock => [.rfBusy, .rfNoValue]
  | .sealMessage => [.rfBusy, .rfNoValue, .rfRegion, .rfOverlap]
  | .ark _ | .rcon _ | .lenblk _ _ => if i.wellFormed then [] else [.badUop]
  | .subb | .shrow | .mixc | .stst | .kexp | .cipher _ | .mkj0 | .inc32 | .gfstep _ | .hsub | .gctr _ | .ghash _
  | .tagenc | .ldst _ | .rotw _ | .subw _ | .xor128 _ _ | .gfmul _ _ | .sbox _ | .xtime _ | .mul3 _ => []

/-- Every one of `n` addresses from `addr` on exists: it is below 2^AW and populated (R30, R37). -/
def State.AddressesExist (s : State) (addr n : Nat) : Prop :=
  ∀ k < n, addr + k < 2 ^ s.plat.AW ∧ populated s.plat (addr + k) = true

/-- Address `x` lies in a ciphertext region that no poll of STATUS has shown the host (R156). -/
def Unseen.Hides (u : Unseen) (x : Nat) : Prop := ∃ r ∈ u.bytes, r.has x

/-- The next turn is a HostRead(STATUS), by itself or as WAIT's last, that returns DONE = 1. -/
def State.NextPolls (s : State) : Prop := s.isDone = true ∧ s.agenda.head? ∈ [some .wait, some (.host (.read 11))]

/-- The next turn issues an ENCRYPT_BLOCK or a SEAL: by a CMD write, or whole (log 4). -/
def State.NextIssues (s : State) : Prop :=
  s.agenda.head? ∈ [some (.host (.write 10 1)), some (.host (.write 10 2)), some (.command 1), some (.command 2)]

/-- The next turn is a HostMemWrite of the byte at address `x`. -/
def State.NextHostWrites (s : State) (x : Nat) : Prop :=
  ∃ addr bytes, s.agenda.head? = some (.host (.memWrite addr bytes)) ∧ addr ≤ x ∧ x < addr + bytes.length

/-- The byte at `x` is one that a SEAL in progress, or one the next turn runs whole, may write (R31, R33). -/
def State.SealMayWrite (s : State) (x : Nat) : Prop :=
  s.InRegion .ct x ∧ (s.seq.pos.op = some .sealMessage ∨ s.agenda.head? = some (.command 2))

/-- One of `n` addresses from `addr` on lies in a region of the SEAL in progress (R42). -/
def State.TouchesRunningRegion (s : State) (addr n : Nat) : Prop :=
  s.seq.pos.op = some .sealMessage ∧ ∃ (r : RegionName) (k : Nat), k < n ∧ s.InRegion r (addr + k)

/-! ## SEAL's issue checks, as R122 words them -/

/-- A region that is not empty, with its base and block count. -/
def State.HasRegion (s : State) (r : RegionName) (base n : Nat) : Prop :=
  r.base s = some base ∧ r.count s = some n ∧ 0 < n

/-- Check `k` of R122, 1 to 6, fails. -/
def State.SealFails (s : State) (k : Nat) : Prop :=
  match k with
  | 1 => s.busy = true
  | 2 => s.host.KEY.held = false ∨ s.host.IV.held = false ∨ s.host.PT_BLOCKS.held = false ∨ s.host.AD_BLOCKS.held = false
  | 3 => (∃ n, s.host.PT_BLOCKS = .holding n ∧ 0 < n ∧ (s.host.PT_ADDR.held = false ∨ s.host.CT_ADDR.held = false))
      ∨ ∃ n, s.host.AD_BLOCKS = .holding n ∧ 0 < n ∧ s.host.AD_ADDR.held = false
  | 4 => ∃ r base n, s.HasRegion r base n
      ∧ (2 ^ s.plat.AW < base + 16 * n ∨ ∃ x, base ≤ x ∧ x < base + 16 * n ∧ populated s.plat x = false)
  | 5 => ∃ x, s.InRegion .ct x ∧ (s.InRegion .pt x ∨ s.InRegion .ad x)
  | 6 => ∃ x, (s.InRegion .pt x ∨ s.InRegion .ad x) ∧ s.MEM.read x = none
  | _ => False

/-- The reason of check `k` of R122. -/
def sealReason (k : Nat) : Refusal :=
  match k with
  | 1 => .rfBusy
  | 4 => .rfRegion
  | 5 => .rfOverlap
  | _ => .rfNoValue

/-- The blocks of a region, block 0 first, if every byte holds a value. -/
def Memory.readBlocks (m : Memory) (base : Nat) : Nat → Option (List Block)
  | 0 => some []
  | n + 1 =>
    match m.readBlock base, Memory.readBlocks m (base + 16) n with
    | some b, some bs => some (b :: bs)
    | _, _ => none

/-- What a SEAL that is accepted starts from: no check of R122 fails, and the operands are the key, the IV, the
counts, the bases and the blocks named. The counts are below 2^57, as CW <= 57 makes them (R6). -/
structure SealOperands (s : State) (key : Block) (iv : Nonce) (Ap Ac Aa : Nat) (pts ads : List Block) : Prop where
  passes : ∀ k, ¬ s.SealFails k
  key : s.host.KEY = .holding key
  iv : s.host.IV = .holding iv
  ptBlocks : s.host.PT_BLOCKS = .holding pts.length
  adBlocks : s.host.AD_BLOCKS = .holding ads.length
  ptAddr : 0 < pts.length → s.host.PT_ADDR = .holding Ap
  ctAddr : 0 < pts.length → s.host.CT_ADDR = .holding Ac
  adAddr : 0 < ads.length → s.host.AD_ADDR = .holding Aa
  plaintext : s.MEM.readBlocks Ap pts.length = some pts
  associated : s.MEM.readBlocks Aa ads.length = some ads
  small : pts.length < 2 ^ 57 ∧ ads.length < 2 ^ 57

/-! ## Functions the statements name -/

/-- Word `n` of the round-key schedule, 0 to 43: bytes 4n to 4n+3 (R50). -/
def scheduleWord (rk : Schedule) (n : Nat) : Word :=
  wordOf (scheduleByte rk (4 * n)) (scheduleByte rk (4 * n + 1)) (scheduleByte rk (4 * n + 2))
    (scheduleByte rk (4 * n + 3))

/-- Multiplication in GF(2^8) with the reduction of R66, by repeated XTIME. -/
def byteMul (a b : Byte) : Byte :=
  (List.range 8).foldl (fun acc i => if b.getLsbD i then acc ^^^ (xtimeByte^[i] a) else acc) 0

/-- Byte `i` of an initialisation vector, 0 to 11 (R15). -/
def nonceByte (iv : Nonce) (i : Nat) : Byte := iv.extractLsb' (8 * (11 - i)) 8

/-- The counter block `n` steps after J0 of an initialisation vector: its counter field is (1 + n) mod 2^32
(R51, R101). -/
def counterBlock (iv : Nonce) (n : Nat) : Block := iv ++ BitVec.ofNat 32 (1 + n)

/-- The ciphertext of SEAL: block i is XORed with CIPHER of the counter block with field (2 + i) mod 2^32 (R116,
R120, R128). -/
def sealCiphertext (rk : Schedule) (iv : Nonce) (pts : List Block) : List Block :=
  pts.mapIdx fun i b => b ^^^ cipherBlock rk (counterBlock iv (i + 1))

/-- The tag of SEAL: GHASH of the associated data, the ciphertext and the length block, XORed with CIPHER(J0)
(R117 to R119). -/
def sealTag (rk : Schedule) (iv : Nonce) (ads cts : List Block) : Block :=
  ghashFrom (cipherBlock rk 0) 0 (ads ++ cts ++ [lengthBlock ads.length cts.length])
    ^^^ cipherBlock rk (counterBlock iv 0)

/-- The width in bits of a host register that the host may write and read (R13). -/
def operandWidth (p : Platform) (reg : Nat) : Option Nat :=
  match reg with
  | 0 | 2 => some 128
  | 1 => some 96
  | 5 | 6 | 7 => some p.AW
  | 8 | 9 => some p.CW
  | _ => none

/-- An instruction that is a host command (R46). -/
def isCommand (i : Instr) : Prop := i = .nop ∨ i = .encryptBlock ∨ i = .sealMessage

/-! ## Runs -/

/-- `n` steps of the machine. -/
def runSteps (n : Nat) (s : State) : Result := Host.Core.run Sys2Proof.core n s

/-- The instructions of a list, one after another. -/
def execAll (is : List Instr) (s : State) : Result :=
  match is with
  | [] => .next s
  | i :: rest => andThen (exec i s) fun s => execAll rest s

/-- The sequence of R90 for a block, as instructions. -/
def cipherProgram (b : Block) : List Instr :=
  [.ldst b, .ark 0] ++ (List.range' 1 9).flatMap (fun r => [.subb, .shrow, .mixc, .ark r])
    ++ [.subb, .shrow, .ark 10, .stst]

/-- How many core steps a SEAL of `p` plaintext and `a` associated-data blocks takes after its issue, one a
micro-operation, block access, register move or completion. -/
def sealSteps (p a : Nat) : Nat := 228 + 180 * p + 133 * a

/-- How many core steps an ENCRYPT_BLOCK takes after its issue: KEXP, the 42 of CIPHER, `KS <- …`, completion. -/
def encryptSteps : Nat := 45

end Sys2Proof.Machine
end

