-- ==== Sys2Proof/Certificates/Slice0/Obligations.lean ====
section
/-! DEFINITION. The statements for the provers, in the order of OBLIGATIONS.json. A next state is written as the
state before with the fields that change, so that a statement of a result states its frame as well. -/

section Statements

open Sys2Proof Sys2Proof.Machine

/-! ## Reset and the invariant -/

/-- R28: STATUS 0, the sequencer position (none, IDLE, 0, 0, 0), no host register but STATUS, no datapath register and
no byte of memory with a value. -/
def Obligations.ResetState : Prop :=
  State.reset.STATUS = 0
  ∧ State.reset.seq.pos = { op := none, phase := .idle, rnd := 0, blk := 0, bit := 0 }
  ∧ State.reset.host.holdsNothing = true
  ∧ State.reset.dp.holdsNothing = true
  ∧ ∀ a, State.reset.MEM.read a = none

/-- The machine's invariant holds after reset. -/
def Obligations.ResetMeetsInvariant : Prop := State.reset.Inv

/-- The machine's invariant is kept by every step: memory canonical and at existing addresses only, STATUS with
its reserved bits 0 and never both flags, BUSY exactly while a command is in progress, registers and the sequencer
position in range, a running SEAL's regions sound. -/
def Obligations.StepKeepsInvariant : Prop := ∀ s t : State, s.Inv → step s = .next t → t.Inv

/-- Reset during a run (R150, R151): the registers as after power-on, and the ciphertext region of an abandoned
SEAL without values. That every other byte keeps its content, and that the platform, the turns to come, the replies
and the count of free values stay, is the model's choice (log 13), and so is that a ciphertext region which no poll has
shown is not shown by the reset (log 23). -/
def Obligations.ResetAbandonsCommand : Prop :=
  ∀ (s : State) (rest : List Turn), s.Inv → s.agenda = .reset :: rest →
    ∃ m : Memory,
      step s = .next
        { State.reset with
          plat := s.plat
          MEM := m
          unseen := { results := false, bytes := s.unseen.bytes }
          agenda := rest
          replies := s.replies
          drawn := s.drawn }
      ∧ (∀ x, s.seq.pos.op = some .sealMessage → s.InRegion .ct x → m.read x = none)
      ∧ ∀ x, ¬ (s.seq.pos.op = some .sealMessage ∧ s.InRegion .ct x) → m.read x = s.MEM.read x

/-! ## Codes -/

/-- Decoding the code of a well-formed instruction gives the instruction back, and leaves what follows an
operation's bytes. -/
def Obligations.DecodeOfEncode : Prop :=
  ∀ i : Instr, i.wellFormed = true →
    decode (encode i) = .ok i
    ∧ ∀ bytes rest, encode i = .uop bytes → decodeUop (bytes ++ rest) = .ok (i, rest)

/-- Whatever decodes is well-formed and is the code the encoder writes: no two codes stand for one instruction. -/
def Obligations.EncodeOfDecode : Prop :=
  (∀ w i, decodeCommand w = .ok i → i.wellFormed = true ∧ encode i = .command w)
  ∧ ∀ bytes i rest, decodeUop bytes = .ok (i, rest) →
      i.wellFormed = true ∧ ∃ own, encode i = .uop own ∧ bytes = own ++ rest

/-- The words of opcode_table.json, all 27, decode to their rows' instructions (R46, R58). That operand bytes follow
the code, and how they write operands (0 in the 27 words), is the model's choice (log 7); so are the two codes with
operand bytes, after which a byte may follow. -/
def Obligations.TableWordsDecode : Prop :=
  decodeTableWord 32 0x00000000 = some .nop
  ∧ decodeTableWord 32 0x00000001 = some .encryptBlock
  ∧ decodeTableWord 32 0x00000002 = some .sealMessage
  ∧ decodeTableWord 8 0x01 = some (.ldst 0)
  ∧ decodeTableWord 8 0x02 = some (.ark 0)
  ∧ decodeTableWord 8 0x03 = some .subb
  ∧ decodeTableWord 8 0x04 = some .shrow
  ∧ decodeTableWord 8 0x05 = some .mixc
  ∧ decodeTableWord 8 0x06 = some .stst
  ∧ decodeTableWord 8 0x08 = some (.rotw 0)
  ∧ decodeTableWord 8 0x09 = some (.subw 0)
  ∧ decodeTableWord 8 0x0a = some (.rcon 1)
  ∧ decodeTableWord 8 0x0b = some .kexp
  ∧ decodeTableWord 8 0x0c = some (.cipher 0)
  ∧ decodeTableWord 8 0x10 = some .mkj0
  ∧ decodeTableWord 8 0x11 = some .inc32
  ∧ decodeTableWord 8 0x12 = some (.xor128 0 0)
  ∧ decodeTableWord 8 0x13 = some (.gfstep false)
  ∧ decodeTableWord 8 0x14 = some (.gfmul 0 0)
  ∧ decodeTableWord 8 0x15 = some (.lenblk 0 0)
  ∧ decodeTableWord 8 0x16 = some .hsub
  ∧ decodeTableWord 8 0x17 = some (.gctr [])
  ∧ decodeTableWord 8 0x18 = some (.ghash [])
  ∧ decodeTableWord 8 0x19 = some .tagenc
  ∧ decodeTableWord 8 0x20 = some (.sbox 0)
  ∧ decodeTableWord 8 0x21 = some (.xtime 0)
  ∧ decodeTableWord 8 0x22 = some (.mul3 0)
  ∧ decodeUop [0x02, 0x0a, 0x55] = .ok (.ark 10, [0x55])
  ∧ decodeUop [0x08, 0x09, 0xcf, 0x4f, 0x3c] = .ok (.rotw 0x09cf4f3c, [])

/-- R46: the words of NOP, ENCRYPT_BLOCK and SEAL are 0, 1 and 2, and OPC = 3 is reserved. -/
def Obligations.CommandWords : Prop :=
  ∀ w : Word,
    (decodeCommand w = .ok .nop ↔ w = 0x00000000)
    ∧ (decodeCommand w = .ok .encryptBlock ↔ w = 0x00000001)
    ∧ (decodeCommand w = .ok .sealMessage ↔ w = 0x00000002)
    ∧ (opcField w = 3 → ∀ i, decodeCommand w ≠ .ok i)

/-- R47: a command word with OPC = 3 or a bit of ZERO set is refused, RF_BADCMD. -/
def Obligations.ReservedWordsRefused : Prop :=
  ∀ (s : State) (w : Word), s.busy = false → opcField w = 3 ∨ zeroField w ≠ 0 →
    hostWrite 10 w.toNat s = .refused .rfBadCmd ∧ runCommand w s = .refused .rfBadCmd

/-- An operation code that R58 leaves unassigned, or an operand outside its rule's range (R69, R82, R110), is
refused: the model's reason for it (log 18). -/
def Obligations.UnassignedCodesRefused : Prop :=
  (∀ (s : State) (c : Byte) (bytes : List Byte) (rest : List Turn),
    s.agenda = .uop (c :: bytes) :: rest → s.busy = false →
    c.toNat ∉ [0x01, 0x02, 0x03, 0x04, 0x05, 0x06, 0x08, 0x09, 0x0a, 0x0b, 0x0c, 0x10, 0x11, 0x12, 0x13, 0x14, 0x15,
      0x16, 0x17, 0x18, 0x19, 0x20, 0x21, 0x22] → step s = .refused .badUop)
  ∧ (∀ (s : State) (r : Nat), 10 < r → exec (.ark r) s = .refused .badUop)
  ∧ (∀ (s : State) (k : Nat), k = 0 ∨ 10 < k → exec (.rcon k) s = .refused .badUop)
  ∧ ∀ (s : State) (a p : Nat), 2 ^ 57 ≤ a ∨ 2 ^ 57 ≤ p → exec (.lenblk a p) s = .refused .badUop

/-- A step whose turn presents a code runs exec of the instruction the code decodes to, once the turn is taken off
the agenda; nothing else is around exec. A step whose turn is the host's is the host's move, and one whose turn is
the core's, or that has no turn to come, is the core's step (log 4, log 5, log 6). -/
def Obligations.StepRunsDecoded : Prop :=
  (∀ (s : State) (m : HostMove) (rest : List Turn), s.agenda = .host m :: rest →
    step s = hostMove m { s with agenda := rest })
  ∧ (∀ (s : State) (rest : List Turn), s.agenda = .core :: rest → step s = coreStep { s with agenda := rest })
  ∧ (∀ s : State, s.agenda = [] → step s = coreStep s)
  ∧ ∀ (s : State) (i : Instr), s.busy = false →
    (∀ w rest, s.agenda = .command w :: rest → decodeCommand w = .ok i → step s = exec i { s with agenda := rest })
    ∧ (∀ bytes more rest, s.agenda = .uop bytes :: rest → decodeUop bytes = .ok (i, more) →
        step s = exec i { s with agenda := rest })
    ∧ (∀ rest, i.wellFormed = true → s.agenda = turnOf (encode i) :: rest →
        step s = exec i { s with agenda := rest })
    ∧ ∀ nbits w, decodeTableWord nbits w = some i → step (s.withFetchWord nbits w) = exec i s

/-! ## Byte functions -/

/-- R65: SBOX is the table, which is the inverse in GF(2^8) followed by the affine step; it is a bijection without
fixed points and without a = ~SBOX(a); it delivers its byte and changes nothing else. -/
def Obligations.SboxResult : Prop :=
  (∀ (a : Byte) (s : State), exec (.sbox a) s = .next { s with out := some (.byte (sboxByte a)) })
  ∧ (∀ hi lo : BitVec 4, sboxByte (hi ++ lo) = byteAt (sboxRows.getD hi.toNat 0) lo.toNat)
  ∧ sboxRows =
      [0x637c777bf26b6fc53001672bfed7ab76, 0xca82c97dfa5947f0add4a2af9ca472c0,
       0xb7fd9326363ff7cc34a5e5f171d83115, 0x04c723c31896059a071280e2eb27b275,
       0x09832c1a1b6e5aa0523bd6b329e32f84, 0x53d100ed20fcb15b6acbbe394a4c58cf,
       0xd0efaafb434d338545f9027f503c9fa8, 0x51a3408f929d38f5bcb6da2110fff3d2,
       0xcd0c13ec5f974417c4a77e3d645d1973, 0x60814fdc222a908846eeb814de5e0bdb,
       0xe0323a0a4906245cc2d3ac629195e479, 0xe7c8376d8dd54ea96c56f4ea657aae08,
       0xba78252e1ca6b4c6e8dd741f4bbd8b8a, 0x703eb5664803f60e613557b986c11d9e,
       0xe1f8981169d98e949b1e87e9ce5528df, 0x8ca1890dbfe6426841992d0fb054bb16]
  ∧ (∀ a : Byte, ∃ b : Byte, (a = 0 ∧ b = 0 ∨ byteMul a b = 1)
      ∧ sboxByte a = b ^^^ b.rotateLeft 1 ^^^ b.rotateLeft 2 ^^^ b.rotateLeft 3 ^^^ b.rotateLeft 4 ^^^ 0x63)
  ∧ Function.Bijective sboxByte
  ∧ ∀ a : Byte, sboxByte a ≠ a ∧ sboxByte a ≠ a ^^^ 0xff

/-- R66, R67: XTIME doubles and reduces by 0x1b when bit 7 was set, and is a bijection; MUL3 is XTIME XOR the byte;
each delivers its byte and changes nothing else. -/
def Obligations.XtimeMul3Results : Prop :=
  (∀ b : Byte, (xtimeByte b).toNat = if b.toNat < 128 then 2 * b.toNat else (2 * b.toNat - 256) ^^^ 0x1b)
  ∧ Function.Bijective xtimeByte
  ∧ ∀ (b : Byte) (s : State),
      exec (.xtime b) s = .next { s with out := some (.byte (xtimeByte b)) }
      ∧ exec (.mul3 b) s = .next { s with out := some (.byte (xtimeByte b ^^^ b)) }

/-! ## State load and store, round operations -/

/-- R68, R73: LDST puts byte i at S[i mod 4][i div 4] and changes S only; STST delivers the block so read and leaves
S; STST after LDST gives the block back. -/
def Obligations.StateLoadAndStore : Prop :=
  (∀ (s : State) (b : Block), ∃ m : Matrix,
    exec (.ldst b) s = .next { s with dp := { s.dp with S := .holding m } }
    ∧ ∀ i < 16, matrixAt m (i % 4) (i / 4) = byteAt b i)
  ∧ (∀ (s : State) (m : Matrix), s.dp.S = .holding m → ∃ o : Block,
    exec .stst s = .next { s with out := some (.block o) }
    ∧ ∀ i < 16, byteAt o i = matrixAt m (i % 4) (i / 4))
  ∧ ∀ (s : State) (b : Block), ∃ t, execAll [.ldst b, .stst] s = .next t ∧ t.out = some (.block b)

/-- R69: ARK XORs RK[16r + j] into S[j mod 4][j div 4] for j from 0 to 15 and changes S only; twice it restores S,
and with a zero round key S is unchanged. -/
def Obligations.AddRoundKeyResult : Prop :=
  ∀ (s : State) (m : Matrix) (rk : Schedule) (r : Nat), r ≤ 10 → s.dp.S = .holding m → s.dp.RK = .holding rk →
    (∃ m' : Matrix, exec (.ark r) s = .next { s with dp := { s.dp with S := .holding m' } }
      ∧ ∀ j < 16, matrixAt m' (j % 4) (j / 4) = matrixAt m (j % 4) (j / 4) ^^^ scheduleByte rk (16 * r + j))
    ∧ execAll [.ark r, .ark r] s = .next s
    ∧ ((∀ j < 16, scheduleByte rk (16 * r + j) = 0) → exec (.ark r) s = .next s)

/-- R70: SUBB substitutes every byte of S and changes S only; an all-zero State becomes sixteen bytes 0x63. -/
def Obligations.SubBytesResult : Prop :=
  ∀ (s : State) (m : Matrix), s.dp.S = .holding m → ∃ m' : Matrix,
    exec .subb s = .next { s with dp := { s.dp with S := .holding m' } }
    ∧ (∀ r < 4, ∀ c < 4, matrixAt m' r c = sboxByte (matrixAt m r c))
    ∧ ((∀ r < 4, ∀ c < 4, matrixAt m r c = 0) → ∀ r < 4, ∀ c < 4, matrixAt m' r c = 0x63)

/-- R71: SHROW rotates row r left by r and changes S only; row 0 is fixed; four times it is the identity; a State
with four equal columns is fixed; block byte 4c+r becomes old block byte 4((c+r) mod 4)+r. -/
def Obligations.ShiftRowsResult : Prop :=
  ∀ (s : State) (m : Matrix), s.dp.S = .holding m →
    (∃ m' : Matrix, exec .shrow s = .next { s with dp := { s.dp with S := .holding m' } }
      ∧ (∀ r < 4, ∀ c < 4, matrixAt m' r c = matrixAt m r ((c + r) % 4))
      ∧ ∀ r < 4, ∀ c < 4, byteAt (storeState m') (4 * c + r) = byteAt (storeState m) (4 * ((c + r) % 4) + r))
    ∧ execAll [.shrow, .shrow, .shrow, .shrow] s = .next s
    ∧ ((∀ r < 4, ∀ c < 4, matrixAt m r c = matrixAt m r 0) → exec .shrow s = .next s)

/-- R72: MIXC multiplies each column by the matrix [[2,3,1,1],[1,2,3,1],[1,1,2,3],[3,1,1,2]] over GF(2^8) and
changes S only; a column of four equal bytes is fixed. -/
def Obligations.MixColumnsResult : Prop :=
  ∀ (s : State) (m : Matrix), s.dp.S = .holding m → ∃ m' : Matrix,
    exec .mixc s = .next { s with dp := { s.dp with S := .holding m' } }
    ∧ ∀ c < 4,
      matrixAt m' 0 c = byteMul (matrixAt m 0 c) 2 ^^^ byteMul (matrixAt m 1 c) 3 ^^^ matrixAt m 2 c ^^^ matrixAt m 3 c
      ∧ matrixAt m' 1 c
        = matrixAt m 0 c ^^^ byteMul (matrixAt m 1 c) 2 ^^^ byteMul (matrixAt m 2 c) 3 ^^^ matrixAt m 3 c
      ∧ matrixAt m' 2 c
        = matrixAt m 0 c ^^^ matrixAt m 1 c ^^^ byteMul (matrixAt m 2 c) 2 ^^^ byteMul (matrixAt m 3 c) 3
      ∧ matrixAt m' 3 c
        = byteMul (matrixAt m 0 c) 3 ^^^ matrixAt m 1 c ^^^ matrixAt m 2 c ^^^ byteMul (matrixAt m 3 c) 2
      ∧ ((∀ r < 4, matrixAt m r c = matrixAt m 0 c) → ∀ r < 4, matrixAt m' r c = matrixAt m r c)

/-! ## Key schedule -/

/-- R80, R81, R82: ROTW moves byte i+1 to i, SUBW substitutes every byte, RCON is the table that starts at 0x01 and
goes on by XTIME; each delivers its result and changes nothing else. -/
def Obligations.WordOperationResults : Prop :=
  (∀ (s : State) (t : Word), ∃ u : Word,
    exec (.rotw t) s = .next { s with out := some (.word u) } ∧ ∀ i < 4, wordByte u i = wordByte t ((i + 1) % 4))
  ∧ (∀ (s : State) (t : Word), ∃ u : Word,
    exec (.subw t) s = .next { s with out := some (.word u) } ∧ ∀ i < 4, wordByte u i = sboxByte (wordByte t i))
  ∧ (∀ (s : State) (k : Nat), 1 ≤ k → k ≤ 10 →
    exec (.rcon k) s = .next { s with out := some (.byte (roundConstant k)) }
    ∧ roundConstant k = [0x01, 0x02, 0x04, 0x08, 0x10, 0x20, 0x40, 0x80, 0x1b, 0x36].getD (k - 1) 0)
  ∧ ∀ k, 1 ≤ k → roundConstant (k + 1) = xtimeByte (roundConstant k)

/-- R83: KEXP writes RK and nothing else, from KEY only: round key 0 is the key, and w[n] = w[n-4] ^ t for n from 4
to 43, where t is w[n-1], after ROTW, SUBW and the XOR of RCON(n div 4) into its leftmost byte for a boundary word. -/
def Obligations.KeyExpansionResult : Prop :=
  ∀ (s : State) (key : Block), s.host.KEY = .holding key →
    exec .kexp s = .next { s with dp := { s.dp with RK := .holding (expandKey key) } }
    ∧ (∀ i < 16, scheduleByte (expandKey key) i = byteAt key i)
    ∧ ∀ n, 4 ≤ n → n ≤ 43 →
      scheduleWord (expandKey key) n = scheduleWord (expandKey key) (n - 4) ^^^
        (if n % 4 = 0 then
          subWord (rotWord (scheduleWord (expandKey key) (n - 1))) ^^^ wordOf (roundConstant (n / 4)) 0 0 0
        else scheduleWord (expandKey key) (n - 1))

/-! ## The cipher and ENCRYPT_BLOCK -/

/-- R90: CIPHER is its 42 micro-operations, in their order; it changes S and delivers the block S then stores, and
that block depends on the schedule and the input only. That KS is not among the registers it changes, against R23's
"CIPHER, through STST", is the model's reading (log 19). -/
def Obligations.CipherIsItsMicroOperations : Prop :=
  ∀ (s : State) (b : Block) (rk : Schedule), s.dp.RK = .holding rk →
    (cipherProgram b).length = 42
    ∧ execAll (cipherProgram b) s = exec (.cipher b) s
    ∧ ∃ m : Matrix, exec (.cipher b) s =
        .next { s with dp := { s.dp with S := .holding m }, out := some (.block (cipherBlock rk b)) }

/-- CIPHER is a bijection on blocks for a fixed schedule (a corner case that R90 marks as general knowledge). -/
def Obligations.CipherIsBijective : Prop := ∀ rk : Schedule, Function.Bijective (cipherBlock rk)

/-- R92: ENCRYPT_BLOCK is refused while BUSY, then without a value in KEY or DIN. Otherwise its issue by a CMD write
sets BUSY, clears DONE and leaves DOUT and TAG without a value, with the sequencer at KEXP; and the whole command
leaves CIPHER(DIN) under KEY in DOUT, TAG and the scratch without a value, BUSY 0 and DONE 1, the result to be shown by a
poll of STATUS (R156), and everything else as it was. -/
def Obligations.EncryptBlockResult : Prop :=
  (∀ s : State, s.busy = true → exec .encryptBlock s = .refused .rfBusy ∧ hostWrite 10 1 s = .refused .rfBusy)
  ∧ (∀ s : State, s.busy = false → s.host.KEY.held = false ∨ s.host.DIN.held = false →
      exec .encryptBlock s = .refused .rfNoValue ∧ hostWrite 10 1 s = .refused .rfNoValue)
  ∧ ∀ (s : State) (key d : Block), s.busy = false → s.host.KEY = .holding key → s.host.DIN = .holding d →
      (∃ (q : Sequencer) (x y : Block), q.pos.op = some .encryptBlock ∧ q.pos.phase = .kexp
        ∧ hostWrite 10 1 s = .next
          { s with
            host := { s.host with DOUT := .blank x, TAG := .blank y }
            STATUS := (s.STATUS &&& ~~~3#32) ||| 1#32
            seq := q })
      ∧ ∃ (y : Block) (scratch : Datapath) (n : Nat), scratch.holdsNothing = true
        ∧ exec .encryptBlock s = .next
          { s with
            host := { s.host with DOUT := .holding (cipherBlock (expandKey key) d), TAG := .blank y }
            STATUS := (s.STATUS &&& ~~~3#32) ||| 2#32
            seq := .idle
            dp := scratch
            unseen := { results := true, bytes := s.unseen.bytes }
            out := none
            drawn := n }

/-! ## GCM primitives -/

/-- R100, R101: MKJ0 writes the IV and the counter 1 to CB; INC32 adds 1 to the big-endian counter in bytes 12 to 15
modulo 2^32 and leaves bytes 0 to 11; both change CB only. -/
def Obligations.CounterBlockResults : Prop :=
  (∀ (s : State) (iv : Nonce), s.host.IV = .holding iv → ∃ cb : Block,
    exec .mkj0 s = .next { s with dp := { s.dp with CB := .holding cb } }
    ∧ (∀ i < 12, byteAt cb i = nonceByte iv i)
    ∧ byteAt cb 12 = 0x00 ∧ byteAt cb 13 = 0x00 ∧ byteAt cb 14 = 0x00 ∧ byteAt cb 15 = 0x01)
  ∧ ∀ (s : State) (cb : Block), s.dp.CB = .holding cb → ∃ cb' : Block,
    exec .inc32 s = .next { s with dp := { s.dp with CB := .holding cb' } }
    ∧ (∀ i < 12, byteAt cb' i = byteAt cb i)
    ∧ be [byteAt cb' 12, byteAt cb' 13, byteAt cb' 14, byteAt cb' 15]
      = (be [byteAt cb 12, byteAt cb 13, byteAt cb 14, byteAt cb 15] + 1) % 2 ^ 32

/-- The counter over many increments (R101, property S6; R128, by inference from the rules). INC32 `n` times adds `n` to
the counter and keeps the prefix; a multiple of 2^32 times it changes nothing. The counter block for plaintext block i of
a message is J0 incremented i + 1 times, with counter field (2 + i) mod 2^32; up to 2^32 - 1 blocks they are distinct and
none is J0, and block index 2^32 - 1 would use J0 again. -/
def Obligations.CounterPeriodAndMessageFields : Prop :=
  (∀ (s : State) (cb : Block) (n : Nat), s.dp.CB = .holding cb →
    execAll (List.replicate n .inc32) s =
      .next { s with dp := { s.dp with CB := .holding (counterNonce cb ++ (counterField cb + BitVec.ofNat 32 n)) } }
    ∧ (n % 2 ^ 32 = 0 → execAll (List.replicate n .inc32) s = .next s))
  ∧ ∀ iv : Nonce,
    initialCounter iv = counterBlock iv 0
    ∧ (∀ i, incrementCounter^[i + 1] (initialCounter iv) = counterBlock iv (i + 1)
        ∧ counterNonce (counterBlock iv (i + 1)) = iv
        ∧ (counterField (counterBlock iv (i + 1))).toNat = (2 + i) % 2 ^ 32)
    ∧ (∀ i j, i < 2 ^ 32 - 1 → j < 2 ^ 32 - 1 → counterBlock iv (i + 1) = counterBlock iv (j + 1) → i = j)
    ∧ (∀ i, i < 2 ^ 32 - 1 → counterBlock iv (i + 1) ≠ initialCounter iv)
    ∧ counterBlock iv (2 ^ 32 - 1 + 1) = initialCounter iv

/-- R102: XOR128 delivers the byte-by-byte XOR and changes nothing else; its three laws. -/
def Obligations.Xor128Result : Prop :=
  ∀ (s : State) (a b : Block), ∃ o : Block,
    exec (.xor128 a b) s = .next { s with out := some (.block o) }
    ∧ (∀ k < 16, byteAt o k = byteAt a k ^^^ byteAt b k)
    ∧ (b = a → o = 0) ∧ (b = 0 → o = a)
    ∧ exec (.xor128 o b) s = .next { s with out := some (.block a) }

/-- R103: GFSTEP XORs V into Z if its bit is 1, shifts V right by one bit through its bytes, byte 0 on top, and XORs
0xE1 into byte 0 if the bit shifted out was 1; it changes Z and V only. -/
def Obligations.GfstepResult : Prop :=
  ∀ (s : State) (x : Bool) (z v : Block), s.dp.Z = .holding z → s.dp.V = .holding v → ∃ z' v' : Block,
    exec (.gfstep x) s = .next { s with dp := { s.dp with Z := .holding z', V := .holding v' } }
    ∧ (∀ k < 16, byteAt z' k = if x then byteAt z k ^^^ byteAt v k else byteAt z k)
    ∧ (∀ k, 1 ≤ k → k ≤ 15 → byteAt v' k = (byteAt v k >>> 1) ||| ((byteAt v (k - 1) &&& 1) <<< 7))
    ∧ byteAt v' 0 = (byteAt v 0 >>> 1) ^^^ (if (byteAt v 15).getLsbD 0 then 0xE1 else 0x00)

/-- R104: GFMUL is 128 GFSTEP with the bits of its first operand, index 0 first, from Z = 0 and V the second operand;
it delivers Z and changes Z and V only. -/
def Obligations.GfmulIsItsSteps : Prop :=
  ∀ (s : State) (a b : Block), ∃ z v : Block,
    execAll ((List.range 128).map fun i => .gfstep (gbit a i))
        { s with dp := { s.dp with Z := .holding 0, V := .holding b } }
      = .next { s with dp := { s.dp with Z := .holding z, V := .holding v } }
    ∧ exec (.gfmul a b) s = .next { s with dp := { s.dp with Z := .holding z, V := .holding v }, out := some (.block z) }
    ∧ z = gfMul a b

/-- The corner cases of GFMUL (R104): zero, the identity `80 00 .. 00`, multiplication by x as one shift-and-reduce;
and it distributes over XOR, which makes it the field multiplication (R53, by inference). -/
def Obligations.GfmulLaws : Prop :=
  (∀ b, gfMul 0 b = 0) ∧ (∀ a, gfMul a 0 = 0)
  ∧ (∀ b, gfMul 0x80000000000000000000000000000000 b = b)
  ∧ (∀ a, gfMul a 0x80000000000000000000000000000000 = a)
  ∧ (∀ b, gfMul 0x40000000000000000000000000000000 b = gfNextV b)
  ∧ (∀ a b c, gfMul a (b ^^^ c) = gfMul a b ^^^ gfMul a c)
  ∧ ∀ a b c, gfMul (a ^^^ b) c = gfMul a c ^^^ gfMul b c

/-- GFMUL is commutative (R104 gives it as general knowledge). -/
def Obligations.GfmulCommutes : Prop :=
  ∀ a b : Block, gfMul a b = gfMul b a
    ∧ ∀ s : State, ∃ t u : State, exec (.gfmul a b) s = .next t ∧ exec (.gfmul b a) s = .next u ∧ t.out = u.out

/-- R52, R110: LENBLK writes 128 times each count as 8 big-endian bytes to LB, and changes LB only. -/
def Obligations.LengthBlockResult : Prop :=
  ∀ (s : State) (a p : Nat), a < 2 ^ 57 → p < 2 ^ 57 → ∃ lb : Block,
    exec (.lenblk a p) s = .next { s with dp := { s.dp with LB := .holding lb } }
    ∧ blockBytes lb = tobe (128 * a) 8 ++ tobe (128 * p) 8
    ∧ be ((blockBytes lb).take 8) = 128 * a ∧ be ((blockBytes lb).drop 8) = 128 * p

/-! ## GCM operations -/

/-- HSUB leaves CIPHER(0^128) in H (R115), with S as CIPHER leaves it; after KEXP it depends on KEY only. That KS keeps
its value through a CIPHER and an HSUB presented on their own is the model's reading (log 19). -/
def Obligations.HashSubkeyResult : Prop :=
  (∀ (s : State) (rk : Schedule), s.dp.RK = .holding rk → ∃ m : Matrix,
    exec (.cipher 0) s = .next { s with dp := { s.dp with S := .holding m }, out := some (.block (cipherBlock rk 0)) }
    ∧ exec .hsub s = .next
        { s with
          dp := { s.dp with S := .holding m, H := .holding (cipherBlock rk 0) }
          out := some (.block (cipherBlock rk 0)) })
  ∧ ∀ (s : State) (key : Block), s.host.KEY = .holding key → ∃ t,
    execAll [.kexp, .hsub] s = .next t ∧ t.dp.H = .holding (cipherBlock (expandKey key) 0)

/-- R116: GCTR XORs block i with CIPHER of CB incremented i times; CB ends incremented once a block; KS is the last
keystream block; only S, CB and KS change, and nothing with no blocks; GCTR of the output gives the input back. -/
def Obligations.GctrResult : Prop :=
  (∀ s : State, exec (.gctr []) s = .next { s with out := some (.blocks []) })
  ∧ ∀ (s : State) (rk : Schedule) (cb : Block) (bs : List Block), s.dp.RK = .holding rk → s.dp.CB = .holding cb →
    ∃ (d : Datapath) (os : List Block),
      exec (.gctr bs) s = .next { s with dp := d, out := some (.blocks os) }
      ∧ d = { s.dp with S := d.S, CB := d.CB, KS := d.KS }
      ∧ os.length = bs.length
      ∧ (∀ i < bs.length, os.getD i 0 =
          bs.getD i 0 ^^^ cipherBlock rk (counterNonce cb ++ (counterField cb + BitVec.ofNat 32 i)))
      ∧ d.CB = .holding (counterNonce cb ++ (counterField cb + BitVec.ofNat 32 bs.length))
      ∧ (∀ n, bs.length = n + 1 →
          d.KS = .holding (cipherBlock rk (counterNonce cb ++ (counterField cb + BitVec.ofNat 32 n))))
      ∧ ∃ t, exec (.gctr os) s = .next t ∧ t.out = some (.blocks bs)

/-- R117: GHASH starts from Y = 0^128 and takes Y to GFMUL(H, Y XOR X_i) for each block in order; only Y, Z and V and
the port change; all-zero blocks leave Y = 0^128. -/
def Obligations.GhashResult : Prop :=
  (∀ s : State, exec (.ghash []) s = .next { s with dp := { s.dp with Y := .holding 0 } })
  ∧ ∀ (s : State) (h : Block) (xs : List Block), s.dp.H = .holding h →
    ∃ (d : Datapath) (o : Option OpOut) (y : Nat → Block),
      exec (.ghash xs) s = .next { s with dp := d, out := o }
      ∧ d = { s.dp with Y := .holding (y xs.length), Z := d.Z, V := d.V }
      ∧ y 0 = 0
      ∧ (∀ i < xs.length, y (i + 1) = gfMul h (y i ^^^ xs.getD i 0))
      ∧ ((∀ x ∈ xs, x = 0) → d.Y = .holding 0)

/-- R119: TAGENC re-seeds CB from IV, leaves Y XOR CIPHER(J0) in TAG and J0 incremented in CB; that is GCTR of the one
block Y from J0; only S, CB, KS, TAG and the port change. -/
def Obligations.TagResult : Prop :=
  ∀ (s : State) (iv : Nonce) (rk : Schedule) (y : Block),
    s.host.IV = .holding iv → s.dp.RK = .holding rk → s.dp.Y = .holding y →
    let ks := cipherBlock rk (counterBlock iv 0)
    (∃ m : Matrix, exec .tagenc s = .next
      { s with
        host := { s.host with TAG := .holding (y ^^^ ks) }
        dp := { s.dp with S := .holding m, CB := .holding (counterBlock iv 1), KS := .holding ks }
        out := some (.block (y ^^^ ks)) })
    ∧ ∃ t, exec (.gctr [y]) { s with dp := { s.dp with CB := .holding (counterBlock iv 0) } } = .next t
      ∧ t.out = some (.blocks [y ^^^ ks])

/-! ## NOP and SEAL -/

/-- R123: NOP is refused while BUSY, as a whole command and as a CMD write; otherwise it changes nothing. -/
def Obligations.NopResult : Prop :=
  ∀ s : State,
    (s.busy = true → exec .nop s = .refused .rfBusy ∧ hostWrite 10 0 s = .refused .rfBusy)
    ∧ (s.busy = false → exec .nop s = .next s ∧ hostWrite 10 0 s = .next s)

/-- R120: an accepted SEAL leaves the ciphertext in its region, the tag in TAG, DOUT and the scratch without a value,
BUSY 0 and DONE 1; the operand registers, the plaintext and associated data, and every byte outside the ciphertext
region are unchanged; TAG and the region are to be shown by a poll of STATUS (R156). Its issue by a CMD write sets BUSY, clears DONE and leaves DOUT and TAG without a value, with
the sequencer at KEXP. The counts are below 2^57, as CW <= 57 makes them (R6). -/
def Obligations.SealResult : Prop :=
  ∀ (s : State) (key : Block) (iv : Nonce) (Ap Ac Aa : Nat) (pts ads : List Block),
    SealOperands s key iv Ap Ac Aa pts ads →
    let rk := expandKey key
    let cts := sealCiphertext rk iv pts
    (∃ (q : Sequencer) (x y : Block), q.pos.op = some .sealMessage ∧ q.pos.phase = .kexp
      ∧ hostWrite 10 2 s = .next
        { s with
          host := { s.host with DOUT := .blank x, TAG := .blank y }
          STATUS := (s.STATUS &&& ~~~3#32) ||| 1#32
          seq := q })
    ∧ ∃ (m : Memory) (x : Block) (scratch : Datapath) (u : Unseen) (n : Nat), scratch.holdsNothing = true
      ∧ exec .sealMessage s = .next
        { s with
          host := { s.host with DOUT := .blank x, TAG := .holding (sealTag rk iv ads cts) }
          STATUS := (s.STATUS &&& ~~~3#32) ||| 2#32
          seq := .idle
          dp := scratch
          MEM := m
          unseen := u
          out := none
          drawn := n }
      ∧ u.results = true
      ∧ (∀ x, u.Hides x ↔ s.InRegion .ct x ∨ s.unseen.Hides x)
      ∧ m.readBlocks Ac pts.length = some cts
      ∧ m.readBlocks Ap pts.length = some pts
      ∧ m.readBlocks Aa ads.length = some ads
      ∧ ∀ x, ¬ s.InRegion .ct x → m.read x = s.MEM.read x

/-- R122: the first check of the six that fails decides the reason, for a whole command and for a CMD write; a SEAL
that passes them all runs to completion. -/
def Obligations.SealChecksInOrder : Prop :=
  ∀ s : State,
    (∀ k, s.SealFails k → (∀ j < k, ¬ s.SealFails j) →
      exec .sealMessage s = .refused (sealReason k) ∧ hostWrite 10 2 s = .refused (sealReason k))
    ∧ (s.Inv → (∀ k, ¬ s.SealFails k) →
      ∃ t, exec .sealMessage s = .next t ∧ t.busy = false ∧ t.isDone = true)

/-- Zero counts (R125, by inference from the rules): with both counts zero the tag is CIPHER(J0) and memory is
unchanged; the address registers of an empty region are not read. -/
def Obligations.ZeroCounts : Prop :=
  (∀ (s : State) (key : Block) (iv : Nonce), s.busy = false → s.host.KEY = .holding key → s.host.IV = .holding iv →
    s.host.PT_BLOCKS = .holding 0 → s.host.AD_BLOCKS = .holding 0 →
    ∃ (x : Block) (scratch : Datapath) (n : Nat), scratch.holdsNothing = true
      ∧ exec .sealMessage s = .next
        { s with
          host := { s.host with DOUT := .blank x, TAG := .holding (cipherBlock (expandKey key) (counterBlock iv 0)) }
          STATUS := (s.STATUS &&& ~~~3#32) ||| 2#32
          seq := .idle
          dp := scratch
          unseen := { results := true, bytes := s.unseen.bytes }
          out := none
          drawn := n })
  ∧ (∀ (s t : State) (x y : Reg Nat), s.host.PT_BLOCKS = .holding 0 → exec .sealMessage s = .next t →
    exec .sealMessage { s with host := { s.host with PT_ADDR := x, CT_ADDR := y } }
      = .next { t with host := { t.host with PT_ADDR := x, CT_ADDR := y } })
  ∧ ∀ (s t : State) (x : Reg Nat), s.host.AD_BLOCKS = .holding 0 → exec .sealMessage s = .next t →
    exec .sealMessage { s with host := { s.host with AD_ADDR := x } }
      = .next { t with host := { t.host with AD_ADDR := x } }

/-- Round trip (R126, by inference from the rules): sealing the ciphertext under the same key and IV writes the
original plaintext to the new ciphertext region. -/
def Obligations.SealRoundTrip : Prop :=
  ∀ (s t : State) (key : Block) (iv : Nonce) (Ap Ac Aa Ac' : Nat) (pts ads : List Block),
    SealOperands s key iv Ap Ac Aa pts ads → exec .sealMessage s = .next t →
    let u : State := { t with host := { t.host with PT_ADDR := .holding Ac, CT_ADDR := .holding Ac' } }
    (∀ k, ¬ u.SealFails k) →
    ∃ v, exec .sealMessage u = .next v ∧ v.MEM.readBlocks Ac' pts.length = some pts

/-! ## Results -/

/-- "DOUT, TAG and the ciphertext region hold the command's results once a `HostRead(STATUS)` has returned DONE = 1, and
not before" (R156; the completion point of R41). A command, whole or in the sequencer, leaves them not shown; until they
are shown a host read of them is refused, for which RF_NOVALUE is the model's reading (log 23); only a poll that returns
DONE = 1 shows them, and it shows all. HostRead(STATUS) returns BUSY in bit 0, DONE in bit 1 and 0 above (R21): 1 while
BUSY, 2 when DONE, 0 otherwise, as after reset; unless it returns DONE = 1 it shows nothing (a byte may also be written by the host itself, and a reset leaves no result in
DOUT and TAG to show). Once shown, a read returns what DOUT, TAG or the bytes hold; DOUT and TAG stay valid until the next
ENCRYPT_BLOCK or SEAL is issued, a byte until the host or a SEAL writes it. An operation presented on its own may write
TAG too (log 2). -/
def Obligations.ResultsShownByPoll : Prop :=
  (∀ (i : Instr) (s t : State), i = .encryptBlock ∨ i = .sealMessage → exec i s = .next t →
    t.unseen.results = true ∧ (i = .sealMessage → ∀ x, s.InRegion .ct x → t.unseen.Hides x))
  ∧ (∀ s t : State, s.Inv → coreStep s = .next t → s.busy = true → t.busy = false →
    t.unseen.results = true ∧ (s.seq.pos.op = some .sealMessage → ∀ x, s.InRegion .ct x → t.unseen.Hides x))
  ∧ (∀ s : State, s.busy = false → s.unseen.results = true →
    hostRead 3 s = .refused .rfNoValue ∧ hostRead 4 s = .refused .rfNoValue)
  ∧ (∀ (s : State) (addr n k : Nat), s.busy = false → k < n → s.unseen.Hides (addr + k) →
    hostMemRead addr n s = .refused .rfNoValue)
  ∧ (∀ s t : State, step s = .next t →
    (s.unseen.results = true → t.unseen.results = false → s.NextPolls ∨ s.agenda.head? = some .reset)
    ∧ ∀ x, s.unseen.Hides x → ¬ t.unseen.Hides x → s.NextPolls ∨ s.NextHostWrites x)
  ∧ (∀ s : State, hostRead 11 s = .next
    { s with
      unseen := if s.STATUS.getLsbD 1 then .nothing else s.unseen
      replies := .reg 11 ((s.STATUS.getLsbD 0).toNat + 2 * (s.STATUS.getLsbD 1).toNat) :: s.replies })
  ∧ (∀ s : State, s.Inv → hostRead 11 s = .next
    { s with
      unseen := if s.isDone then .nothing else s.unseen
      replies := .reg 11 (if s.busy then 1 else if s.isDone then 2 else 0) :: s.replies })
  ∧ (∀ (s : State) (v : Block), s.busy = false → s.unseen.results = false →
    (s.host.DOUT = .holding v → hostRead 3 s = .next { s with replies := .reg 3 v.toNat :: s.replies })
    ∧ (s.host.TAG = .holding v → hostRead 4 s = .next { s with replies := .reg 4 v.toNat :: s.replies }))
  ∧ (∀ (s : State) (addr n : Nat) (bytes : List Byte), s.busy = false → s.AddressesExist addr n →
    (∀ k < n, ¬ s.unseen.Hides (addr + k)) → s.MEM.readBytes addr n = some bytes →
    hostMemRead addr n s = .next { s with replies := .mem addr bytes :: s.replies })
  ∧ ∀ s t : State, s.Inv → step s = .next t → s.agenda.head? ≠ some .reset →
    (∀ v, s.busy = false → s.unseen.results = false → ¬ s.NextIssues →
      t.unseen.results = false
      ∧ (s.host.DOUT = .holding v → t.host.DOUT = .holding v)
      ∧ (s.host.TAG = .holding v → (∀ bytes, s.agenda.head? ≠ some (.uop bytes)) → t.host.TAG = .holding v))
    ∧ ∀ x b, s.MEM.read x = some b → ¬ s.unseen.Hides x → ¬ s.NextHostWrites x → ¬ s.SealMayWrite x →
      t.MEM.read x = some b ∧ ¬ t.unseen.Hides x

/-! ## Frames and whole-machine rules -/

/-- No instruction raises an exception (R135): from every state with the invariant it answers a next state or is refused
for a reason its rules name (R92, R122, R123, R137; log 18 for the operations; that an operation completes on a
register without a value is the model's choice, log 2), and a step of the core answers a next state or is refused for
want of a value or for an operand out of range. -/
def Obligations.NoInstructionFaults : Prop :=
  ∀ s : State, s.Inv →
    (∀ i, (∃ t, exec i s = .next t) ∨ ∃ r ∈ refusalsOf i, exec i s = .refused r)
    ∧ ((∃ t, coreStep s = .next t) ∨ coreStep s = .refused .rfNoValue ∨ coreStep s = .refused .badUop)

/-- A datapath operation leaves the platform, STATUS, the sequencer, memory, the turns and the replies, every host
register but TAGENC's TAG, and every datapath register but those it writes: those R23 names, with S for CIPHER and Z
and V for GFMUL (R90, R104). That KS is written by GCTR and TAGENC and not by CIPHER or HSUB, against R23's "CIPHER,
through STST", is the model's reading (log 19). -/
def Obligations.DatapathOperationsFrame : Prop :=
  ∀ (i : Instr) (s t : State), ¬ isCommand i → exec i s = .next t →
    SameButScratch { s with host := t.host } t
    ∧ t.host = (if i = .tagenc then { s.host with TAG := t.host.TAG } else s.host)
    ∧ t.dp = scratchAfter i s.dp t.dp

/-- The operand registers are never written by the core (R26, which the spec derives from its register table): by no
instruction and by no step of the core. -/
def Obligations.OperandRegistersNeverWritten : Prop :=
  (∀ (i : Instr) (s t : State), exec i s = .next t → SameOperands s.host t.host)
  ∧ ∀ s t : State, coreStep s = .next t → SameOperands s.host t.host

/-- Memory is written by SEAL only, and only in its ciphertext region, as a whole command and step by step (R31,
R33). -/
def Obligations.MemoryWrittenBySealOnly : Prop :=
  (∀ (i : Instr) (s t : State), exec i s = .next t → i ≠ .sealMessage → SameMemory s t)
  ∧ (∀ s t : State, exec .sealMessage s = .next t → ∀ x, ¬ s.InRegion .ct x → t.MEM.read x = s.MEM.read x)
  ∧ ∀ s t : State, s.Inv → coreStep s = .next t →
      ∀ x, ¬ (s.seq.pos.op = some .sealMessage ∧ s.InRegion .ct x) → t.MEM.read x = s.MEM.read x

/-- The scratch registers carry nothing between commands (R25, R154): what ENCRYPT_BLOCK and SEAL answer does not
depend on them, and no one of them holds a value afterwards; their storage is left with free values, which is the
model's choice (log 2). -/
def Obligations.CommandsIgnoreScratch : Prop :=
  ∀ (i : Instr) (s : State) (d : Datapath) (o : Option OpOut), i = .encryptBlock ∨ i = .sealMessage →
    exec i { s with dp := d, out := o } = exec i s
    ∧ ∀ t, exec i s = .next t → t.dp.holdsNothing = true ∧ t.dp = .leftBy s.drawn ∧ t.drawn = s.drawn + 1

/-- Bytes 0 to 11 of CB are IV from MKJ0 until the end of a SEAL, its completion (R24): every step keeps it. -/
def Obligations.CounterPrefixKept : Prop :=
  ∀ s t : State, s.Inv → s.CounterFromNonce → step s = .next t → t.CounterFromNonce

/-! ## The sequencer -/

/-- A CMD write issues the command its word encodes (R20): it is refused while BUSY; otherwise, once the issue checks
pass, BUSY is 1, DONE 0, DOUT and TAG hold no value, the sequencer's OP is the command and its PHASE KEXP, and nothing
else changes. -/
def Obligations.CommandWriteIssues : Prop :=
  (∀ (s : State) (v : Nat), s.busy = true → hostWrite 10 v s = .refused .rfBusy)
  ∧ ∀ (s : State) (w : Nat) (c : Command), s.busy = false →
      (w = 1 ∧ c = .encryptBlock ∧ s.host.KEY.held = true ∧ s.host.DIN.held = true
        ∨ w = 2 ∧ c = .sealMessage ∧ ∀ k, ¬ s.SealFails k) →
      ∃ (q : Sequencer) (x y : Block),
        hostWrite 10 w s = .next
          { s with
            host := { s.host with DOUT := .blank x, TAG := .blank y }
            STATUS := (s.STATUS &&& ~~~3#32) ||| 1#32
            seq := q }
        ∧ q.pos.op = some c ∧ q.pos.phase = .kexp

/-- An ENCRYPT_BLOCK issued by a CMD write and run one micro-operation a step ends, after 45 steps with BUSY 1 before
each, in the state that the whole command answers (R10, R93, R94, R159). -/
def Obligations.SequencerRunsEncrypt : Prop :=
  ∀ (s t : State), s.agenda = [] → s.host.KEY.held = true → s.host.DIN.held = true → hostWrite 10 1 s = .next t →
    runSteps encryptSteps t = exec .encryptBlock s
    ∧ ∀ k < encryptSteps, ∃ u, runSteps k t = .next u ∧ u.busy = true ∧ u.isDone = false

/-- A SEAL issued by a CMD write and run one micro-operation a step ends, after 228 + 180 PT_BLOCKS + 133 AD_BLOCKS
steps with BUSY 1 before each, in the state that the whole command answers (R10, R121, R124, R127, R159). -/
def Obligations.SequencerRunsSeal : Prop :=
  ∀ (s t : State) (key : Block) (iv : Nonce) (Ap Ac Aa : Nat) (pts ads : List Block),
    s.agenda = [] → SealOperands s key iv Ap Ac Aa pts ads → hostWrite 10 2 s = .next t →
    runSteps (sealSteps pts.length ads.length) t = exec .sealMessage s
    ∧ ∀ k < sealSteps pts.length ads.length, ∃ u, runSteps k t = .next u ∧ u.busy = true ∧ u.isDone = false

/-- BUSY and DONE follow the commands (R21): apart from reset, BUSY falls only when a command completes, and DONE is
then 1; BUSY rises only by a CMD write of an ENCRYPT_BLOCK or a SEAL; DONE falls only as BUSY rises; and DONE rises only
when a command completes, one in progress or a whole one (log 4). -/
def Obligations.FlagsFollowCommands : Prop :=
  ∀ s t : State, s.Inv → step s = .next t → s.agenda.head? ≠ some .reset →
    (s.busy = true → t.busy = false → t.isDone = true ∧ t.seq.pos.op = none)
    ∧ (s.busy = false → t.busy = true → t.isDone = false
        ∧ ∃ w, s.agenda.head? = some (.host (.write 10 w)) ∧ (w = 1 ∨ w = 2))
    ∧ (s.isDone = true → t.isDone = false → t.busy = true)
    ∧ (s.isDone = false → t.isDone = true →
        (s.busy = true ∧ t.busy = false ∧ t.seq = .idle)
        ∨ ∃ w, s.agenda.head? = some (.command w) ∧ (w = 1 ∨ w = 2))

/-- Between commands the core is idle and a step of it changes nothing (R147). -/
def Obligations.IdleStepChangesNothing : Prop :=
  ∀ s : State, s.Inv → s.busy = false → coreStep s = .next s ∧ (s.agenda = [] → step s = .next s)

/-! ## The host -/

/-- While BUSY the host is locked out (R42): register moves other than reading STATUS and accesses to a region of the
running command, whatever else they cover, are refused; a read of STATUS returns 1 (R21); accesses outside the regions, to addresses that exist, have
their effect (of a ciphertext region of an earlier command that no poll has shown: log 23). -/
def Obligations.BusyLocksHost : Prop :=
  ∀ s : State, s.busy = true →
    (∀ reg v, hostMove (.write reg v) s = .refused .rfBusy)
    ∧ (∀ reg, reg ≠ 11 → hostMove (.read reg) s = .refused .rfBusy)
    ∧ (s.isDone = false → hostMove (.read 11) s = .next { s with replies := .reg 11 1 :: s.replies })
    ∧ (s.Inv → ∀ addr bytes,
        (s.TouchesRunningRegion addr bytes.length → hostMove (.memWrite addr bytes) s = .refused .rfBusy)
        ∧ (¬ s.TouchesRunningRegion addr bytes.length → s.AddressesExist addr bytes.length →
            ∃ u : Unseen,
              hostMove (.memWrite addr bytes) s = .next { s with MEM := s.MEM.writeBytes addr bytes, unseen := u }
              ∧ u.results = s.unseen.results
              ∧ ∀ x, u.Hides x ↔ s.unseen.Hides x ∧ ¬ (addr ≤ x ∧ x < addr + bytes.length)))
    ∧ (s.Inv → ∀ addr n,
        (s.TouchesRunningRegion addr n → hostMove (.memRead addr n) s = .refused .rfBusy)
        ∧ (¬ s.TouchesRunningRegion addr n → s.AddressesExist addr n → (∀ k < n, ¬ s.unseen.Hides (addr + k)) →
            ∀ bytes, s.MEM.readBytes addr n = some bytes →
            hostMove (.memRead addr n) s = .next { s with replies := .mem addr bytes :: s.replies }))

/-- A host access to memory that is allowed while BUSY does not interact with the command (R42): made before or after
a step of the core, it leaves the same state. -/
def Obligations.HostAccessDoesNotDisturb : Prop :=
  ∀ (s t u : State) (m : HostMove), s.Inv → s.busy = true →
    (∃ addr bytes, m = .memWrite addr bytes) ∨ (∃ addr n, m = .memRead addr n) →
    hostMove m s = .next t → coreStep s = .next u →
    ∃ v, coreStep t = .next v ∧ hostMove m u = .next v

/-- While BUSY no step but reset changes an operand register (R43, R155). -/
def Obligations.OperandsStableWhileBusy : Prop :=
  ∀ s t : State, s.busy = true → s.agenda.head? ≠ some .reset → step s = .next t → SameOperands s.host t.host

/-- A register the host may write reads back the value written, and no other register, flag or memory byte changes
(R12, R13); DOUT and TAG keep what they hold, shown to the host or not (R17, R18). -/
def Obligations.RegisterReadsBack : Prop :=
  ∀ (s : State) (reg width v : Nat), s.busy = false → operandWidth s.plat reg = some width → v < 2 ^ width →
    ∃ h : HostRegs, hostWrite reg v s = .next { s with host := h }
      ∧ h.DOUT = s.host.DOUT ∧ h.TAG = s.host.TAG
      ∧ hostRead reg { s with host := h } = .next { s with host := h, replies := .reg reg v :: s.replies }
      ∧ ∀ other, other ≠ reg → regValue other { s with host := h } = regValue other s

/-- Access rights (R12, R13): DOUT, TAG and STATUS are not writable and CMD is not readable. That a register number
above 11 and a value that is not of the register's type are refused likewise is the model's reading (log 10). -/
def Obligations.AccessRights : Prop :=
  ∀ s : State, s.busy = false →
    (∀ v, hostWrite 3 v s = .refused .rfAccess ∧ hostWrite 4 v s = .refused .rfAccess
      ∧ hostWrite 11 v s = .refused .rfAccess)
    ∧ hostRead 10 s = .refused .rfAccess
    ∧ (∀ reg v, 11 < reg → hostWrite reg v s = .refused .rfAccess ∧ hostRead reg s = .refused .rfAccess)
    ∧ (∀ reg width v, operandWidth s.plat reg = some width → 2 ^ width ≤ v → hostWrite reg v s = .refused .rfAccess)
    ∧ ∀ v, 2 ^ 32 ≤ v → hostWrite 10 v s = .refused .rfAccess

/-- Reading no value is never given a result (R11): a host read of a register or byte without a value is refused
(R137), DOUT and TAG included that no poll of STATUS has shown (R156; log 23), as one of a byte that does not exist is
(log 11), and so is a command, whole or by a CMD write, whose operand
register holds none (R92, R122). An operation presented on its own, of which R11 and R137 name no refusal, works on
what the storage holds, marked or not, by the model's choice (log 2). -/
def Obligations.NoValueIsRefused : Prop :=
  (∀ (s : State) (reg : Nat), s.busy = false → regValue reg s = some none → hostRead reg s = .refused .rfNoValue)
  ∧ (∀ (s : State) (addr n k : Nat), s.busy = false → k < n → s.MEM.read (addr + k) = none →
      hostMemRead addr n s = .refused .rfNoValue)
  ∧ (∀ s : State, s.busy = false → s.host.KEY.held = false ∨ s.host.DIN.held = false →
      exec .encryptBlock s = .refused .rfNoValue ∧ hostWrite 10 1 s = .refused .rfNoValue)
  ∧ (∀ s : State, s.busy = false → s.SealFails 2 ∨ s.SealFails 3 →
      exec .sealMessage s = .refused .rfNoValue ∧ hostWrite 10 2 s = .refused .rfNoValue)
  ∧ ∀ (i : Instr) (s t : State), ¬ isCommand i → exec i s.marked = .next t →
      ∃ u, exec i s = .next u ∧ u.marked = t.marked

/-- Memory reads back what the host wrote, byte by byte, and no other byte changes (R12, R34). Where an address does not
exist a read is refused with RF_NOVALUE and a write for a reason of the model's, by its choice (log 11). What the host
writes over a ciphertext region that no poll has shown is its own to read at once (log 23). -/
def Obligations.MemoryReadsBack : Prop :=
  ∀ (s : State) (addr : Nat) (bytes : List Byte), s.busy = false →
    (s.AddressesExist addr bytes.length → ∃ (m : Memory) (u : Unseen),
      hostMemWrite addr bytes s = .next { s with MEM := m, unseen := u }
      ∧ u.results = s.unseen.results
      ∧ (∀ x, u.Hides x ↔ s.unseen.Hides x ∧ ¬ (addr ≤ x ∧ x < addr + bytes.length))
      ∧ (∀ k < bytes.length, m.read (addr + k) = some (bytes.getD k 0))
      ∧ (∀ x, x < addr ∨ addr + bytes.length ≤ x → m.read x = s.MEM.read x)
      ∧ hostMemRead addr bytes.length { s with MEM := m, unseen := u }
        = .next { s with MEM := m, unseen := u, replies := .mem addr bytes :: s.replies })
    ∧ (¬ s.AddressesExist addr bytes.length →
      hostMemWrite addr bytes s = .refused .noSuchAddress
      ∧ hostMemRead addr bytes.length s = .refused .rfNoValue)

/-- The script of `encrypt_block` (R60), run from any state without a command in progress, returns the block
encrypted under the key. How WAIT polls and that the last poll alone is recorded is the model's choice (log 15), and so
is the number of steps (log 20). -/
def Obligations.EncryptScriptReturns : Prop :=
  ∀ (s : State) (key input : Block) (rest : List Turn), s.busy = false → s.agenda = encryptScript key input ++ rest →
    ∃ t, runSteps (encryptSteps + 5) s = .next t
      ∧ t.replies = .reg 3 (cipherBlock (expandKey key) input).toNat :: .reg 11 2 :: s.replies
      ∧ t.agenda = rest
      ∧ t.host =
          { s.host with
            KEY := .holding key, DIN := .holding input, DOUT := .holding (cipherBlock (expandKey key) input)
            TAG := t.host.TAG }
      ∧ t.host.TAG.held = false
      ∧ t.MEM = s.MEM ∧ t.busy = false ∧ t.isDone = true ∧ t.unseen = .nothing

end Statements
end

