-- ==== Sys2Proof/Laws/Bytes.lean ====
section
/-! SUPPORT. Bytes, words and blocks; big-endian integers. -/

namespace Sys2Proof.Machine

/-- Bit `j` of four equal-width pieces put together. -/
theorem append4_getLsbD {w : Nat} (a b c d : BitVec w) (j : Nat) :
    (a ++ b ++ c ++ d).getLsbD j =
      if j < w then d.getLsbD j
      else if j < 2 * w then c.getLsbD (j - w)
      else if j < 3 * w then b.getLsbD (j - 2 * w)
      else a.getLsbD (j - 3 * w) := by
  have e2 : j - w - w = j - 2 * w := by omega
  have e3 : j - w - w - w = j - 3 * w := by omega
  have e3' : j - 2 * w - w = j - 3 * w := by omega
  simp only [BitVec.getLsbD_append, e2, e3']
  by_cases h1 : j < w
  · simp [h1]
  by_cases h2 : j < 2 * w
  · simp [h1, h2, show j - w < w by omega]
  by_cases h3 : j < 3 * w
  · simp [h1, h2, h3, show ¬ (j - w < w) by omega, show j - 2 * w < w by omega]
  · simp [h1, h2, h3, show ¬ (j - w < w) by omega, show ¬ (j - 2 * w < w) by omega]

/-- Byte `i` of a word is the `i`-th of the bytes it is made of. -/
theorem wordByte_wordOf (t0 t1 t2 t3 : Byte) (i : Nat) (hi : i < 4) :
    wordByte (wordOf t0 t1 t2 t3) i = [t0, t1, t2, t3][i] := by
  apply BitVec.eq_of_getLsbD_eq
  intro j hj
  simp only [wordByte, wordOf, BitVec.getLsbD_extractLsb', hj, decide_true, Bool.true_and]
  refine Eq.trans (append4_getLsbD t0 t1 t2 t3 (8 * (3 - i) + j)) ?_
  interval_cases i <;> simp (disch := omega) only [if_pos, if_neg] <;> simp

/-- Word `i` of a block is the `i`-th of the words it is made of. -/
theorem wordAt_blockOfWords (w0 w1 w2 w3 : Word) (i : Nat) (hi : i < 4) :
    wordAt (blockOfWords w0 w1 w2 w3) i = [w0, w1, w2, w3][i] := by
  apply BitVec.eq_of_getLsbD_eq
  intro j hj
  simp only [wordAt, blockOfWords, BitVec.getLsbD_extractLsb', hj, decide_true, Bool.true_and]
  refine Eq.trans (append4_getLsbD w0 w1 w2 w3 (32 * (3 - i) + j)) ?_
  interval_cases i <;> simp (disch := omega) only [if_pos, if_neg] <;> simp

@[simp] theorem wordByte_wordOf_0 (a b c d : Byte) : wordByte (wordOf a b c d) 0 = a := wordByte_wordOf a b c d 0 (by decide)
@[simp] theorem wordByte_wordOf_1 (a b c d : Byte) : wordByte (wordOf a b c d) 1 = b := wordByte_wordOf a b c d 1 (by decide)
@[simp] theorem wordByte_wordOf_2 (a b c d : Byte) : wordByte (wordOf a b c d) 2 = c := wordByte_wordOf a b c d 2 (by decide)
@[simp] theorem wordByte_wordOf_3 (a b c d : Byte) : wordByte (wordOf a b c d) 3 = d := wordByte_wordOf a b c d 3 (by decide)
@[simp] theorem wordAt_blockOfWords_0 (a b c d : Word) : wordAt (blockOfWords a b c d) 0 = a := wordAt_blockOfWords a b c d 0 (by decide)
@[simp] theorem wordAt_blockOfWords_1 (a b c d : Word) : wordAt (blockOfWords a b c d) 1 = b := wordAt_blockOfWords a b c d 1 (by decide)
@[simp] theorem wordAt_blockOfWords_2 (a b c d : Word) : wordAt (blockOfWords a b c d) 2 = c := wordAt_blockOfWords a b c d 2 (by decide)
@[simp] theorem wordAt_blockOfWords_3 (a b c d : Word) : wordAt (blockOfWords a b c d) 3 = d := wordAt_blockOfWords a b c d 3 (by decide)

/-- A byte of a block is a byte of its word. -/
theorem byteAt_eq_wordByte (b : Block) (i : Nat) (hi : i < 16) :
    byteAt b i = wordByte (wordAt b (i / 4)) (i % 4) := by
  apply BitVec.eq_of_getLsbD_eq
  intro j hj
  simp only [byteAt, wordByte, wordAt, BitVec.getLsbD_extractLsb', hj, decide_true, Bool.true_and]
  rw [decide_eq_true (by omega), Bool.true_and]
  congr 1
  omega

/-- Byte `i` of the block made from `f` is `f i`. -/
theorem byteAt_blockOf (f : Nat → Byte) (i : Nat) (hi : i < 16) : byteAt (blockOf f) i = f i := by
  rw [byteAt_eq_wordByte _ _ hi, blockOf, wordAt_blockOfWords _ _ _ _ _ (by omega)]
  interval_cases i <;> exact wordByte_wordOf _ _ _ _ _ (by decide)

/-- Blocks with equal bytes are equal. -/
theorem block_ext {a b : Block} (h : ∀ i < 16, byteAt a i = byteAt b i) : a = b := by
  apply BitVec.eq_of_getLsbD_eq
  intro j hj
  have e := congrArg (fun x => BitVec.getLsbD x (j % 8)) (h (15 - j / 8) (by omega))
  simp only [byteAt, BitVec.getLsbD_extractLsb', Nat.mod_lt _ (by decide : 8 > 0), decide_true, Bool.true_and] at e
  rwa [show 8 * (15 - (15 - j / 8)) + j % 8 = j by omega] at e

/-- Words with equal bytes are equal. -/
theorem word_ext {a b : Word} (h : ∀ i < 4, wordByte a i = wordByte b i) : a = b := by
  apply BitVec.eq_of_getLsbD_eq
  intro j hj
  have e := congrArg (fun x => BitVec.getLsbD x (j % 8)) (h (3 - j / 8) (by omega))
  simp only [wordByte, BitVec.getLsbD_extractLsb', Nat.mod_lt _ (by decide : 8 > 0), decide_true, Bool.true_and] at e
  rwa [show 8 * (3 - (3 - j / 8)) + j % 8 = j by omega] at e

theorem blockOf_byteAt (b : Block) : blockOf (byteAt b) = b := block_ext fun i hi => byteAt_blockOf _ i hi

/-- XOR of blocks is XOR of their bytes (R102). -/
theorem byteAt_xor (a b : Block) (i : Nat) : byteAt (a ^^^ b) i = byteAt a i ^^^ byteAt b i := by
  simp [byteAt, BitVec.extractLsb'_xor]

@[simp] theorem length_blockBytes (b : Block) : (blockBytes b).length = 16 := by simp [blockBytes]

@[simp] theorem length_wordBytes (t : Word) : (wordBytes t).length = 4 := by simp [wordBytes]

theorem getD_blockBytes (b : Block) (i : Nat) (hi : i < 16) : (blockBytes b).getD i 0 = byteAt b i := by
  simp [blockBytes, List.getD, List.getElem?_map, List.getElem?_range hi]

/-- The block of a block's bytes is the block. -/
@[simp] theorem blockOfBytes_blockBytes (b : Block) : blockOfBytes (blockBytes b) = b :=
  block_ext fun i hi => by rw [blockOfBytes, byteAt_blockOf _ i hi, getD_blockBytes b i hi]

/-- The bytes of the block of 16 bytes are the bytes. -/
theorem blockBytes_blockOfBytes (l : List Byte) (h : l.length = 16) : blockBytes (blockOfBytes l) = l := by
  apply List.ext_getElem (by simp [h])
  intro i h1 h2
  have hi : i < 16 := by simpa using h1
  simp [blockBytes, blockOfBytes, byteAt_blockOf _ i hi, List.getD, h2]

/-- The word of a word's bytes is the word. -/
@[simp] theorem wordOfBytes_wordBytes (t : Word) : wordOfBytes (wordBytes t) = t :=
  word_ext fun i hi => by
    rw [wordOfBytes, wordByte_wordOf _ _ _ _ _ hi]
    interval_cases i <;> rfl

@[simp] theorem length_tobe (v n : Nat) : (tobe v n).length = n := by
  induction n with
  | zero => rfl
  | succ n ih => simp [tobe, ih]

/-- `tobe` is the inverse of `be` (R8). -/
theorem be_tobe (v n : Nat) (h : v < 256 ^ n) : be (tobe v n) = v := by
  suffices H : ∀ n v, be (tobe v n) = v % 256 ^ n by rw [H, Nat.mod_eq_of_lt h]
  intro n
  induction n with
  | zero => intro v; simp [tobe, be, Nat.mod_one]
  | succ n ih =>
    intro v
    rw [tobe, be, length_tobe, ih, BitVec.toNat_ofNat]
    have : v % 256 ^ (n + 1) = v % 256 ^ n + 256 ^ n * (v / 256 ^ n % 256) := by
      rw [pow_succ, Nat.mod_mul]
    rw [this]
    norm_num
    ring

end Sys2Proof.Machine
end

