-- ==== Sys2Proof/Laws/Memory.lean ====
section
/-! SUPPORT. Buffer memory: read after write, the canonical form, ranges. -/

namespace Sys2Proof.Machine

/-! ## Reading one byte -/

@[simp] theorem Memory.read_nil (a : Nat) : Memory.read [] a = none := rfl

theorem Memory.read_cons (a' : Nat) (b : Byte) (m : Memory) (a : Nat) :
    Memory.read ((a', b) :: m) a = if a' = a then some b else Memory.read m a := rfl

/-- A write gives its byte the value. -/
@[simp] theorem Memory.read_write_same (m : Memory) (a : Nat) (b : Byte) : (m.write a b).read a = some b := by
  induction m with
  | nil => simp [Memory.write, Memory.read_cons]
  | cons c m ih =>
    obtain ⟨a', b'⟩ := c
    unfold Memory.write
    split
    · simp [Memory.read_cons]
    · split
      · simp [Memory.read_cons]
      · simp only [Memory.read_cons, ih, ite_eq_right_iff]
        intro h
        omega

/-- A write leaves every other byte alone. -/
theorem Memory.read_write_other (m : Memory) (a x : Nat) (b : Byte) (h : x ≠ a) :
    (m.write a b).read x = m.read x := by
  induction m with
  | nil => simp [Memory.write, Memory.read_cons, Ne.symm h]
  | cons c m ih =>
    obtain ⟨a', b'⟩ := c
    unfold Memory.write
    split
    · rw [Memory.read_cons, if_neg (Ne.symm h)]
    · split
      · rename_i h1 h2
        subst h2
        simp [Memory.read_cons, Ne.symm h]
      · simp [Memory.read_cons, ih]

/-- What a write leaves at every address. -/
theorem Memory.read_write (m : Memory) (a x : Nat) (b : Byte) :
    (m.write a b).read x = if x = a then some b else m.read x := by
  split
  · next h => subst h; simp
  · next h => exact Memory.read_write_other m a x b h

/-- What an erasure leaves at every address (R151). -/
theorem Memory.read_erase (m : Memory) (base size x : Nat) :
    (m.erase base size).read x = if base ≤ x ∧ x < base + size then none else m.read x := by
  induction m with
  | nil => simp [Memory.erase]
  | cons c m ih =>
    obtain ⟨a', b'⟩ := c
    unfold Memory.erase at ih ⊢
    rw [List.filter_cons]
    by_cases hx : a' = x
    · subst hx
      by_cases hin : base ≤ a' ∧ a' < base + size
      · simpa [hin] using ih
      · simp [hin, Memory.read_cons]
    · split
      · rw [Memory.read_cons, if_neg hx, ih, Memory.read_cons, if_neg hx]
      · rw [ih, Memory.read_cons, if_neg hx]

/-- What a run of writes leaves at every address (R33). -/
theorem Memory.read_writeBytes (m : Memory) (a x : Nat) (bs : List Byte) :
    (m.writeBytes a bs).read x = if a ≤ x ∧ x < a + bs.length then bs[x - a]? else m.read x := by
  induction bs generalizing m a with
  | nil => simp [Memory.writeBytes, show ¬ (a ≤ x ∧ x < a) by omega]
  | cons b bs ih =>
    rw [Memory.writeBytes, ih, Memory.read_write]
    by_cases h0 : x = a
    · subst h0
      simp
    · by_cases h1 : a + 1 ≤ x ∧ x < a + 1 + bs.length
      · have e : x - a = x - (a + 1) + 1 := by omega
        rw [if_pos h1, if_pos (by simp only [List.length_cons]; omega), e, List.getElem?_cons_succ]
      · rw [if_neg h1, if_neg h0, if_neg (by simp only [List.length_cons]; omega)]

/-- What a block write leaves at every address (R33). -/
theorem Memory.read_writeBlock (m : Memory) (a x : Nat) (b : Block) :
    (m.writeBlock a b).read x = if a ≤ x ∧ x < a + 16 then some (byteAt b (x - a)) else m.read x := by
  rw [Memory.writeBlock, Memory.read_writeBytes, length_blockBytes]
  split
  · next h =>
    have hi : x - a < 16 := by omega
    simp [blockBytes, List.getElem?_map, List.getElem?_range hi]
  · rfl

/-! ## Reading several bytes -/

theorem Memory.readBytes_eq_some {m : Memory} {a n : Nat} {bs : List Byte} :
    m.readBytes a n = some bs ↔ bs.length = n ∧ ∀ k < n, m.read (a + k) = bs[k]? := by
  induction n generalizing a bs with
  | zero =>
    simp only [Memory.readBytes, Option.some.injEq, Nat.not_lt_zero, false_implies, implies_true, and_true]
    exact ⟨fun h => by simp [← h], fun h => (List.length_eq_zero_iff.mp h).symm⟩
  | succ n ih =>
    unfold Memory.readBytes
    constructor
    · intro h
      split at h
      · next b bs' hb hbs =>
        obtain rfl : b :: bs' = bs := by simpa using h
        obtain ⟨hl, hr⟩ := ih.mp hbs
        refine ⟨by simp [hl], fun k hk => ?_⟩
        match k with
        | 0 => simpa using hb
        | k + 1 =>
          rw [show a + (k + 1) = a + 1 + k by omega, hr k (by omega), List.getElem?_cons_succ]
      · simp at h
    · rintro ⟨hl, hr⟩
      match bs, hl with
      | b :: bs', hl =>
        have h0 : m.read a = some b := by simpa using hr 0 (by omega)
        have h1 : m.readBytes (a + 1) n = some bs' := by
          refine ih.mpr ⟨by simpa using hl, fun k hk => ?_⟩
          rw [show a + 1 + k = a + (k + 1) by omega, hr (k + 1) (by omega), List.getElem?_cons_succ]
        simp [h0, h1]

/-- A block is read exactly when its 16 bytes hold values, byte k at offset k (R32, R34). -/
theorem Memory.readBlock_eq_some {m : Memory} {a : Nat} {b : Block} :
    m.readBlock a = some b ↔ ∀ k < 16, m.read (a + k) = some (byteAt b k) := by
  unfold Memory.readBlock
  constructor
  · intro h
    split at h
    · simp at h
    · next bs hbs =>
      obtain ⟨hl, hr⟩ := Memory.readBytes_eq_some.mp hbs
      obtain rfl : blockOfBytes bs = b := by simpa using h
      intro k hk
      rw [hr k hk, blockOfBytes, byteAt_blockOf _ k hk]
      simp [List.getD, hl, hk]
  · intro h
    have : m.readBytes a 16 = some (blockBytes b) := by
      refine Memory.readBytes_eq_some.mpr ⟨by simp, fun k hk => ?_⟩
      rw [h k hk]
      simp [blockBytes, List.getElem?_map, List.getElem?_range hk]
    simp [this]

/-- A block read after it was written is the block written. -/
theorem Memory.readBlock_writeBlock_same (m : Memory) (a : Nat) (b : Block) :
    (m.writeBlock a b).readBlock a = some b := by
  refine Memory.readBlock_eq_some.mpr fun k hk => ?_
  rw [Memory.read_writeBlock, if_pos (by omega)]
  congr 2
  omega

/-- A block write leaves a block that shares no byte with it alone. -/
theorem Memory.readBlock_writeBlock_other (m : Memory) (a x : Nat) (b : Block) (h : x + 16 ≤ a ∨ a + 16 ≤ x) :
    (m.writeBlock a b).readBlock x = m.readBlock x := by
  have H : ∀ c, (m.writeBlock a b).readBlock x = some c ↔ m.readBlock x = some c := by
    intro c
    simp only [Memory.readBlock_eq_some]
    refine forall₂_congr fun k hk => ?_
    rw [Memory.read_writeBlock, if_neg (by omega)]
  cases hc : m.readBlock x with
  | some c => exact (H c).mpr hc
  | none =>
    cases hw : (m.writeBlock a b).readBlock x with
    | none => rfl
    | some c => exact absurd ((H c).mp hw) (by simp [hc])

/-! ## The canonical form -/

theorem Memory.write_mem {m : Memory} {a : Nat} {b : Byte} {c : Host.Cell} (h : c ∈ m.write a b) :
    c = (a, b) ∨ c ∈ m := by
  induction m with
  | nil => simpa [Memory.write] using h
  | cons d m ih =>
    obtain ⟨a', b'⟩ := d
    unfold Memory.write at h
    split at h
    · simpa using h
    · split at h
      · rcases List.mem_cons.mp h with h | h
        · exact .inl h
        · exact .inr (List.mem_cons_of_mem _ h)
      · rcases List.mem_cons.mp h with h | h
        · exact .inr (by simp [h])
        · rcases ih h with h | h
          · exact .inl h
          · exact .inr (List.mem_cons_of_mem _ h)

/-- A write keeps the canonical form. -/
theorem Memory.wf_write {m : Memory} (h : m.wf) (a : Nat) (b : Byte) : (m.write a b).wf := by
  induction m with
  | nil => simp [Memory.write, Memory.wf]
  | cons d m ih =>
    obtain ⟨a', b'⟩ := d
    obtain ⟨h1, h2⟩ := List.pairwise_cons.mp h
    unfold Memory.write
    split
    · next hlt =>
      refine List.pairwise_cons.mpr ⟨fun c hc => ?_, h⟩
      rcases List.mem_cons.mp hc with hc | hc
      · simpa [hc] using hlt
      · exact Nat.lt_trans hlt (h1 c hc)
    · split
      · next he =>
        subst he
        exact List.pairwise_cons.mpr ⟨h1, h2⟩
      · next hn he =>
        refine List.pairwise_cons.mpr ⟨fun c hc => ?_, ih h2⟩
        rcases Memory.write_mem hc with hc | hc
        · subst hc; simp only; omega
        · exact h1 c hc

/-- A run of writes keeps the canonical form. -/
theorem Memory.wf_writeBytes {m : Memory} (h : m.wf) (a : Nat) (bs : List Byte) : (m.writeBytes a bs).wf := by
  induction bs generalizing m a with
  | nil => exact h
  | cons b bs ih => exact ih (Memory.wf_write h a b) (a + 1)

/-- A block write keeps the canonical form. -/
theorem Memory.wf_writeBlock {m : Memory} (h : m.wf) (a : Nat) (b : Block) : (m.writeBlock a b).wf :=
  Memory.wf_writeBytes h a _

/-- An erasure keeps the canonical form. -/
theorem Memory.wf_erase {m : Memory} (h : m.wf) (base size : Nat) : (m.erase base size).wf :=
  h.sublist List.filter_sublist

/-- In a canonical memory a listed byte is the byte read. -/
theorem Memory.read_eq_some_iff {m : Memory} (h : m.wf) (a : Nat) (b : Byte) : m.read a = some b ↔ (a, b) ∈ m := by
  induction m with
  | nil => simp
  | cons d m ih =>
    obtain ⟨a', b'⟩ := d
    obtain ⟨h1, h2⟩ := List.pairwise_cons.mp h
    rw [Memory.read_cons]
    by_cases he : a' = a
    · subst he
      rw [if_pos rfl]
      constructor
      · intro hb
        simp [Option.some.inj hb]
      · intro hb
        rcases List.mem_cons.mp hb with hb | hb
        · simp [(Prod.mk.inj hb).2]
        · exact absurd (h1 _ hb) (by simp)
    · rw [if_neg he, ih h2]
      simp [show ¬ (a = a' ∧ b = b') from fun hc => he hc.1.symm]

/-- Canonical memories that read alike are equal. -/
theorem Memory.ext {m k : Memory} (hm : m.wf) (hk : k.wf) (h : ∀ a, m.read a = k.read a) : m = k := by
  have nm : m.Nodup := hm.imp fun {p q} hpq => by rintro rfl; exact Nat.lt_irrefl _ hpq
  have nk : k.Nodup := hk.imp fun {p q} hpq => by rintro rfl; exact Nat.lt_irrefl _ hpq
  have hp : m.Perm k := (List.perm_ext_iff_of_nodup nm nk).mpr fun c => by
    obtain ⟨a, b⟩ := c
    rw [← Memory.read_eq_some_iff hm, ← Memory.read_eq_some_iff hk, h]
  refine hp.eq_of_pairwise (le := fun p q => p.1 < q.1) ?_ hm hk
  intro p q _ _ h1 h2
  omega

/-! ## Ranges -/

/-- Two ranges meet exactly when they share an address (R38). -/
theorem Range.meets_iff (r q : Range) : r.meets q = true ↔ ∃ a, r.has a ∧ q.has a := by
  simp only [Range.meets, decide_eq_true_eq, Range.has]
  constructor
  · rintro ⟨h1, h2, h3, h4⟩
    refine ⟨max r.base q.base, ?_, ?_⟩ <;> omega
  · rintro ⟨a, h1, h2⟩
    omega

/-- A range lies in the buffer memory exactly when it is empty or does not pass the top, and every address in
it is populated (R37). -/
theorem Range.inMemory_iff (p : Platform) (r : Range) :
    r.inMemory p = true ↔
      (r.size = 0 ∨ r.base + r.size ≤ 2 ^ p.AW) ∧ ∀ a, r.has a → populated p a = true := by
  simp only [Range.inMemory, populated, Bool.and_eq_true, decide_eq_true_eq, Bool.not_eq_true',
    List.any_eq_false]
  refine and_congr Iff.rfl ⟨fun h a ha hole hm hh => ?_, fun h hole hm hh => ?_⟩
  · exact h hole hm ((Range.meets_iff r hole).mpr ⟨a, ha, by simpa using hh⟩)
  · obtain ⟨a, ha, hb⟩ := (Range.meets_iff r hole).mp hh
    exact h a ha hole hm (by simpa using hb)

/-- A range is written exactly when every byte of it holds a value. -/
theorem Range.written_iff (m : Memory) (r : Range) :
    r.written m = true ↔ ∀ a, r.has a → (m.read a).isSome := by
  simp only [Range.written, List.all_eq_true, List.mem_range, Range.has]
  constructor
  · intro h a ha
    have := h (a - r.base) (by omega)
    rwa [show r.base + (a - r.base) = a by omega] at this
  · intro h k hk
    exact h _ (by omega)

end Sys2Proof.Machine
end

