-- ==== Sys2Proof/Laws/State.lean ====
section
/-! SUPPORT. One lemma per field per update of the state, so that no proof unfolds a record update. -/

namespace Sys2Proof.Machine

/-! ## Registers -/

section
variable {α : Type} (v : α) (r : Reg α)
@[simp] theorem Reg.holding_val : (Reg.holding v).val = v := rfl
@[simp] theorem Reg.holding_held : (Reg.holding v).held = true := rfl
@[simp] theorem Reg.holding_value : (Reg.holding v).value = some v := rfl
@[simp] theorem Reg.blank_val : (Reg.blank v).val = v := rfl
@[simp] theorem Reg.blank_held : (Reg.blank v).held = false := rfl
@[simp] theorem Reg.blank_value : (Reg.blank v).value = none := rfl
@[simp] theorem Reg.drop_val : r.drop.val = r.val := rfl
@[simp] theorem Reg.drop_held : r.drop.held = false := rfl
@[simp] theorem Reg.drop_value : r.drop.value = none := rfl
@[simp] theorem Reg.drop_drop : r.drop.drop = r.drop := rfl

/-- A register with a value is its value. -/
theorem Reg.value_eq_some {r : Reg α} {v : α} : r.value = some v ↔ r = .holding v := by
  obtain ⟨w, h⟩ := r
  cases h <;> simp [Reg.value, Reg.holding]

theorem Reg.value_eq_none {r : Reg α} : r.value = none ↔ r.held = false := by
  obtain ⟨w, h⟩ := r
  cases h <;> simp [Reg.value]

theorem Reg.eq_holding_of_held {r : Reg α} (h : r.held = true) : r = .holding r.val := by
  obtain ⟨w, b⟩ := r
  cases h
  rfl

theorem Reg.held_iff {r : Reg α} : r.held = true ↔ ∃ v, r = .holding v :=
  ⟨fun h => ⟨_, Reg.eq_holding_of_held h⟩, fun ⟨_, h⟩ => h ▸ rfl⟩

theorem Reg.holding_inj {v w : α} : Reg.holding v = Reg.holding w ↔ v = w := by
  simp [Reg.holding]
end

/-! ## Updates -/

variable (s : State)

section
variable (h : HostRegs)
@[simp] theorem HostRegs.setKEY_KEY (v) : (h.setKEY v).KEY = v := rfl
@[simp] theorem HostRegs.setKEY_IV (v) : (h.setKEY v).IV = h.IV := rfl
@[simp] theorem HostRegs.setKEY_DIN (v) : (h.setKEY v).DIN = h.DIN := rfl
@[simp] theorem HostRegs.setKEY_DOUT (v) : (h.setKEY v).DOUT = h.DOUT := rfl
@[simp] theorem HostRegs.setKEY_TAG (v) : (h.setKEY v).TAG = h.TAG := rfl
@[simp] theorem HostRegs.setKEY_PT_ADDR (v) : (h.setKEY v).PT_ADDR = h.PT_ADDR := rfl
@[simp] theorem HostRegs.setKEY_CT_ADDR (v) : (h.setKEY v).CT_ADDR = h.CT_ADDR := rfl
@[simp] theorem HostRegs.setKEY_AD_ADDR (v) : (h.setKEY v).AD_ADDR = h.AD_ADDR := rfl
@[simp] theorem HostRegs.setKEY_PT_BLOCKS (v) : (h.setKEY v).PT_BLOCKS = h.PT_BLOCKS := rfl
@[simp] theorem HostRegs.setKEY_AD_BLOCKS (v) : (h.setKEY v).AD_BLOCKS = h.AD_BLOCKS := rfl
@[simp] theorem HostRegs.setIV_KEY (v) : (h.setIV v).KEY = h.KEY := rfl
@[simp] theorem HostRegs.setIV_IV (v) : (h.setIV v).IV = v := rfl
@[simp] theorem HostRegs.setIV_DIN (v) : (h.setIV v).DIN = h.DIN := rfl
@[simp] theorem HostRegs.setIV_DOUT (v) : (h.setIV v).DOUT = h.DOUT := rfl
@[simp] theorem HostRegs.setIV_TAG (v) : (h.setIV v).TAG = h.TAG := rfl
@[simp] theorem HostRegs.setIV_PT_ADDR (v) : (h.setIV v).PT_ADDR = h.PT_ADDR := rfl
@[simp] theorem HostRegs.setIV_CT_ADDR (v) : (h.setIV v).CT_ADDR = h.CT_ADDR := rfl
@[simp] theorem HostRegs.setIV_AD_ADDR (v) : (h.setIV v).AD_ADDR = h.AD_ADDR := rfl
@[simp] theorem HostRegs.setIV_PT_BLOCKS (v) : (h.setIV v).PT_BLOCKS = h.PT_BLOCKS := rfl
@[simp] theorem HostRegs.setIV_AD_BLOCKS (v) : (h.setIV v).AD_BLOCKS = h.AD_BLOCKS := rfl
@[simp] theorem HostRegs.setDIN_KEY (v) : (h.setDIN v).KEY = h.KEY := rfl
@[simp] theorem HostRegs.setDIN_IV (v) : (h.setDIN v).IV = h.IV := rfl
@[simp] theorem HostRegs.setDIN_DIN (v) : (h.setDIN v).DIN = v := rfl
@[simp] theorem HostRegs.setDIN_DOUT (v) : (h.setDIN v).DOUT = h.DOUT := rfl
@[simp] theorem HostRegs.setDIN_TAG (v) : (h.setDIN v).TAG = h.TAG := rfl
@[simp] theorem HostRegs.setDIN_PT_ADDR (v) : (h.setDIN v).PT_ADDR = h.PT_ADDR := rfl
@[simp] theorem HostRegs.setDIN_CT_ADDR (v) : (h.setDIN v).CT_ADDR = h.CT_ADDR := rfl
@[simp] theorem HostRegs.setDIN_AD_ADDR (v) : (h.setDIN v).AD_ADDR = h.AD_ADDR := rfl
@[simp] theorem HostRegs.setDIN_PT_BLOCKS (v) : (h.setDIN v).PT_BLOCKS = h.PT_BLOCKS := rfl
@[simp] theorem HostRegs.setDIN_AD_BLOCKS (v) : (h.setDIN v).AD_BLOCKS = h.AD_BLOCKS := rfl
@[simp] theorem HostRegs.setDOUT_KEY (v) : (h.setDOUT v).KEY = h.KEY := rfl
@[simp] theorem HostRegs.setDOUT_IV (v) : (h.setDOUT v).IV = h.IV := rfl
@[simp] theorem HostRegs.setDOUT_DIN (v) : (h.setDOUT v).DIN = h.DIN := rfl
@[simp] theorem HostRegs.setDOUT_DOUT (v) : (h.setDOUT v).DOUT = v := rfl
@[simp] theorem HostRegs.setDOUT_TAG (v) : (h.setDOUT v).TAG = h.TAG := rfl
@[simp] theorem HostRegs.setDOUT_PT_ADDR (v) : (h.setDOUT v).PT_ADDR = h.PT_ADDR := rfl
@[simp] theorem HostRegs.setDOUT_CT_ADDR (v) : (h.setDOUT v).CT_ADDR = h.CT_ADDR := rfl
@[simp] theorem HostRegs.setDOUT_AD_ADDR (v) : (h.setDOUT v).AD_ADDR = h.AD_ADDR := rfl
@[simp] theorem HostRegs.setDOUT_PT_BLOCKS (v) : (h.setDOUT v).PT_BLOCKS = h.PT_BLOCKS := rfl
@[simp] theorem HostRegs.setDOUT_AD_BLOCKS (v) : (h.setDOUT v).AD_BLOCKS = h.AD_BLOCKS := rfl
@[simp] theorem HostRegs.setTAG_KEY (v) : (h.setTAG v).KEY = h.KEY := rfl
@[simp] theorem HostRegs.setTAG_IV (v) : (h.setTAG v).IV = h.IV := rfl
@[simp] theorem HostRegs.setTAG_DIN (v) : (h.setTAG v).DIN = h.DIN := rfl
@[simp] theorem HostRegs.setTAG_DOUT (v) : (h.setTAG v).DOUT = h.DOUT := rfl
@[simp] theorem HostRegs.setTAG_TAG (v) : (h.setTAG v).TAG = v := rfl
@[simp] theorem HostRegs.setTAG_PT_ADDR (v) : (h.setTAG v).PT_ADDR = h.PT_ADDR := rfl
@[simp] theorem HostRegs.setTAG_CT_ADDR (v) : (h.setTAG v).CT_ADDR = h.CT_ADDR := rfl
@[simp] theorem HostRegs.setTAG_AD_ADDR (v) : (h.setTAG v).AD_ADDR = h.AD_ADDR := rfl
@[simp] theorem HostRegs.setTAG_PT_BLOCKS (v) : (h.setTAG v).PT_BLOCKS = h.PT_BLOCKS := rfl
@[simp] theorem HostRegs.setTAG_AD_BLOCKS (v) : (h.setTAG v).AD_BLOCKS = h.AD_BLOCKS := rfl
@[simp] theorem HostRegs.setPT_ADDR_KEY (v) : (h.setPT_ADDR v).KEY = h.KEY := rfl
@[simp] theorem HostRegs.setPT_ADDR_IV (v) : (h.setPT_ADDR v).IV = h.IV := rfl
@[simp] theorem HostRegs.setPT_ADDR_DIN (v) : (h.setPT_ADDR v).DIN = h.DIN := rfl
@[simp] theorem HostRegs.setPT_ADDR_DOUT (v) : (h.setPT_ADDR v).DOUT = h.DOUT := rfl
@[simp] theorem HostRegs.setPT_ADDR_TAG (v) : (h.setPT_ADDR v).TAG = h.TAG := rfl
@[simp] theorem HostRegs.setPT_ADDR_PT_ADDR (v) : (h.setPT_ADDR v).PT_ADDR = v := rfl
@[simp] theorem HostRegs.setPT_ADDR_CT_ADDR (v) : (h.setPT_ADDR v).CT_ADDR = h.CT_ADDR := rfl
@[simp] theorem HostRegs.setPT_ADDR_AD_ADDR (v) : (h.setPT_ADDR v).AD_ADDR = h.AD_ADDR := rfl
@[simp] theorem HostRegs.setPT_ADDR_PT_BLOCKS (v) : (h.setPT_ADDR v).PT_BLOCKS = h.PT_BLOCKS := rfl
@[simp] theorem HostRegs.setPT_ADDR_AD_BLOCKS (v) : (h.setPT_ADDR v).AD_BLOCKS = h.AD_BLOCKS := rfl
@[simp] theorem HostRegs.setCT_ADDR_KEY (v) : (h.setCT_ADDR v).KEY = h.KEY := rfl
@[simp] theorem HostRegs.setCT_ADDR_IV (v) : (h.setCT_ADDR v).IV = h.IV := rfl
@[simp] theorem HostRegs.setCT_ADDR_DIN (v) : (h.setCT_ADDR v).DIN = h.DIN := rfl
@[simp] theorem HostRegs.setCT_ADDR_DOUT (v) : (h.setCT_ADDR v).DOUT = h.DOUT := rfl
@[simp] theorem HostRegs.setCT_ADDR_TAG (v) : (h.setCT_ADDR v).TAG = h.TAG := rfl
@[simp] theorem HostRegs.setCT_ADDR_PT_ADDR (v) : (h.setCT_ADDR v).PT_ADDR = h.PT_ADDR := rfl
@[simp] theorem HostRegs.setCT_ADDR_CT_ADDR (v) : (h.setCT_ADDR v).CT_ADDR = v := rfl
@[simp] theorem HostRegs.setCT_ADDR_AD_ADDR (v) : (h.setCT_ADDR v).AD_ADDR = h.AD_ADDR := rfl
@[simp] theorem HostRegs.setCT_ADDR_PT_BLOCKS (v) : (h.setCT_ADDR v).PT_BLOCKS = h.PT_BLOCKS := rfl
@[simp] theorem HostRegs.setCT_ADDR_AD_BLOCKS (v) : (h.setCT_ADDR v).AD_BLOCKS = h.AD_BLOCKS := rfl
@[simp] theorem HostRegs.setAD_ADDR_KEY (v) : (h.setAD_ADDR v).KEY = h.KEY := rfl
@[simp] theorem HostRegs.setAD_ADDR_IV (v) : (h.setAD_ADDR v).IV = h.IV := rfl
@[simp] theorem HostRegs.setAD_ADDR_DIN (v) : (h.setAD_ADDR v).DIN = h.DIN := rfl
@[simp] theorem HostRegs.setAD_ADDR_DOUT (v) : (h.setAD_ADDR v).DOUT = h.DOUT := rfl
@[simp] theorem HostRegs.setAD_ADDR_TAG (v) : (h.setAD_ADDR v).TAG = h.TAG := rfl
@[simp] theorem HostRegs.setAD_ADDR_PT_ADDR (v) : (h.setAD_ADDR v).PT_ADDR = h.PT_ADDR := rfl
@[simp] theorem HostRegs.setAD_ADDR_CT_ADDR (v) : (h.setAD_ADDR v).CT_ADDR = h.CT_ADDR := rfl
@[simp] theorem HostRegs.setAD_ADDR_AD_ADDR (v) : (h.setAD_ADDR v).AD_ADDR = v := rfl
@[simp] theorem HostRegs.setAD_ADDR_PT_BLOCKS (v) : (h.setAD_ADDR v).PT_BLOCKS = h.PT_BLOCKS := rfl
@[simp] theorem HostRegs.setAD_ADDR_AD_BLOCKS (v) : (h.setAD_ADDR v).AD_BLOCKS = h.AD_BLOCKS := rfl
@[simp] theorem HostRegs.setPT_BLOCKS_KEY (v) : (h.setPT_BLOCKS v).KEY = h.KEY := rfl
@[simp] theorem HostRegs.setPT_BLOCKS_IV (v) : (h.setPT_BLOCKS v).IV = h.IV := rfl
@[simp] theorem HostRegs.setPT_BLOCKS_DIN (v) : (h.setPT_BLOCKS v).DIN = h.DIN := rfl
@[simp] theorem HostRegs.setPT_BLOCKS_DOUT (v) : (h.setPT_BLOCKS v).DOUT = h.DOUT := rfl
@[simp] theorem HostRegs.setPT_BLOCKS_TAG (v) : (h.setPT_BLOCKS v).TAG = h.TAG := rfl
@[simp] theorem HostRegs.setPT_BLOCKS_PT_ADDR (v) : (h.setPT_BLOCKS v).PT_ADDR = h.PT_ADDR := rfl
@[simp] theorem HostRegs.setPT_BLOCKS_CT_ADDR (v) : (h.setPT_BLOCKS v).CT_ADDR = h.CT_ADDR := rfl
@[simp] theorem HostRegs.setPT_BLOCKS_AD_ADDR (v) : (h.setPT_BLOCKS v).AD_ADDR = h.AD_ADDR := rfl
@[simp] theorem HostRegs.setPT_BLOCKS_PT_BLOCKS (v) : (h.setPT_BLOCKS v).PT_BLOCKS = v := rfl
@[simp] theorem HostRegs.setPT_BLOCKS_AD_BLOCKS (v) : (h.setPT_BLOCKS v).AD_BLOCKS = h.AD_BLOCKS := rfl
@[simp] theorem HostRegs.setAD_BLOCKS_KEY (v) : (h.setAD_BLOCKS v).KEY = h.KEY := rfl
@[simp] theorem HostRegs.setAD_BLOCKS_IV (v) : (h.setAD_BLOCKS v).IV = h.IV := rfl
@[simp] theorem HostRegs.setAD_BLOCKS_DIN (v) : (h.setAD_BLOCKS v).DIN = h.DIN := rfl
@[simp] theorem HostRegs.setAD_BLOCKS_DOUT (v) : (h.setAD_BLOCKS v).DOUT = h.DOUT := rfl
@[simp] theorem HostRegs.setAD_BLOCKS_TAG (v) : (h.setAD_BLOCKS v).TAG = h.TAG := rfl
@[simp] theorem HostRegs.setAD_BLOCKS_PT_ADDR (v) : (h.setAD_BLOCKS v).PT_ADDR = h.PT_ADDR := rfl
@[simp] theorem HostRegs.setAD_BLOCKS_CT_ADDR (v) : (h.setAD_BLOCKS v).CT_ADDR = h.CT_ADDR := rfl
@[simp] theorem HostRegs.setAD_BLOCKS_AD_ADDR (v) : (h.setAD_BLOCKS v).AD_ADDR = h.AD_ADDR := rfl
@[simp] theorem HostRegs.setAD_BLOCKS_PT_BLOCKS (v) : (h.setAD_BLOCKS v).PT_BLOCKS = h.PT_BLOCKS := rfl
@[simp] theorem HostRegs.setAD_BLOCKS_AD_BLOCKS (v) : (h.setAD_BLOCKS v).AD_BLOCKS = v := rfl
@[simp] theorem HostRegs.setKEY_setKEY (v w) : (h.setKEY w).setKEY v = h.setKEY v := rfl
@[simp] theorem HostRegs.setKEY_self : h.setKEY h.KEY = h := rfl
@[simp] theorem HostRegs.setIV_setIV (v w) : (h.setIV w).setIV v = h.setIV v := rfl
@[simp] theorem HostRegs.setIV_self : h.setIV h.IV = h := rfl
@[simp] theorem HostRegs.setDIN_setDIN (v w) : (h.setDIN w).setDIN v = h.setDIN v := rfl
@[simp] theorem HostRegs.setDIN_self : h.setDIN h.DIN = h := rfl
@[simp] theorem HostRegs.setDOUT_setDOUT (v w) : (h.setDOUT w).setDOUT v = h.setDOUT v := rfl
@[simp] theorem HostRegs.setDOUT_self : h.setDOUT h.DOUT = h := rfl
@[simp] theorem HostRegs.setTAG_setTAG (v w) : (h.setTAG w).setTAG v = h.setTAG v := rfl
@[simp] theorem HostRegs.setTAG_self : h.setTAG h.TAG = h := rfl
@[simp] theorem HostRegs.setPT_ADDR_setPT_ADDR (v w) : (h.setPT_ADDR w).setPT_ADDR v = h.setPT_ADDR v := rfl
@[simp] theorem HostRegs.setPT_ADDR_self : h.setPT_ADDR h.PT_ADDR = h := rfl
@[simp] theorem HostRegs.setCT_ADDR_setCT_ADDR (v w) : (h.setCT_ADDR w).setCT_ADDR v = h.setCT_ADDR v := rfl
@[simp] theorem HostRegs.setCT_ADDR_self : h.setCT_ADDR h.CT_ADDR = h := rfl
@[simp] theorem HostRegs.setAD_ADDR_setAD_ADDR (v w) : (h.setAD_ADDR w).setAD_ADDR v = h.setAD_ADDR v := rfl
@[simp] theorem HostRegs.setAD_ADDR_self : h.setAD_ADDR h.AD_ADDR = h := rfl
@[simp] theorem HostRegs.setPT_BLOCKS_setPT_BLOCKS (v w) : (h.setPT_BLOCKS w).setPT_BLOCKS v = h.setPT_BLOCKS v := rfl
@[simp] theorem HostRegs.setPT_BLOCKS_self : h.setPT_BLOCKS h.PT_BLOCKS = h := rfl
@[simp] theorem HostRegs.setAD_BLOCKS_setAD_BLOCKS (v w) : (h.setAD_BLOCKS w).setAD_BLOCKS v = h.setAD_BLOCKS v := rfl
@[simp] theorem HostRegs.setAD_BLOCKS_self : h.setAD_BLOCKS h.AD_BLOCKS = h := rfl
end

section
variable (d : Datapath)
@[simp] theorem Datapath.setS_S (v) : (d.setS v).S = v := rfl
@[simp] theorem Datapath.setS_RK (v) : (d.setS v).RK = d.RK := rfl
@[simp] theorem Datapath.setS_H (v) : (d.setS v).H = d.H := rfl
@[simp] theorem Datapath.setS_CB (v) : (d.setS v).CB = d.CB := rfl
@[simp] theorem Datapath.setS_KS (v) : (d.setS v).KS = d.KS := rfl
@[simp] theorem Datapath.setS_X (v) : (d.setS v).X = d.X := rfl
@[simp] theorem Datapath.setS_Y (v) : (d.setS v).Y = d.Y := rfl
@[simp] theorem Datapath.setS_Z (v) : (d.setS v).Z = d.Z := rfl
@[simp] theorem Datapath.setS_V (v) : (d.setS v).V = d.V := rfl
@[simp] theorem Datapath.setS_LB (v) : (d.setS v).LB = d.LB := rfl
@[simp] theorem Datapath.setRK_S (v) : (d.setRK v).S = d.S := rfl
@[simp] theorem Datapath.setRK_RK (v) : (d.setRK v).RK = v := rfl
@[simp] theorem Datapath.setRK_H (v) : (d.setRK v).H = d.H := rfl
@[simp] theorem Datapath.setRK_CB (v) : (d.setRK v).CB = d.CB := rfl
@[simp] theorem Datapath.setRK_KS (v) : (d.setRK v).KS = d.KS := rfl
@[simp] theorem Datapath.setRK_X (v) : (d.setRK v).X = d.X := rfl
@[simp] theorem Datapath.setRK_Y (v) : (d.setRK v).Y = d.Y := rfl
@[simp] theorem Datapath.setRK_Z (v) : (d.setRK v).Z = d.Z := rfl
@[simp] theorem Datapath.setRK_V (v) : (d.setRK v).V = d.V := rfl
@[simp] theorem Datapath.setRK_LB (v) : (d.setRK v).LB = d.LB := rfl
@[simp] theorem Datapath.setH_S (v) : (d.setH v).S = d.S := rfl
@[simp] theorem Datapath.setH_RK (v) : (d.setH v).RK = d.RK := rfl
@[simp] theorem Datapath.setH_H (v) : (d.setH v).H = v := rfl
@[simp] theorem Datapath.setH_CB (v) : (d.setH v).CB = d.CB := rfl
@[simp] theorem Datapath.setH_KS (v) : (d.setH v).KS = d.KS := rfl
@[simp] theorem Datapath.setH_X (v) : (d.setH v).X = d.X := rfl
@[simp] theorem Datapath.setH_Y (v) : (d.setH v).Y = d.Y := rfl
@[simp] theorem Datapath.setH_Z (v) : (d.setH v).Z = d.Z := rfl
@[simp] theorem Datapath.setH_V (v) : (d.setH v).V = d.V := rfl
@[simp] theorem Datapath.setH_LB (v) : (d.setH v).LB = d.LB := rfl
@[simp] theorem Datapath.setCB_S (v) : (d.setCB v).S = d.S := rfl
@[simp] theorem Datapath.setCB_RK (v) : (d.setCB v).RK = d.RK := rfl
@[simp] theorem Datapath.setCB_H (v) : (d.setCB v).H = d.H := rfl
@[simp] theorem Datapath.setCB_CB (v) : (d.setCB v).CB = v := rfl
@[simp] theorem Datapath.setCB_KS (v) : (d.setCB v).KS = d.KS := rfl
@[simp] theorem Datapath.setCB_X (v) : (d.setCB v).X = d.X := rfl
@[simp] theorem Datapath.setCB_Y (v) : (d.setCB v).Y = d.Y := rfl
@[simp] theorem Datapath.setCB_Z (v) : (d.setCB v).Z = d.Z := rfl
@[simp] theorem Datapath.setCB_V (v) : (d.setCB v).V = d.V := rfl
@[simp] theorem Datapath.setCB_LB (v) : (d.setCB v).LB = d.LB := rfl
@[simp] theorem Datapath.setKS_S (v) : (d.setKS v).S = d.S := rfl
@[simp] theorem Datapath.setKS_RK (v) : (d.setKS v).RK = d.RK := rfl
@[simp] theorem Datapath.setKS_H (v) : (d.setKS v).H = d.H := rfl
@[simp] theorem Datapath.setKS_CB (v) : (d.setKS v).CB = d.CB := rfl
@[simp] theorem Datapath.setKS_KS (v) : (d.setKS v).KS = v := rfl
@[simp] theorem Datapath.setKS_X (v) : (d.setKS v).X = d.X := rfl
@[simp] theorem Datapath.setKS_Y (v) : (d.setKS v).Y = d.Y := rfl
@[simp] theorem Datapath.setKS_Z (v) : (d.setKS v).Z = d.Z := rfl
@[simp] theorem Datapath.setKS_V (v) : (d.setKS v).V = d.V := rfl
@[simp] theorem Datapath.setKS_LB (v) : (d.setKS v).LB = d.LB := rfl
@[simp] theorem Datapath.setX_S (v) : (d.setX v).S = d.S := rfl
@[simp] theorem Datapath.setX_RK (v) : (d.setX v).RK = d.RK := rfl
@[simp] theorem Datapath.setX_H (v) : (d.setX v).H = d.H := rfl
@[simp] theorem Datapath.setX_CB (v) : (d.setX v).CB = d.CB := rfl
@[simp] theorem Datapath.setX_KS (v) : (d.setX v).KS = d.KS := rfl
@[simp] theorem Datapath.setX_X (v) : (d.setX v).X = v := rfl
@[simp] theorem Datapath.setX_Y (v) : (d.setX v).Y = d.Y := rfl
@[simp] theorem Datapath.setX_Z (v) : (d.setX v).Z = d.Z := rfl
@[simp] theorem Datapath.setX_V (v) : (d.setX v).V = d.V := rfl
@[simp] theorem Datapath.setX_LB (v) : (d.setX v).LB = d.LB := rfl
@[simp] theorem Datapath.setY_S (v) : (d.setY v).S = d.S := rfl
@[simp] theorem Datapath.setY_RK (v) : (d.setY v).RK = d.RK := rfl
@[simp] theorem Datapath.setY_H (v) : (d.setY v).H = d.H := rfl
@[simp] theorem Datapath.setY_CB (v) : (d.setY v).CB = d.CB := rfl
@[simp] theorem Datapath.setY_KS (v) : (d.setY v).KS = d.KS := rfl
@[simp] theorem Datapath.setY_X (v) : (d.setY v).X = d.X := rfl
@[simp] theorem Datapath.setY_Y (v) : (d.setY v).Y = v := rfl
@[simp] theorem Datapath.setY_Z (v) : (d.setY v).Z = d.Z := rfl
@[simp] theorem Datapath.setY_V (v) : (d.setY v).V = d.V := rfl
@[simp] theorem Datapath.setY_LB (v) : (d.setY v).LB = d.LB := rfl
@[simp] theorem Datapath.setZ_S (v) : (d.setZ v).S = d.S := rfl
@[simp] theorem Datapath.setZ_RK (v) : (d.setZ v).RK = d.RK := rfl
@[simp] theorem Datapath.setZ_H (v) : (d.setZ v).H = d.H := rfl
@[simp] theorem Datapath.setZ_CB (v) : (d.setZ v).CB = d.CB := rfl
@[simp] theorem Datapath.setZ_KS (v) : (d.setZ v).KS = d.KS := rfl
@[simp] theorem Datapath.setZ_X (v) : (d.setZ v).X = d.X := rfl
@[simp] theorem Datapath.setZ_Y (v) : (d.setZ v).Y = d.Y := rfl
@[simp] theorem Datapath.setZ_Z (v) : (d.setZ v).Z = v := rfl
@[simp] theorem Datapath.setZ_V (v) : (d.setZ v).V = d.V := rfl
@[simp] theorem Datapath.setZ_LB (v) : (d.setZ v).LB = d.LB := rfl
@[simp] theorem Datapath.setV_S (v) : (d.setV v).S = d.S := rfl
@[simp] theorem Datapath.setV_RK (v) : (d.setV v).RK = d.RK := rfl
@[simp] theorem Datapath.setV_H (v) : (d.setV v).H = d.H := rfl
@[simp] theorem Datapath.setV_CB (v) : (d.setV v).CB = d.CB := rfl
@[simp] theorem Datapath.setV_KS (v) : (d.setV v).KS = d.KS := rfl
@[simp] theorem Datapath.setV_X (v) : (d.setV v).X = d.X := rfl
@[simp] theorem Datapath.setV_Y (v) : (d.setV v).Y = d.Y := rfl
@[simp] theorem Datapath.setV_Z (v) : (d.setV v).Z = d.Z := rfl
@[simp] theorem Datapath.setV_V (v) : (d.setV v).V = v := rfl
@[simp] theorem Datapath.setV_LB (v) : (d.setV v).LB = d.LB := rfl
@[simp] theorem Datapath.setLB_S (v) : (d.setLB v).S = d.S := rfl
@[simp] theorem Datapath.setLB_RK (v) : (d.setLB v).RK = d.RK := rfl
@[simp] theorem Datapath.setLB_H (v) : (d.setLB v).H = d.H := rfl
@[simp] theorem Datapath.setLB_CB (v) : (d.setLB v).CB = d.CB := rfl
@[simp] theorem Datapath.setLB_KS (v) : (d.setLB v).KS = d.KS := rfl
@[simp] theorem Datapath.setLB_X (v) : (d.setLB v).X = d.X := rfl
@[simp] theorem Datapath.setLB_Y (v) : (d.setLB v).Y = d.Y := rfl
@[simp] theorem Datapath.setLB_Z (v) : (d.setLB v).Z = d.Z := rfl
@[simp] theorem Datapath.setLB_V (v) : (d.setLB v).V = d.V := rfl
@[simp] theorem Datapath.setLB_LB (v) : (d.setLB v).LB = v := rfl
@[simp] theorem Datapath.setS_setS (v w) : (d.setS w).setS v = d.setS v := rfl
@[simp] theorem Datapath.setS_self : d.setS d.S = d := rfl
@[simp] theorem Datapath.setRK_setRK (v w) : (d.setRK w).setRK v = d.setRK v := rfl
@[simp] theorem Datapath.setRK_self : d.setRK d.RK = d := rfl
@[simp] theorem Datapath.setH_setH (v w) : (d.setH w).setH v = d.setH v := rfl
@[simp] theorem Datapath.setH_self : d.setH d.H = d := rfl
@[simp] theorem Datapath.setCB_setCB (v w) : (d.setCB w).setCB v = d.setCB v := rfl
@[simp] theorem Datapath.setCB_self : d.setCB d.CB = d := rfl
@[simp] theorem Datapath.setKS_setKS (v w) : (d.setKS w).setKS v = d.setKS v := rfl
@[simp] theorem Datapath.setKS_self : d.setKS d.KS = d := rfl
@[simp] theorem Datapath.setX_setX (v w) : (d.setX w).setX v = d.setX v := rfl
@[simp] theorem Datapath.setX_self : d.setX d.X = d := rfl
@[simp] theorem Datapath.setY_setY (v w) : (d.setY w).setY v = d.setY v := rfl
@[simp] theorem Datapath.setY_self : d.setY d.Y = d := rfl
@[simp] theorem Datapath.setZ_setZ (v w) : (d.setZ w).setZ v = d.setZ v := rfl
@[simp] theorem Datapath.setZ_self : d.setZ d.Z = d := rfl
@[simp] theorem Datapath.setV_setV (v w) : (d.setV w).setV v = d.setV v := rfl
@[simp] theorem Datapath.setV_self : d.setV d.V = d := rfl
@[simp] theorem Datapath.setLB_setLB (v w) : (d.setLB w).setLB v = d.setLB v := rfl
@[simp] theorem Datapath.setLB_self : d.setLB d.LB = d := rfl
end

section
variable (v : HostRegs)
@[simp] theorem withHost_plat : (s.withHost v).plat = s.plat := rfl
@[simp] theorem withHost_host : (s.withHost v).host = v := rfl
@[simp] theorem withHost_STATUS : (s.withHost v).STATUS = s.STATUS := rfl
@[simp] theorem withHost_seq : (s.withHost v).seq = s.seq := rfl
@[simp] theorem withHost_dp : (s.withHost v).dp = s.dp := rfl
@[simp] theorem withHost_MEM : (s.withHost v).MEM = s.MEM := rfl
@[simp] theorem withHost_out : (s.withHost v).out = s.out := rfl
@[simp] theorem withHost_agenda : (s.withHost v).agenda = s.agenda := rfl
@[simp] theorem withHost_replies : (s.withHost v).replies = s.replies := rfl
@[simp] theorem withHost_drawn : (s.withHost v).drawn = s.drawn := rfl
@[simp] theorem withHost_busy : (s.withHost v).busy = s.busy := rfl
@[simp] theorem withHost_isDone : (s.withHost v).isDone = s.isDone := rfl
@[simp] theorem withHost_delivered : (s.withHost v).delivered = s.delivered := rfl
@[simp] theorem withHost_portBlock : (s.withHost v).portBlock = s.portBlock := rfl
@[simp] theorem withHost_unseen : (s.withHost v).unseen = s.unseen := rfl
@[simp] theorem withHost_self : s.withHost s.host = s := rfl
@[simp] theorem withHost_withHost (w) : (s.withHost w).withHost v = s.withHost v := rfl
end

section
variable (v : Word)
@[simp] theorem withStatus_plat : (s.withStatus v).plat = s.plat := rfl
@[simp] theorem withStatus_host : (s.withStatus v).host = s.host := rfl
@[simp] theorem withStatus_STATUS : (s.withStatus v).STATUS = v := rfl
@[simp] theorem withStatus_seq : (s.withStatus v).seq = s.seq := rfl
@[simp] theorem withStatus_dp : (s.withStatus v).dp = s.dp := rfl
@[simp] theorem withStatus_MEM : (s.withStatus v).MEM = s.MEM := rfl
@[simp] theorem withStatus_out : (s.withStatus v).out = s.out := rfl
@[simp] theorem withStatus_agenda : (s.withStatus v).agenda = s.agenda := rfl
@[simp] theorem withStatus_replies : (s.withStatus v).replies = s.replies := rfl
@[simp] theorem withStatus_drawn : (s.withStatus v).drawn = s.drawn := rfl
@[simp] theorem withStatus_ptBlocks : (s.withStatus v).ptBlocks = s.ptBlocks := rfl
@[simp] theorem withStatus_adBlocks : (s.withStatus v).adBlocks = s.adBlocks := rfl
@[simp] theorem withStatus_delivered : (s.withStatus v).delivered = s.delivered := rfl
@[simp] theorem withStatus_portBlock : (s.withStatus v).portBlock = s.portBlock := rfl
@[simp] theorem withStatus_unseen : (s.withStatus v).unseen = s.unseen := rfl
@[simp] theorem withStatus_self : s.withStatus s.STATUS = s := rfl
@[simp] theorem withStatus_withStatus (w) : (s.withStatus w).withStatus v = s.withStatus v := rfl
end

section
variable (v : Sequencer)
@[simp] theorem withSeq_plat : (s.withSeq v).plat = s.plat := rfl
@[simp] theorem withSeq_host : (s.withSeq v).host = s.host := rfl
@[simp] theorem withSeq_STATUS : (s.withSeq v).STATUS = s.STATUS := rfl
@[simp] theorem withSeq_seq : (s.withSeq v).seq = v := rfl
@[simp] theorem withSeq_dp : (s.withSeq v).dp = s.dp := rfl
@[simp] theorem withSeq_MEM : (s.withSeq v).MEM = s.MEM := rfl
@[simp] theorem withSeq_out : (s.withSeq v).out = s.out := rfl
@[simp] theorem withSeq_agenda : (s.withSeq v).agenda = s.agenda := rfl
@[simp] theorem withSeq_replies : (s.withSeq v).replies = s.replies := rfl
@[simp] theorem withSeq_drawn : (s.withSeq v).drawn = s.drawn := rfl
@[simp] theorem withSeq_busy : (s.withSeq v).busy = s.busy := rfl
@[simp] theorem withSeq_isDone : (s.withSeq v).isDone = s.isDone := rfl
@[simp] theorem withSeq_ptBlocks : (s.withSeq v).ptBlocks = s.ptBlocks := rfl
@[simp] theorem withSeq_adBlocks : (s.withSeq v).adBlocks = s.adBlocks := rfl
@[simp] theorem withSeq_delivered : (s.withSeq v).delivered = s.delivered := rfl
@[simp] theorem withSeq_portBlock : (s.withSeq v).portBlock = s.portBlock := rfl
@[simp] theorem withSeq_unseen : (s.withSeq v).unseen = s.unseen := rfl
@[simp] theorem withSeq_self : s.withSeq s.seq = s := rfl
@[simp] theorem withSeq_withSeq (w) : (s.withSeq w).withSeq v = s.withSeq v := rfl
end

section
variable (v : Datapath)
@[simp] theorem withDp_plat : (s.withDp v).plat = s.plat := rfl
@[simp] theorem withDp_host : (s.withDp v).host = s.host := rfl
@[simp] theorem withDp_STATUS : (s.withDp v).STATUS = s.STATUS := rfl
@[simp] theorem withDp_seq : (s.withDp v).seq = s.seq := rfl
@[simp] theorem withDp_dp : (s.withDp v).dp = v := rfl
@[simp] theorem withDp_MEM : (s.withDp v).MEM = s.MEM := rfl
@[simp] theorem withDp_out : (s.withDp v).out = s.out := rfl
@[simp] theorem withDp_agenda : (s.withDp v).agenda = s.agenda := rfl
@[simp] theorem withDp_replies : (s.withDp v).replies = s.replies := rfl
@[simp] theorem withDp_drawn : (s.withDp v).drawn = s.drawn := rfl
@[simp] theorem withDp_busy : (s.withDp v).busy = s.busy := rfl
@[simp] theorem withDp_isDone : (s.withDp v).isDone = s.isDone := rfl
@[simp] theorem withDp_ptBlocks : (s.withDp v).ptBlocks = s.ptBlocks := rfl
@[simp] theorem withDp_adBlocks : (s.withDp v).adBlocks = s.adBlocks := rfl
@[simp] theorem withDp_delivered : (s.withDp v).delivered = s.delivered := rfl
@[simp] theorem withDp_portBlock : (s.withDp v).portBlock = s.portBlock := rfl
@[simp] theorem withDp_unseen : (s.withDp v).unseen = s.unseen := rfl
@[simp] theorem withDp_self : s.withDp s.dp = s := rfl
@[simp] theorem withDp_withDp (w) : (s.withDp w).withDp v = s.withDp v := rfl
end

section
variable (v : Memory)
@[simp] theorem withMem_plat : (s.withMem v).plat = s.plat := rfl
@[simp] theorem withMem_host : (s.withMem v).host = s.host := rfl
@[simp] theorem withMem_STATUS : (s.withMem v).STATUS = s.STATUS := rfl
@[simp] theorem withMem_seq : (s.withMem v).seq = s.seq := rfl
@[simp] theorem withMem_dp : (s.withMem v).dp = s.dp := rfl
@[simp] theorem withMem_MEM : (s.withMem v).MEM = v := rfl
@[simp] theorem withMem_out : (s.withMem v).out = s.out := rfl
@[simp] theorem withMem_agenda : (s.withMem v).agenda = s.agenda := rfl
@[simp] theorem withMem_replies : (s.withMem v).replies = s.replies := rfl
@[simp] theorem withMem_drawn : (s.withMem v).drawn = s.drawn := rfl
@[simp] theorem withMem_busy : (s.withMem v).busy = s.busy := rfl
@[simp] theorem withMem_isDone : (s.withMem v).isDone = s.isDone := rfl
@[simp] theorem withMem_ptBlocks : (s.withMem v).ptBlocks = s.ptBlocks := rfl
@[simp] theorem withMem_adBlocks : (s.withMem v).adBlocks = s.adBlocks := rfl
@[simp] theorem withMem_delivered : (s.withMem v).delivered = s.delivered := rfl
@[simp] theorem withMem_portBlock : (s.withMem v).portBlock = s.portBlock := rfl
@[simp] theorem withMem_unseen : (s.withMem v).unseen = s.unseen := rfl
@[simp] theorem withMem_self : s.withMem s.MEM = s := rfl
@[simp] theorem withMem_withMem (w) : (s.withMem w).withMem v = s.withMem v := rfl
end

section
variable (v : Option OpOut)
@[simp] theorem withOut_plat : (s.withOut v).plat = s.plat := rfl
@[simp] theorem withOut_host : (s.withOut v).host = s.host := rfl
@[simp] theorem withOut_STATUS : (s.withOut v).STATUS = s.STATUS := rfl
@[simp] theorem withOut_seq : (s.withOut v).seq = s.seq := rfl
@[simp] theorem withOut_dp : (s.withOut v).dp = s.dp := rfl
@[simp] theorem withOut_MEM : (s.withOut v).MEM = s.MEM := rfl
@[simp] theorem withOut_out : (s.withOut v).out = v := rfl
@[simp] theorem withOut_agenda : (s.withOut v).agenda = s.agenda := rfl
@[simp] theorem withOut_replies : (s.withOut v).replies = s.replies := rfl
@[simp] theorem withOut_drawn : (s.withOut v).drawn = s.drawn := rfl
@[simp] theorem withOut_busy : (s.withOut v).busy = s.busy := rfl
@[simp] theorem withOut_isDone : (s.withOut v).isDone = s.isDone := rfl
@[simp] theorem withOut_ptBlocks : (s.withOut v).ptBlocks = s.ptBlocks := rfl
@[simp] theorem withOut_adBlocks : (s.withOut v).adBlocks = s.adBlocks := rfl
@[simp] theorem withOut_unseen : (s.withOut v).unseen = s.unseen := rfl
@[simp] theorem withOut_self : s.withOut s.out = s := rfl
@[simp] theorem withOut_withOut (w) : (s.withOut w).withOut v = s.withOut v := rfl
end

section
variable (v : Unseen)
@[simp] theorem withUnseen_plat : (s.withUnseen v).plat = s.plat := rfl
@[simp] theorem withUnseen_host : (s.withUnseen v).host = s.host := rfl
@[simp] theorem withUnseen_STATUS : (s.withUnseen v).STATUS = s.STATUS := rfl
@[simp] theorem withUnseen_seq : (s.withUnseen v).seq = s.seq := rfl
@[simp] theorem withUnseen_dp : (s.withUnseen v).dp = s.dp := rfl
@[simp] theorem withUnseen_MEM : (s.withUnseen v).MEM = s.MEM := rfl
@[simp] theorem withUnseen_out : (s.withUnseen v).out = s.out := rfl
@[simp] theorem withUnseen_unseen : (s.withUnseen v).unseen = v := rfl
@[simp] theorem withUnseen_agenda : (s.withUnseen v).agenda = s.agenda := rfl
@[simp] theorem withUnseen_replies : (s.withUnseen v).replies = s.replies := rfl
@[simp] theorem withUnseen_drawn : (s.withUnseen v).drawn = s.drawn := rfl
@[simp] theorem withUnseen_busy : (s.withUnseen v).busy = s.busy := rfl
@[simp] theorem withUnseen_isDone : (s.withUnseen v).isDone = s.isDone := rfl
@[simp] theorem withUnseen_ptBlocks : (s.withUnseen v).ptBlocks = s.ptBlocks := rfl
@[simp] theorem withUnseen_adBlocks : (s.withUnseen v).adBlocks = s.adBlocks := rfl
@[simp] theorem withUnseen_delivered : (s.withUnseen v).delivered = s.delivered := rfl
@[simp] theorem withUnseen_portBlock : (s.withUnseen v).portBlock = s.portBlock := rfl
@[simp] theorem withUnseen_self : s.withUnseen s.unseen = s := rfl
@[simp] theorem withUnseen_withUnseen (w) : (s.withUnseen w).withUnseen v = s.withUnseen v := rfl
end

section
variable (v : List Turn)
@[simp] theorem withAgenda_plat : (s.withAgenda v).plat = s.plat := rfl
@[simp] theorem withAgenda_host : (s.withAgenda v).host = s.host := rfl
@[simp] theorem withAgenda_STATUS : (s.withAgenda v).STATUS = s.STATUS := rfl
@[simp] theorem withAgenda_seq : (s.withAgenda v).seq = s.seq := rfl
@[simp] theorem withAgenda_dp : (s.withAgenda v).dp = s.dp := rfl
@[simp] theorem withAgenda_MEM : (s.withAgenda v).MEM = s.MEM := rfl
@[simp] theorem withAgenda_out : (s.withAgenda v).out = s.out := rfl
@[simp] theorem withAgenda_agenda : (s.withAgenda v).agenda = v := rfl
@[simp] theorem withAgenda_replies : (s.withAgenda v).replies = s.replies := rfl
@[simp] theorem withAgenda_drawn : (s.withAgenda v).drawn = s.drawn := rfl
@[simp] theorem withAgenda_busy : (s.withAgenda v).busy = s.busy := rfl
@[simp] theorem withAgenda_isDone : (s.withAgenda v).isDone = s.isDone := rfl
@[simp] theorem withAgenda_ptBlocks : (s.withAgenda v).ptBlocks = s.ptBlocks := rfl
@[simp] theorem withAgenda_adBlocks : (s.withAgenda v).adBlocks = s.adBlocks := rfl
@[simp] theorem withAgenda_delivered : (s.withAgenda v).delivered = s.delivered := rfl
@[simp] theorem withAgenda_portBlock : (s.withAgenda v).portBlock = s.portBlock := rfl
@[simp] theorem withAgenda_unseen : (s.withAgenda v).unseen = s.unseen := rfl
@[simp] theorem withAgenda_self : s.withAgenda s.agenda = s := rfl
@[simp] theorem withAgenda_withAgenda (w) : (s.withAgenda w).withAgenda v = s.withAgenda v := rfl
end

section
variable (v : List Reply)
@[simp] theorem withReplies_plat : (s.withReplies v).plat = s.plat := rfl
@[simp] theorem withReplies_host : (s.withReplies v).host = s.host := rfl
@[simp] theorem withReplies_STATUS : (s.withReplies v).STATUS = s.STATUS := rfl
@[simp] theorem withReplies_seq : (s.withReplies v).seq = s.seq := rfl
@[simp] theorem withReplies_dp : (s.withReplies v).dp = s.dp := rfl
@[simp] theorem withReplies_MEM : (s.withReplies v).MEM = s.MEM := rfl
@[simp] theorem withReplies_out : (s.withReplies v).out = s.out := rfl
@[simp] theorem withReplies_agenda : (s.withReplies v).agenda = s.agenda := rfl
@[simp] theorem withReplies_replies : (s.withReplies v).replies = v := rfl
@[simp] theorem withReplies_drawn : (s.withReplies v).drawn = s.drawn := rfl
@[simp] theorem withReplies_busy : (s.withReplies v).busy = s.busy := rfl
@[simp] theorem withReplies_isDone : (s.withReplies v).isDone = s.isDone := rfl
@[simp] theorem withReplies_ptBlocks : (s.withReplies v).ptBlocks = s.ptBlocks := rfl
@[simp] theorem withReplies_adBlocks : (s.withReplies v).adBlocks = s.adBlocks := rfl
@[simp] theorem withReplies_delivered : (s.withReplies v).delivered = s.delivered := rfl
@[simp] theorem withReplies_portBlock : (s.withReplies v).portBlock = s.portBlock := rfl
@[simp] theorem withReplies_unseen : (s.withReplies v).unseen = s.unseen := rfl
@[simp] theorem withReplies_self : s.withReplies s.replies = s := rfl
@[simp] theorem withReplies_withReplies (w) : (s.withReplies w).withReplies v = s.withReplies v := rfl
end

section
variable (v : Nat)
@[simp] theorem withDrawn_plat : (s.withDrawn v).plat = s.plat := rfl
@[simp] theorem withDrawn_host : (s.withDrawn v).host = s.host := rfl
@[simp] theorem withDrawn_STATUS : (s.withDrawn v).STATUS = s.STATUS := rfl
@[simp] theorem withDrawn_seq : (s.withDrawn v).seq = s.seq := rfl
@[simp] theorem withDrawn_dp : (s.withDrawn v).dp = s.dp := rfl
@[simp] theorem withDrawn_MEM : (s.withDrawn v).MEM = s.MEM := rfl
@[simp] theorem withDrawn_out : (s.withDrawn v).out = s.out := rfl
@[simp] theorem withDrawn_agenda : (s.withDrawn v).agenda = s.agenda := rfl
@[simp] theorem withDrawn_replies : (s.withDrawn v).replies = s.replies := rfl
@[simp] theorem withDrawn_drawn : (s.withDrawn v).drawn = v := rfl
@[simp] theorem withDrawn_busy : (s.withDrawn v).busy = s.busy := rfl
@[simp] theorem withDrawn_isDone : (s.withDrawn v).isDone = s.isDone := rfl
@[simp] theorem withDrawn_ptBlocks : (s.withDrawn v).ptBlocks = s.ptBlocks := rfl
@[simp] theorem withDrawn_adBlocks : (s.withDrawn v).adBlocks = s.adBlocks := rfl
@[simp] theorem withDrawn_delivered : (s.withDrawn v).delivered = s.delivered := rfl
@[simp] theorem withDrawn_unseen : (s.withDrawn v).unseen = s.unseen := rfl
@[simp] theorem withDrawn_self : s.withDrawn s.drawn = s := rfl
@[simp] theorem withDrawn_withDrawn (w) : (s.withDrawn w).withDrawn v = s.withDrawn v := rfl
end

section
variable (v : OpOut)
@[simp] theorem deliver_plat : (s.deliver v).plat = s.plat := rfl
@[simp] theorem deliver_host : (s.deliver v).host = s.host := rfl
@[simp] theorem deliver_STATUS : (s.deliver v).STATUS = s.STATUS := rfl
@[simp] theorem deliver_seq : (s.deliver v).seq = s.seq := rfl
@[simp] theorem deliver_dp : (s.deliver v).dp = s.dp := rfl
@[simp] theorem deliver_MEM : (s.deliver v).MEM = s.MEM := rfl
@[simp] theorem deliver_out : (s.deliver v).out = some v := rfl
@[simp] theorem deliver_agenda : (s.deliver v).agenda = s.agenda := rfl
@[simp] theorem deliver_replies : (s.deliver v).replies = s.replies := rfl
@[simp] theorem deliver_drawn : (s.deliver v).drawn = s.drawn := rfl
@[simp] theorem deliver_unseen : (s.deliver v).unseen = s.unseen := rfl
@[simp] theorem deliver_busy : (s.deliver v).busy = s.busy := rfl
@[simp] theorem deliver_isDone : (s.deliver v).isDone = s.isDone := rfl
@[simp] theorem deliver_ptBlocks : (s.deliver v).ptBlocks = s.ptBlocks := rfl
@[simp] theorem deliver_adBlocks : (s.deliver v).adBlocks = s.adBlocks := rfl
@[simp] theorem deliver_block_delivered (b : Block) : (s.deliver (.block b)).delivered = some b := rfl
@[simp] theorem deliver_block_portBlock (b : Block) : (s.deliver (.block b)).portBlock = b := rfl
end

end Sys2Proof.Machine
end

