-- ==== Sys2Proof/Laws/Ops.lean ====
section
/-! SUPPORT. What each shared operation does, said once: sequencing and reading; one equation per operation; loops. -/

namespace Sys2Proof.Machine

/-! ## Sequencing and reading -/

@[simp] theorem andThen_next (s : State) (f : State → Result) : andThen (.next s) f = f s := rfl
@[simp] theorem andThen_fault (e : Fault) (f : State → Result) : andThen (.fault e) f = .fault e := rfl
@[simp] theorem andThen_refused (e : Refusal) (f : State → Result) : andThen (.refused e) f = .refused e := rfl

theorem andThen_assoc (r : Result) (f g : State → Result) :
    andThen (andThen r f) g = andThen r fun s => andThen (f s) g := by
  cases r <;> rfl

/-- A sequence answers next only through a next of its first part. -/
theorem andThen_eq_next {r : Result} {f : State → Result} {t : State} :
    andThen r f = .next t ↔ ∃ s, r = .next s ∧ f s = .next t := by
  cases r <;> simp

@[simp] theorem reading_some {α : Type} (v : α) (f : α → Result) : reading (some v) f = f v := rfl
@[simp] theorem reading_none {α : Type} (f : α → Result) : reading none f = .refused .rfNoValue := rfl

/-- A reading answers next only when there is a value. -/
theorem reading_eq_next {α : Type} {o : Option α} {f : α → Result} {t : State} :
    reading o f = .next t ↔ ∃ v, o = some v ∧ f v = .next t := by
  cases o <;> simp

theorem andThen_reading {α : Type} (o : Option α) (f : α → Result) (g : State → Result) :
    andThen (reading o f) g = reading o fun v => andThen (f v) g := by
  cases o <;> rfl

@[simp] theorem forBlocks_zero (f : Nat → State → Result) (i : Nat) (s : State) :
    forBlocks f 0 i s = .next s := rfl

theorem forBlocks_succ (f : Nat → State → Result) (n i : Nat) (s : State) :
    forBlocks f (n + 1) i s = andThen (f i s) (forBlocks f n (i + 1)) := rfl

/-- A loop answers next if every round does and keeps what the rounds need: `P i` holds before block `i`. -/
theorem forBlocks_next {f : Nat → State → Result} {P : Nat → State → Prop} (n i : Nat) (s : State) (h0 : P i s)
    (hf : ∀ j t, i ≤ j → j < i + n → P j t → ∃ u, f j t = .next u ∧ P (j + 1) u) :
    ∃ t, forBlocks f n i s = .next t ∧ P (i + n) t := by
  induction n generalizing i s with
  | zero => exact ⟨s, rfl, h0⟩
  | succ n ih =>
    obtain ⟨u, hu, hp⟩ := hf i s (Nat.le_refl _) (by omega) h0
    obtain ⟨t, ht, hq⟩ := ih (i + 1) u hp fun j v h1 h2 => hf j v (by omega) (by omega)
    exact ⟨t, by rw [forBlocks_succ, hu, andThen_next, ht], by rwa [show i + (n + 1) = i + 1 + n by omega]⟩

/-- Two loops one after the other. -/
theorem forBlocks_add (f : Nat → State → Result) (m n i : Nat) (s : State) :
    forBlocks f (m + n) i s = andThen (forBlocks f m i s) (forBlocks f n (i + m)) := by
  induction m generalizing i s with
  | zero => simp
  | succ m ih =>
    rw [show m + 1 + n = m + n + 1 by omega, forBlocks_succ, forBlocks_succ, andThen_assoc]
    congr 1
    funext t
    rw [ih, show i + 1 + m = i + (m + 1) by omega]

/-! ## Operations of the datapath -/

variable {s : State}

theorem opLdst_eq (b : Block) (s : State) :
    opLdst b s = .next (s.withDp (s.dp.setS (.holding (loadState b)))) := rfl

theorem opArk_eq {r : Nat} (hr : r ≤ 10) (s : State) :
    opArk r s = .next (s.withDp (s.dp.setS (.holding (addRoundKey (roundKey s.dp.RK.val r) s.dp.S.val)))) := by
  rw [opArk, if_pos hr]

theorem onState_eq (f : Matrix → Matrix) (s : State) :
    onState f s = .next (s.withDp (s.dp.setS (.holding (f s.dp.S.val)))) := rfl

theorem opStst_eq (s : State) : opStst s = .next (s.deliver (.block (storeState s.dp.S.val))) := rfl

theorem opKexp_eq (s : State) :
    opKexp s = .next (s.withDp (s.dp.setRK (.holding (expandKey s.host.KEY.val)))) := rfl

theorem opCipher_eq (b : Block) (s : State) :
    opCipher b s = .next ((s.withDp (s.dp.setS (.holding (cipherState s.dp.RK.val b)))).deliver
      (.block (cipherBlock s.dp.RK.val b))) := rfl

theorem opMkj0_eq (s : State) :
    opMkj0 s = .next (s.withDp (s.dp.setCB (.holding (initialCounter s.host.IV.val)))) := rfl

theorem opInc32_eq (s : State) :
    opInc32 s = .next (s.withDp (s.dp.setCB (.holding (incrementCounter s.dp.CB.val)))) := rfl

theorem opXor128_eq (a b : Block) (s : State) : opXor128 a b s = .next (s.deliver (.block (a ^^^ b))) := rfl

theorem opGfstep_eq (x : Bool) (s : State) :
    opGfstep x s = .next (s.withDp
      ((s.dp.setZ (.holding (gfNextZ x s.dp.Z.val s.dp.V.val))).setV (.holding (gfNextV s.dp.V.val)))) := rfl

theorem opGfmul_eq (a b : Block) (s : State) :
    opGfmul a b s = .next ((s.withDp
      ((s.dp.setZ (.holding (gfLoop a b).1)).setV (.holding (gfLoop a b).2))).deliver (.block (gfMul a b))) := rfl

theorem opLenblk_eq {a p : Nat} (h : a < 2 ^ 57 ∧ p < 2 ^ 57) (s : State) :
    opLenblk a p s = .next (s.withDp (s.dp.setLB (.holding (lengthBlock a p)))) := by
  rw [opLenblk, if_pos h]

theorem opHsub_eq (s : State) :
    opHsub s = .next ((s.withDp
      ((s.dp.setS (.holding (cipherState s.dp.RK.val 0))).setH (.holding (cipherBlock s.dp.RK.val 0)))).deliver
        (.block (cipherBlock s.dp.RK.val 0))) := rfl

/-- `KS <- CIPHER(CB)`. -/
theorem keystream_eq (s : State) :
    keystream s = .next ((s.withDp
      ((s.dp.setS (.holding (cipherState s.dp.RK.val s.dp.CB.val))).setKS
        (.holding (cipherBlock s.dp.RK.val s.dp.CB.val)))).deliver
          (.block (cipherBlock s.dp.RK.val s.dp.CB.val))) := rfl

theorem xorKeystream_eq (b : Block) (s : State) :
    xorKeystream b s = .next (s.deliver (.block (b ^^^ s.dp.KS.val))) := rfl

/-- `Y <- GFMUL(H, XOR128(Y, x))` (R117). -/
theorem hashBlock_eq (x : Block) (s : State) :
    hashBlock x s = .next ((s.withDp
      (((s.dp.setZ (.holding (gfLoop s.dp.H.val (s.dp.Y.val ^^^ x)).1)).setV
        (.holding (gfLoop s.dp.H.val (s.dp.Y.val ^^^ x)).2)).setY
          (.holding (gfMul s.dp.H.val (s.dp.Y.val ^^^ x))))).deliver
            (.block (gfMul s.dp.H.val (s.dp.Y.val ^^^ x)))) := rfl

/-- TAGENC (R119), for its counter block J0 and keystream block. -/
theorem opTagenc_eq {j c : Block} (hj : initialCounter s.host.IV.val = j) (hc : cipherBlock s.dp.RK.val j = c) :
    opTagenc s = .next (((s.withDp
      (((s.dp.setS (.holding (cipherState s.dp.RK.val j))).setCB (.holding (incrementCounter j))).setKS
        (.holding c))).withHost (s.host.setTAG (.holding (s.dp.Y.val ^^^ c)))).deliver
          (.block (s.dp.Y.val ^^^ c))) := by
  simp only [opTagenc, opMkj0_eq, keystream_eq, xorKeystream_eq, opInc32_eq, andThen_next, moveTo, hj, withDp_dp,
    Datapath.setCB_CB, Datapath.setCB_RK, Reg.holding_val, hc, deliver_block_portBlock]
  rfl

/-! ## Operations over memory -/

theorem block_of_base {r : RegionName} {i a : Nat} (ha : r.base s = some a) : r.block i s = a + 16 * i := by
  rw [RegionName.block, blockAddr, Reg.value_eq_some.mp ha, Reg.holding_val]

theorem loadBlock_eq {r : RegionName} {i a : Nat} {x : Block} (ha : r.base s = some a)
    (hx : s.MEM.readBlock (a + 16 * i) = some x) :
    loadBlock r i s = .next (s.withDp (s.dp.setX (.holding x))) := by
  simp [loadBlock, block_of_base ha, hx]

theorem storeBlock_eq {i a : Nat} {b : Block} (ha : RegionName.ct.base s = some a) (hb : s.delivered = some b) :
    storeBlock i s = .next (s.withMem (s.MEM.writeBlock (a + 16 * i) b)) := by
  simp [storeBlock, block_of_base ha, State.portBlock, hb]

/-! ## The flags -/

@[simp] theorem busy_issue (c : Command) (s : State) : (issue c s).busy = true := by
  simp [issue, State.busy, statusAtIssue]

@[simp] theorem isDone_issue (c : Command) (s : State) : (issue c s).isDone = false := by
  simp [issue, State.isDone, statusAtIssue]

@[simp] theorem busy_complete (s : State) : (complete s).busy = false := by
  simp [complete, State.busy, statusAtCompletion]

@[simp] theorem isDone_complete (s : State) : (complete s).isDone = true := by
  simp [complete, State.isDone, statusAtCompletion]

end Sys2Proof.Machine
end

