-- ==== Sys2Proof/Laws/Seal.lean ====
section
/-! SUPPORT. SEAL's regions and issue checks as the spec words them: a region's range holds exactly the addresses of
the region, and the checks pass exactly when no check of R122 fails. -/

namespace Sys2Proof.Machine

variable {s : State} {r : RegionName}

/-! ## Regions -/

theorem blocks_of_count {n : Nat} (h : r.count s = some n) : r.blocks s = n := by
  cases r <;> simp_all [RegionName.count, RegionName.blocks, State.ptBlocks, State.adBlocks]

/-- The addresses of a range are those of the region, once the registers that are read hold values (R31). -/
theorem range_has_iff {n : Nat} (hc : r.count s = some n) (hb : 0 < n → r.base s ≠ none) (x : Nat) :
    (r.range s).has x ↔ s.InRegion r x := by
  have hn := blocks_of_count hc
  unfold RegionName.range State.InRegion
  rw [hn, hc]
  by_cases h0 : n = 0
  · subst h0
    simp [Range.has]
  · rw [if_neg h0]
    obtain ⟨a, ha⟩ := Option.ne_none_iff_exists'.mp (hb (by omega))
    simp [ha, Range.has]

/-- The range of a region that is not empty (R31). -/
theorem range_of_hasRegion {base n : Nat} (h : s.HasRegion r base n) : r.range s = { base := base, size := 16 * n } := by
  obtain ⟨hb, hc, hn⟩ := h
  simp [RegionName.range, blocks_of_count hc, hb, Nat.ne_of_gt hn]

/-- Addresses exist exactly when their range lies in the buffer memory (R30, R37). -/
theorem addressesExist_iff (addr n : Nat) :
    s.AddressesExist addr n ↔ ({ base := addr, size := n } : Range).inMemory s.plat = true := by
  rw [Range.inMemory_iff]
  simp only [State.AddressesExist, Range.has]
  constructor
  · intro h
    refine ⟨?_, fun a ha => ?_⟩
    · by_cases h0 : n = 0
      · exact .inl h0
      · have := (h (n - 1) (by omega)).1
        exact .inr (by omega)
    · have := (h (a - addr) (by omega)).2
      rwa [show addr + (a - addr) = a by omega] at this
  · rintro ⟨h1, h2⟩ k hk
    exact ⟨by omega, h2 _ (by omega)⟩

/-! ## The checks -/

/-- What the passing of SEAL's checks says, in the form the meaning uses it. -/
structure SealAccepted (s : State) (key : Block) (iv : Nonce) (p a : Nat) : Prop where
  busy : s.busy = false
  key : s.host.KEY = .holding key
  iv : s.host.IV = .holding iv
  ptBlocks : s.host.PT_BLOCKS = .holding p
  adBlocks : s.host.AD_BLOCKS = .holding a
  ptBased : 0 < p → s.host.PT_ADDR.held = true ∧ s.host.CT_ADDR.held = true
  adBased : 0 < a → s.host.AD_ADDR.held = true
  inside : ∀ r : RegionName, (r.range s).inMemory s.plat = true
  ctPt : (RegionName.ct.range s).meets (RegionName.pt.range s) = false
  ctAd : (RegionName.ct.range s).meets (RegionName.ad.range s) = false
  ptWritten : (RegionName.pt.range s).written s.MEM = true
  adWritten : (RegionName.ad.range s).written s.MEM = true

theorem base_ne_none {g : Reg Nat} (h : g.held = true) : g.value ≠ none := by
  rw [ne_eq, Reg.value_eq_none, h]
  simp

theorem sealCheck_eq_none_iff_accepted :
    sealCheck s = none ↔ ∃ key iv p a, SealAccepted s key iv p a := by
  constructor
  · intro h
    unfold sealCheck at h
    split at h
    · simp at h
    next h1 =>
    split at h
    · simp at h
    next h2 =>
    split at h
    · simp at h
    next h3 =>
    split at h
    · simp at h
    next h4 =>
    split at h
    · simp at h
    next h5 =>
    split at h
    · simp at h
    next h6 =>
    simp only [Bool.or_eq_true, Bool.not_eq_true', not_or, Bool.not_eq_false] at h2
    obtain ⟨⟨⟨hk, hi⟩, hp⟩, ha⟩ := h2
    obtain ⟨key, hk⟩ := Reg.held_iff.mp hk
    obtain ⟨iv, hi⟩ := Reg.held_iff.mp hi
    obtain ⟨p, hp⟩ := Reg.held_iff.mp hp
    obtain ⟨a, ha⟩ := Reg.held_iff.mp ha
    simp [State.ptBlocks, State.adBlocks, hp, ha] at h3
    simp at h1 h4 h5 h6
    exact ⟨key, iv, p, a,
      { busy := h1, key := hk, iv := hi, ptBlocks := hp, adBlocks := ha
        ptBased := h3.1, adBased := h3.2
        inside := fun r => by cases r <;> simp [h4]
        ctPt := h5.1, ctAd := h5.2, ptWritten := h6.1, adWritten := h6.2 }⟩
  · rintro ⟨key, iv, p, a, h⟩
    have h3 : ((decide (0 < p) && (!s.host.PT_ADDR.held || !s.host.CT_ADDR.held))
        || (decide (0 < a) && !s.host.AD_ADDR.held)) = false := by
      have h1 := h.ptBased
      have h2 := h.adBased
      simp
      exact ⟨h1, h2⟩
    simp only [sealCheck, State.ptBlocks, State.adBlocks, h.busy, h.key, h.iv, h.ptBlocks, h.adBlocks, h.inside, h.ctPt,
      h.ctAd, h.ptWritten, h.adWritten, Reg.holding_value, Reg.holding_held, Option.getD_some, h3]
    simp

theorem SealAccepted.counted {key : Block} {iv : Nonce} {p a : Nat} (h : SealAccepted s key iv p a) (r : RegionName) :
    ∃ n, r.count s = some n ∧ (0 < n → r.base s ≠ none) := by
  cases r
  · exact ⟨p, Reg.value_eq_some.mpr h.ptBlocks, fun hp => base_ne_none (h.ptBased hp).1⟩
  · exact ⟨p, Reg.value_eq_some.mpr h.ptBlocks, fun hp => base_ne_none (h.ptBased hp).2⟩
  · exact ⟨a, Reg.value_eq_some.mpr h.adBlocks, fun ha => base_ne_none (h.adBased ha)⟩

theorem SealAccepted.has_iff {key : Block} {iv : Nonce} {p a : Nat} (h : SealAccepted s key iv p a) (r : RegionName)
    (x : Nat) : (r.range s).has x ↔ s.InRegion r x := by
  obtain ⟨n, hc, hb⟩ := h.counted r
  exact range_has_iff hc hb x

theorem SealAccepted.passes {key : Block} {iv : Nonce} {p a : Nat} (h : SealAccepted s key iv p a) (k : Nat) :
    ¬ s.SealFails k := by
  intro hk
  unfold State.SealFails at hk
  split at hk
  · simp [h.busy] at hk
  · simp [h.key, h.iv, h.ptBlocks, h.adBlocks] at hk
  · rcases hk with ⟨n, hn, h0, hk⟩ | ⟨n, hn, h0, hk⟩
    · obtain rfl : p = n := Reg.holding_inj.mp (h.ptBlocks.symm.trans hn)
      rcases hk with hk | hk
      · simp [(h.ptBased h0).1] at hk
      · simp [(h.ptBased h0).2] at hk
    · obtain rfl : a = n := Reg.holding_inj.mp (h.adBlocks.symm.trans hn)
      simp [h.adBased h0] at hk
  · obtain ⟨r, base, n, hr, hk⟩ := hk
    have hi := (Range.inMemory_iff _ _).mp (h.inside r)
    rw [range_of_hasRegion hr] at hi
    rcases hk with hk | ⟨x, h1, h2, h3⟩
    · have := hr.2.2
      have := hi.1
      simp only at this
      omega
    · simp [hi.2 x ⟨h1, h2⟩] at h3
  · obtain ⟨x, hc, ho⟩ := hk
    rw [← h.has_iff, ← h.has_iff] at ho
    rw [← h.has_iff] at hc
    rcases ho with ho | ho
    · simpa [h.ctPt] using (Range.meets_iff _ _).mpr ⟨x, hc, ho⟩
    · simpa [h.ctAd] using (Range.meets_iff _ _).mpr ⟨x, hc, ho⟩
  · obtain ⟨x, ho, hn⟩ := hk
    rw [← h.has_iff, ← h.has_iff] at ho
    rcases ho with ho | ho
    · simpa [hn] using (Range.written_iff _ _).mp h.ptWritten x ho
    · simpa [hn] using (Range.written_iff _ _).mp h.adWritten x ho
  · exact hk

theorem accepted_of_passes (h : ∀ k, ¬ s.SealFails k) : ∃ key iv p a, SealAccepted s key iv p a := by
  have h1 : s.busy = false := by simpa [State.SealFails] using h 1
  have h2 := h 2
  simp only [State.SealFails, not_or, Bool.not_eq_false] at h2
  obtain ⟨hk, hi, hp, ha⟩ := h2
  obtain ⟨key, hk⟩ := Reg.held_iff.mp hk
  obtain ⟨iv, hi⟩ := Reg.held_iff.mp hi
  obtain ⟨p, hp⟩ := Reg.held_iff.mp hp
  obtain ⟨a, ha⟩ := Reg.held_iff.mp ha
  have hb : 0 < p → s.host.PT_ADDR.held = true ∧ s.host.CT_ADDR.held = true := fun h0 =>
    ⟨Bool.not_eq_false _ ▸ fun hn => h 3 (.inl ⟨p, hp, h0, .inl hn⟩),
      Bool.not_eq_false _ ▸ fun hn => h 3 (.inl ⟨p, hp, h0, .inr hn⟩)⟩
  have hd : 0 < a → s.host.AD_ADDR.held = true := fun h0 =>
    Bool.not_eq_false _ ▸ fun hn => h 3 (.inr ⟨a, ha, h0, hn⟩)
  have hcount : ∀ r : RegionName, ∃ n, r.count s = some n ∧ (0 < n → r.base s ≠ none) := by
    intro r
    cases r
    · exact ⟨p, Reg.value_eq_some.mpr hp, fun h0 => base_ne_none (hb h0).1⟩
    · exact ⟨p, Reg.value_eq_some.mpr hp, fun h0 => base_ne_none (hb h0).2⟩
    · exact ⟨a, Reg.value_eq_some.mpr ha, fun h0 => base_ne_none (hd h0)⟩
  have has : ∀ (r : RegionName) (x : Nat), (r.range s).has x ↔ s.InRegion r x := by
    intro r x
    obtain ⟨n, hc, hn⟩ := hcount r
    exact range_has_iff hc hn x
  have apart : ∀ r : RegionName, r = .pt ∨ r = .ad → (RegionName.ct.range s).meets (r.range s) = false := by
    intro r hr
    by_contra hm
    obtain ⟨x, hx, hy⟩ := (Range.meets_iff _ _).mp (by simpa using hm)
    rw [has] at hx hy
    refine h 5 ⟨x, hx, ?_⟩
    rcases hr with rfl | rfl
    · exact .inl hy
    · exact .inr hy
  have written : ∀ r : RegionName, r = .pt ∨ r = .ad → (r.range s).written s.MEM = true := by
    intro r hr
    refine (Range.written_iff _ _).mpr fun x hx => ?_
    rw [has] at hx
    by_contra hn
    refine h 6 ⟨x, ?_, by simpa using hn⟩
    rcases hr with rfl | rfl
    · exact .inl hx
    · exact .inr hx
  refine ⟨key, iv, p, a,
    { busy := h1, key := hk, iv := hi, ptBlocks := hp, adBlocks := ha, ptBased := hb, adBased := hd, inside := ?_
      ctPt := apart .pt (.inl rfl), ctAd := apart .ad (.inr rfl)
      ptWritten := written .pt (.inl rfl), adWritten := written .ad (.inr rfl) }⟩
  intro r
  obtain ⟨n, hc, hn⟩ := hcount r
  refine (Range.inMemory_iff _ _).mpr ?_
  by_cases h0 : n = 0
  · subst h0
    simp [RegionName.range, blocks_of_count hc, Range.has]
  · obtain ⟨base, hbase⟩ := Option.ne_none_iff_exists'.mp (hn (by omega))
    have hr : s.HasRegion r base n := ⟨hbase, hc, by omega⟩
    rw [range_of_hasRegion hr]
    constructor
    · refine .inr ?_
      by_contra hlt
      exact h 4 ⟨r, base, n, hr, .inl (by simpa using hlt)⟩
    · intro x hx
      by_contra hpop
      exact h 4 ⟨r, base, n, hr, .inr ⟨x, hx.1, hx.2, by simpa using hpop⟩⟩

/-- SEAL's issue checks pass exactly when no check of R122 fails. -/
theorem sealCheck_eq_none_iff : sealCheck s = none ↔ ∀ k, ¬ s.SealFails k := by
  rw [sealCheck_eq_none_iff_accepted]
  exact ⟨fun ⟨_, _, _, _, h⟩ => h.passes, accepted_of_passes⟩

/-! ## Sound regions -/

/-- A SEAL that is accepted has sound regions. -/
theorem SealAccepted.regionsSound {key : Block} {iv : Nonce} {p a : Nat} (h : SealAccepted s key iv p a) :
    s.RegionsSound where
  counted r := by
    obtain ⟨n, hn, _⟩ := h.counted r
    simp [hn]
  based r n hn := by
    obtain ⟨m, hm, hb⟩ := h.counted r
    obtain rfl : m = n := by simpa [hm] using hn
    exact hb
  inside r x hx := by
    have hr := (h.has_iff r x).mpr hx
    have hi := (Range.inMemory_iff _ _).mp (h.inside r)
    have hp := hi.2 x hr
    refine ⟨?_, hp⟩
    have h1 := hi.1
    simp only [Range.has] at hr
    omega
  apart x hc := by
    refine ⟨fun ho => h.passes 5 ⟨x, hc, .inl ho⟩, fun ho => h.passes 5 ⟨x, hc, .inr ho⟩⟩

/-- The regions depend on the bases, the counts and the platform only. -/
theorem State.RegionsSound.congr {t : State} (hb : ∀ r : RegionName, r.base t = r.base s)
    (hc : ∀ r : RegionName, r.count t = r.count s) (hp : t.plat = s.plat) (h : s.RegionsSound) : t.RegionsSound := by
  have hr : ∀ r x, t.InRegion r x ↔ s.InRegion r x := fun r x => by simp [State.InRegion, hb, hc]
  exact
    { counted := fun r => by simpa [hc] using h.counted r
      based := fun r n hn => by simpa [hb] using h.based r n (by simpa [hc] using hn)
      inside := fun r x hx => by simpa [hp] using h.inside r x ((hr r x).mp hx)
      apart := fun x hx => by simpa [hr] using h.apart x ((hr .ct x).mp hx) }

/-! ## The host's accesses to memory -/

/-- A range shares an address with a region of the command in progress exactly when an access to it touches one
(R42), the regions of a SEAL in progress being sound. -/
theorem inRunningRegion_iff (h : s.seq.pos.op = some .sealMessage → s.RegionsSound) (addr n : Nat) :
    s.inRunningRegion { base := addr, size := n } = true ↔ s.TouchesRunningRegion addr n := by
  by_cases hop : s.seq.pos.op = some .sealMessage
  · have hr := h hop
    have meets : ∀ r : RegionName, ({ base := addr, size := n } : Range).meets (r.range s) = true ↔
        ∃ k < n, s.InRegion r (addr + k) := by
      intro r
      obtain ⟨m, hm⟩ := Option.ne_none_iff_exists'.mp (hr.counted r)
      rw [Range.meets_iff]
      simp only [range_has_iff hm (hr.based r m hm)]
      constructor
      · rintro ⟨x, ⟨h1, h2⟩, hx⟩
        exact ⟨x - addr, by simp only at h1 h2; omega, by rwa [show addr + (x - addr) = x by simp only at h1; omega]⟩
      · rintro ⟨k, hk, hx⟩
        exact ⟨addr + k, ⟨by simp, by simpa using hk⟩, hx⟩
    simp only [State.inRunningRegion, hop, Bool.or_eq_true, meets, State.TouchesRunningRegion, true_and]
    constructor
    · rintro ((⟨k, hk⟩ | ⟨k, hk⟩) | ⟨k, hk⟩)
      · exact ⟨.pt, k, hk⟩
      · exact ⟨.ct, k, hk⟩
      · exact ⟨.ad, k, hk⟩
    · rintro ⟨r, k, hk⟩
      cases r
      · exact .inl (.inl ⟨k, hk⟩)
      · exact .inl (.inr ⟨k, hk⟩)
      · exact .inr ⟨k, hk⟩
  · simp only [State.TouchesRunningRegion, hop, false_and, iff_false, Bool.not_eq_true]
    cases ho : s.seq.pos.op with
    | none => simp [State.inRunningRegion, ho]
    | some c => cases c <;> simp_all [State.inRunningRegion]

/-- What a host access to memory does: refused while BUSY on a region of the command (R42), else refused for the reason
given where an address does not exist, else allowed. -/
theorem hostAccess_cases (addr n : Nat) (missing : Refusal) (f : Result) :
    (s.busy = true ∧ s.inRunningRegion { base := addr, size := n } = true
      ∧ hostAccess addr n missing s f = .refused .rfBusy)
    ∨ (¬ (s.busy = true ∧ s.inRunningRegion { base := addr, size := n } = true) ∧ ¬ s.AddressesExist addr n
      ∧ hostAccess addr n missing s f = .refused missing)
    ∨ (¬ (s.busy = true ∧ s.inRunningRegion { base := addr, size := n } = true) ∧ s.AddressesExist addr n
      ∧ hostAccess addr n missing s f = f) := by
  rw [addressesExist_iff]
  unfold hostAccess
  by_cases h1 : s.busy = true ∧ s.inRunningRegion { base := addr, size := n } = true
  · exact .inl ⟨h1.1, h1.2, by simp [h1]⟩
  · have hb : (s.busy && s.inRunningRegion { base := addr, size := n }) = false := by simpa using h1
    by_cases h2 : ({ base := addr, size := n } : Range).inMemory s.plat = true
    · exact .inr (.inr ⟨h1, h2, by simp [hb, h2]⟩)
    · exact .inr (.inl ⟨h1, h2, by simp [hb, h2]⟩)

end Sys2Proof.Machine
end

