-- ==== Sys2Proof/Laws/Sequencer.lean ====
section
/-! SUPPORT. What one micro-operation of the sequencer can change, said once, and what advancing the position does. -/

namespace Sys2Proof.Machine

/-- What a micro-operation other than the completion leaves: the platform, the operand registers and DOUT, STATUS,
the sequencer, the turns, the replies, the results not shown and the free values drawn; memory but for a store; CB but
for MKJ0 and INC32. -/
structure Micro.Effect (m : Micro) (s t : State) : Prop where
  plat : t.plat = s.plat
  host : t.host = { s.host with TAG := t.host.TAG }
  status : t.STATUS = s.STATUS
  seq : t.seq = s.seq
  agenda : t.agenda = s.agenda
  replies : t.replies = s.replies
  unseen : t.unseen = s.unseen
  drawn : t.drawn = s.drawn
  mem : t.MEM = s.MEM ∨ (m = .store ∧ t.MEM = s.MEM.writeBlock (RegionName.ct.block s.seq.pos.blk s) s.portBlock)
  counter : t.dp.CB = s.dp.CB ∨ (m = .mkj0 ∧ t.dp.CB = .holding (initialCounter s.host.IV.val))
    ∨ (m = .inc32 ∧ t.dp.CB = .holding (incrementCounter s.dp.CB.val))

/-- A state with other scratch registers. -/
theorem Micro.effect_of_scratch (m : Micro) (s : State) (d : Datapath) (o : Option OpOut)
    (h : d.CB = s.dp.CB ∨ (m = .mkj0 ∧ d.CB = .holding (initialCounter s.host.IV.val))
      ∨ (m = .inc32 ∧ d.CB = .holding (incrementCounter s.dp.CB.val))) :
    Micro.Effect m s { s with dp := d, out := o } :=
  { plat := rfl, host := rfl, status := rfl, seq := rfl, agenda := rfl, replies := rfl, unseen := rfl, drawn := rfl
    mem := .inl rfl, counter := h }

/-- A move has an effect of the same shape. -/
theorem Micro.move_effect {d : Dst} {s t : State} (h : moveTo d s = .next t) : (Micro.move d).Effect s t := by
  cases d <;> cases h <;> exact
    { plat := rfl, host := rfl, status := rfl, seq := rfl, agenda := rfl, replies := rfl, unseen := rfl, drawn := rfl
      mem := .inl rfl, counter := .inl rfl }

/-- Every micro-operation but the completion has an effect of this shape whenever it answers next. -/
theorem Micro.run_effect {m : Micro} {s t : State} (hm : m ≠ .finish) (h : m.run s = .next t) : m.Effect s t := by
  cases m with
  | finish => exact absurd rfl hm
  | kexp | ldst | subb | shrow | mixc | gfstep | clearY | seed =>
    cases h
    exact Micro.effect_of_scratch _ s _ s.out (.inl rfl)
  | stst | xor128 | product =>
    cases h
    exact Micro.effect_of_scratch _ s s.dp _ (.inl rfl)
  | mkj0 =>
    cases h
    exact Micro.effect_of_scratch _ s _ s.out (.inr (.inl ⟨rfl, rfl⟩))
  | inc32 =>
    cases h
    exact Micro.effect_of_scratch _ s _ s.out (.inr (.inr ⟨rfl, rfl⟩))
  | ark r =>
    simp only [Micro.run, opArk] at h
    split at h
    · cases h
      exact Micro.effect_of_scratch _ s _ s.out (.inl rfl)
    · cases h
  | lenblk =>
    simp only [Micro.run, opLenblk] at h
    split at h
    · cases h
      exact Micro.effect_of_scratch _ s _ s.out (.inl rfl)
    · cases h
  | load r =>
    obtain ⟨x, -, h⟩ := reading_eq_next.mp h
    cases h
    exact Micro.effect_of_scratch _ s _ s.out (.inl rfl)
  | store =>
    cases h
    exact
      { plat := by simp, host := by simp, status := by simp, seq := by simp, agenda := by simp, replies := by simp
        unseen := by simp
        drawn := by simp, mem := .inr ⟨rfl, by simp⟩, counter := .inl (by simp) }
  | move d => exact Micro.move_effect h

/-- The completion: BUSY falls, DONE rises, the scratch is left without a value, the sequencer is idle; DOUT is all
that it can change of the host registers. -/
theorem Micro.run_finish {s t : State} (h : Micro.run .finish s = .next t) :
    ∃ d, t = complete (s.withHost (s.host.setDOUT d)) ∧ (s.seq.pos.op ≠ some .encryptBlock → d = s.host.DOUT) := by
  simp only [Micro.run, opFinish] at h
  split at h
  · cases h
    exact ⟨_, rfl, fun hn => absurd ‹_› hn⟩
  · cases h
    exact ⟨s.host.DOUT, rfl, fun _ => rfl⟩

/-- Advancing the position changes the sequencer only. -/
theorem moveOn_eq (rest : List SeqItem) (s : State) : ∃ q, moveOn rest s = s.withSeq q := by
  have he : ∀ p b i, ∃ q, enter p b i s = s.withSeq q := fun p b i => ⟨_, rfl⟩
  have hself : ∃ q, s = s.withSeq q := ⟨s.seq, rfl⟩
  unfold moveOn
  split
  · exact hself
  · split
    · unfold advance
      simp only [enterGctr, enterHashAd, enterHashCt, enterHashLength]
      repeat' split
      all_goals first | exact hself | exact he _ _ _
    · exact ⟨_, rfl⟩

end Sys2Proof.Machine
end

