-- ==== Sys2Proof/Laws/Invariant.lean ====
section
/-! SUPPORT. The invariant and the core: what moving on from a position leaves sound, and that a step of the core
keeps the invariant. -/

namespace Sys2Proof.Machine

/-! ## Regions and memory -/

/-- The regions depend on neither TAG nor DOUT. -/
theorem regions_of_results {s t : State} (h : t.host = { s.host with TAG := t.host.TAG, DOUT := t.host.DOUT }) :
    (∀ r : RegionName, r.base t = r.base s) ∧ ∀ r : RegionName, r.count t = r.count s := by
  refine ⟨fun r => ?_, fun r => ?_⟩
  · cases r <;> simp only [RegionName.base, RegionName.baseReg] <;> rw [h]
  · cases r <;> simp only [RegionName.count] <;> rw [h]

/-- Bytes written to existing addresses keep memory at existing addresses. -/
theorem addresses_writeBytes {p : Platform} {m : Memory} (a : Nat) (bs : List Byte)
    (h : ∀ c ∈ m, c.1 < 2 ^ p.AW ∧ populated p c.1 = true)
    (hb : ∀ k < bs.length, a + k < 2 ^ p.AW ∧ populated p (a + k) = true) :
    ∀ c ∈ m.writeBytes a bs, c.1 < 2 ^ p.AW ∧ populated p c.1 = true := by
  induction bs generalizing m a with
  | nil => exact h
  | cons b bs ih =>
    refine ih (a + 1) ?_ ?_
    · intro c hc
      rcases Memory.write_mem hc with rfl | hc
      · simpa using hb 0 (by simp)
      · exact h c hc
    · intro k hk
      have := hb (k + 1) (by simp; omega)
      rwa [show a + 1 + k = a + (k + 1) by omega]

/-! ## The lists of micro-operations -/

/-- An item the invariant allows at block `blk` of the command `op`. -/
def ItemSound (s : State) (op : Option Command) (blk : Nat) (it : SeqItem) : Prop :=
  (it.rnd ≤ 10 ∧ it.bit ≤ 127)
  ∧ ∀ r, it.act.region = some r → op = some .sealMessage ∧ ∃ n, r.count s = some n ∧ blk < n

section Items

variable {s : State} {op : Option Command} {n : Nat}

theorem ItemSound.of_no_region {it : SeqItem} (h : (it.rnd ≤ 10 ∧ it.bit ≤ 127) ∧ it.act.region = none) :
    ItemSound s op n it :=
  ⟨h.1, fun r hr => by simp [h.2] at hr⟩

theorem cipherItems_sound (src : Src) : ∀ it ∈ cipherItems src, ItemSound s op n it := by
  have h : ∀ it ∈ cipherItems src, (it.rnd ≤ 10 ∧ it.bit ≤ 127) ∧ it.act.region = none := by cases src <;> decide
  exact fun it hit => .of_no_region (h it hit)

theorem hashItems_sound (src : Src) : ∀ it ∈ hashItems src, ItemSound s op n it := by
  have h : ∀ it ∈ hashItems src, (it.rnd ≤ 10 ∧ it.bit ≤ 127) ∧ it.act.region = none := by
    cases src <;> decide +kernel
  exact fun it hit => .of_no_region (h it hit)

theorem plain_sound {m : Micro} (h : m.region = none) : ItemSound s op n (plain m) :=
  .of_no_region ⟨by simp [plain], h⟩

theorem cons_sound {it : SeqItem} {items : List SeqItem} (h : ItemSound s op n it)
    (ht : ∀ x ∈ items, ItemSound s op n x) : ∀ x ∈ it :: items, ItemSound s op n x := by
  intro x hx
  rcases List.mem_cons.mp hx with rfl | hx
  · exact h
  · exact ht x hx

theorem append_sound {xs ys : List SeqItem} (hx : ∀ x ∈ xs, ItemSound s op n x) (hy : ∀ x ∈ ys, ItemSound s op n x) :
    ∀ x ∈ xs ++ ys, ItemSound s op n x :=
  fun x h => (List.mem_append.mp h).elim (hx x) (hy x)

theorem nil_sound : ∀ x ∈ ([] : List SeqItem), ItemSound s op n x := fun _ h => absurd h List.not_mem_nil

theorem gctrItems_sound (hop : op = some .sealMessage) (hn : ∃ m, s.host.PT_BLOCKS.value = some m ∧ n < m) :
    ∀ it ∈ gctrItems, ItemSound s op n it := by
  refine append_sound (append_sound (cons_sound ⟨by simp [plain], ?_⟩ nil_sound) (cipherItems_sound _)) ?_
  · rintro r hr
    cases hr
    exact ⟨hop, hn⟩
  · refine cons_sound (plain_sound rfl) (cons_sound (plain_sound rfl) (cons_sound ⟨by simp [plain], ?_⟩
      (cons_sound (plain_sound rfl) nil_sound)))
    rintro r hr
    cases hr
    exact ⟨hop, hn⟩

theorem hashBlockItems_sound (r : RegionName) (hop : op = some .sealMessage) (hn : ∃ m, r.count s = some m ∧ n < m) :
    ∀ it ∈ hashBlockItems r, ItemSound s op n it := by
  refine cons_sound ⟨by simp [plain], ?_⟩ (hashItems_sound _)
  rintro q hq
  cases hq
  exact ⟨hop, hn⟩

theorem tagItems_sound : ∀ it ∈ tagItems, ItemSound s op n it :=
  append_sound (append_sound (cons_sound (plain_sound rfl) nil_sound) (cipherItems_sound _))
    (cons_sound (plain_sound rfl) (cons_sound (plain_sound rfl) (cons_sound (plain_sound rfl)
      (cons_sound (plain_sound rfl) nil_sound))))

end Items

/-! ## Moving on -/

/-- A sequencer that the invariant allows in the state `s`, with the command of `s`. -/
def PositionSound (s : State) (q : Sequencer) : Prop :=
  q.pos.op = s.seq.pos.op ∧ q.Sound s.plat ∧ ∀ it ∈ q.todo, ItemSound s q.pos.op q.pos.blk it

/-- Standing at the first item of a sound list, at a phase of the command. -/
theorem enter_sound {s : State} {c : Command} (hop : s.seq.pos.op = some c) {p : Phase} {blk : Nat}
    {items : List SeqItem} (hp : p ∈ phasesOf (some c)) (hblk : blk < 2 ^ s.plat.CW) (hne : items ≠ [])
    (hit : ∀ it ∈ items, ItemSound s (some c) blk it) :
    ∃ q, enter p blk items s = s.withSeq q ∧ PositionSound s q := by
  refine ⟨_, rfl, rfl, ⟨fun h => by simp [hop] at h, fun _ => hne, by rw [hop]; exact hp, by simp, by simp, hblk,
    fun it h => (hit it h).1⟩, ?_⟩
  intro it h
  rw [hop]
  exact hit it h

/-- A block index below a count is in range. -/
theorem lt_of_count {o : Option Nat} {n w : Nat} (h : n < o.getD 0) (ho : ∀ v, o = some v → v < 2 ^ w) :
    n < 2 ^ w ∧ ∃ m, o = some m ∧ n < m := by
  cases o with
  | none => simp at h
  | some m => exact ⟨Nat.lt_trans h (ho m rfl), m, rfl, h⟩

/-- The position after the last micro-operation of a sound one is sound. -/
theorem advance_sound {s : State} (h : PositionSound s s.seq) (hh : s.host.InRange s.plat)
    (hop : s.seq.pos.op ≠ none) : ∃ q, advance s = s.withSeq q ∧ PositionSound s q := by
  have h0 : 0 < 2 ^ s.plat.CW := Nat.two_pow_pos _
  have pt : ∀ {n}, n < s.ptBlocks → n < 2 ^ s.plat.CW ∧ ∃ m, s.host.PT_BLOCKS.value = some m ∧ n < m :=
    fun hn => lt_of_count hn hh.ptBlocks
  have ad : ∀ {n}, n < s.adBlocks → n < 2 ^ s.plat.CW ∧ ∃ m, s.host.AD_BLOCKS.value = some m ∧ n < m :=
    fun hn => lt_of_count hn hh.adBlocks
  have hself : ∃ q, s = s.withSeq q ∧ PositionSound s q := ⟨s.seq, rfl, h⟩
  obtain ⟨c, hc⟩ := Option.ne_none_iff_exists'.mp hop
  have hph := h.2.1.phase
  rw [hc] at hph
  have isSeal : ∀ {p}, s.seq.pos.phase = p → p ∉ [Phase.kexp, .cipher, .done] → c = .sealMessage := by
    intro p he hn
    cases c with
    | encryptBlock => exact absurd (he ▸ hph) hn
    | sealMessage => rfl
  have len (he : c = .sealMessage) : ∃ q, enterHashLength s = s.withSeq q ∧ PositionSound s q := by
    subst he
    exact enter_sound hc (by decide) h0 (by simp) (cons_sound (plain_sound rfl) (hashItems_sound _))
  have ct (he : c = .sealMessage) : ∃ q, enterHashCt s = s.withSeq q ∧ PositionSound s q := by
    unfold enterHashCt
    split
    · subst he
      exact enter_sound hc (by decide) h0 (by simp [hashBlockItems]) (hashBlockItems_sound .ct rfl (pt ‹_›).2)
    · exact len he
  have adPhase (he : c = .sealMessage) : ∃ q, enterHashAd s = s.withSeq q ∧ PositionSound s q := by
    subst he
    refine enter_sound hc (by decide) h0 (List.cons_ne_nil _ _) (cons_sound (plain_sound rfl) ?_)
    split
    · exact hashBlockItems_sound .ad rfl (ad ‹_›).2
    · exact nil_sound
  have gctr (he : c = .sealMessage) : ∃ q, enterGctr s = s.withSeq q ∧ PositionSound s q := by
    subst he
    refine enter_sound hc (by decide) h0 (List.cons_ne_nil _ _)
      (cons_sound (plain_sound rfl) (cons_sound (plain_sound rfl) ?_))
    split
    · exact gctrItems_sound rfl (pt ‹_›).2
    · exact nil_sound
  have done : ∃ q, enter .done 0 [plain .finish] s = s.withSeq q ∧ PositionSound s q :=
    enter_sound hc (by cases c <;> decide) h0 (List.cons_ne_nil _ _) (cons_sound (plain_sound rfl) nil_sound)
  unfold advance
  cases hp : s.seq.pos.phase with
  | idle => exact hself
  | kexp =>
    rw [hc]
    cases c with
    | encryptBlock =>
      exact enter_sound hc (by decide) h0 (by simp)
        (append_sound (cipherItems_sound _) (cons_sound (plain_sound rfl) nil_sound))
    | sealMessage =>
      exact enter_sound hc (by decide) h0 (by simp)
        (append_sound (cipherItems_sound _) (cons_sound (plain_sound rfl) nil_sound))
  | cipher => exact done
  | hsub => exact gctr (isSeal hp (by decide))
  | gctr =>
    dsimp only
    split
    · obtain rfl := isSeal hp (by decide)
      exact enter_sound hc (by decide) (pt ‹_›).1 (by simp [gctrItems]) (gctrItems_sound rfl (pt ‹_›).2)
    · exact adPhase (isSeal hp (by decide))
  | ghashAd =>
    dsimp only
    split
    · obtain rfl := isSeal hp (by decide)
      exact enter_sound hc (by decide) (ad ‹_›).1 (by simp [hashBlockItems])
        (hashBlockItems_sound .ad rfl (ad ‹_›).2)
    · exact ct (isSeal hp (by decide))
  | ghashCt =>
    dsimp only
    split
    · obtain rfl := isSeal hp (by decide)
      exact enter_sound hc (by decide) (pt ‹_›).1 (by simp [hashBlockItems])
        (hashBlockItems_sound .ct rfl (pt ‹_›).2)
    · exact len (isSeal hp (by decide))
  | ghashLen =>
    obtain rfl := isSeal hp (by decide)
    exact enter_sound hc (by decide) h0 (by simp [tagItems]) tagItems_sound
  | tagenc => exact done
  | done => exact hself

/-- Moving on from a sound position gives a sound position of the same command. -/
theorem moveOn_sound {s : State} {rest : List SeqItem} (h : PositionSound s s.seq) (hh : s.host.InRange s.plat)
    (hr : ∀ it ∈ rest, it ∈ s.seq.todo) : ∃ q, moveOn rest s = s.withSeq q ∧ PositionSound s q := by
  unfold moveOn
  split
  · exact ⟨s.seq, rfl, h⟩
  next hop =>
  split
  · exact advance_sound h hh hop
  next it rest' =>
    obtain ⟨-, hq, hb⟩ := h
    have hit : it ∈ s.seq.todo := hr it (by simp)
    exact ⟨_, rfl, rfl,
      ⟨fun h => absurd h hop, fun _ => by simp, hq.phase, (hq.todo it hit).1, (hq.todo it hit).2, hq.blk,
        fun x hx => hq.todo x (hr x hx)⟩,
      fun x hx => hb x (hr x hx)⟩

/-! ## A step of the core -/

/-- A completion keeps the invariant. -/
theorem complete_inv {s : State} (h : s.Inv) (d : Reg Block) : (complete (s.withHost (s.host.setDOUT d))).Inv where
  plat := h.plat
  mem := h.mem
  addresses := h.addresses
  reserved := by
    have := h.reserved
    show (statusAtCompletion s.STATUS).extractLsb' 2 30 = 0
    unfold statusAtCompletion
    generalize s.STATUS = w at *
    apply BitVec.eq_of_getLsbD_eq
    intro i hi
    have e := congrArg (fun x => BitVec.getLsbD x i) this
    simp [hi] at e ⊢
    rw [e]
    interval_cases i <;> simp
  oneFlag := by simp
  busy := by rw [busy_complete]; simp [complete, Sequencer.idle, SeqPos.idle]
  host := ⟨h.host.1, h.host.2, h.host.3, h.host.4, h.host.5⟩
  seq := ⟨fun _ => rfl, fun h => absurd rfl h, by simp [complete, Sequencer.idle, SeqPos.idle, phasesOf],
    by simp [complete, Sequencer.idle, SeqPos.idle], by simp [complete, Sequencer.idle, SeqPos.idle],
    by simp [complete, Sequencer.idle, SeqPos.idle], by simp [complete, Sequencer.idle, SeqPos.idle]⟩
  operands := trivial
  regions := by simp [complete, Sequencer.idle, SeqPos.idle]
  blocks := by simp [complete, Sequencer.idle]

/-- A step of the core keeps the invariant. -/
theorem coreStep_inv {s t : State} (h : s.Inv) (hs : coreStep s = .next t) : t.Inv := by
  unfold coreStep at hs
  split at hs
  · cases hs
    exact h
  next it rest htodo =>
  obtain ⟨u, hu, he⟩ := andThen_eq_next.mp hs
  cases he
  by_cases hf : it.act = .finish
  · rw [hf] at hu
    obtain ⟨d, rfl, _⟩ := Micro.run_finish hu
    have : moveOn rest (complete (s.withHost (s.host.setDOUT d))) = complete (s.withHost (s.host.setDOUT d)) :=
      if_pos rfl
    rw [this]
    exact complete_inv h d
  · have e := Micro.run_effect hf hu
    obtain ⟨rb, rc⟩ := regions_of_results (s := s) (t := u) (by rw [e.host])
    have hin : u.host.InRange u.plat := by
      rw [e.plat, e.host]
      exact ⟨h.host.1, h.host.2, h.host.3, h.host.4, h.host.5⟩
    have hpos : PositionSound u u.seq := by
      refine ⟨rfl, by rw [e.seq, e.plat]; exact h.seq, fun x hx => ?_⟩
      rw [e.seq] at hx ⊢
      exact ⟨h.seq.todo x hx, by simpa [rc] using h.blocks x hx⟩
    obtain ⟨q, hq, hop, hsound, hblk⟩ := moveOn_sound (rest := rest) hpos hin
      (by rw [e.seq, htodo]; exact fun x hx => List.mem_cons_of_mem _ hx)
    rw [hq]
    have hreg : s.seq.pos.op = some .sealMessage → u.RegionsSound := fun ho => (h.regions ho).congr rb rc e.plat
    have hmem : u.MEM.wf ∧ ∀ c ∈ u.MEM, c.1 < 2 ^ u.plat.AW ∧ populated u.plat c.1 = true := by
      rw [e.plat]
      rcases e.mem with hm | ⟨hst, hm⟩
      · rw [hm]
        exact ⟨h.mem, h.addresses⟩
      · rw [hm]
        refine ⟨Memory.wf_writeBlock h.mem _ _, addresses_writeBytes _ _ h.addresses ?_⟩
        intro k hk
        rw [length_blockBytes] at hk
        obtain ⟨ho, n, hn, hlt⟩ := h.blocks it (by rw [htodo]; simp) .ct (by rw [hst]; rfl)
        obtain ⟨a, ha⟩ := Option.ne_none_iff_exists'.mp ((h.regions ho).based .ct n hn (by omega))
        rw [block_of_base ha]
        exact (h.regions ho).inside .ct _ ⟨a, n, ha, hn, by omega, by omega⟩
    exact
      { plat := by
          have := h.plat
          rwa [← e.plat] at this
        mem := hmem.1
        addresses := hmem.2
        reserved := by
          show u.STATUS.extractLsb' 2 30 = 0
          rw [e.status]
          exact h.reserved
        oneFlag := by
          show ¬ (u.STATUS.getLsbD 0 = true ∧ u.STATUS.getLsbD 1 = true)
          rw [e.status]
          exact h.oneFlag
        busy := by
          show u.STATUS.getLsbD 0 = true ↔ q.pos.op ≠ none
          rw [e.status, hop, e.seq]
          exact h.busy
        host := hin
        seq := hsound
        operands := by
          show State.OperandsHeld _ q.pos.op
          have ho := h.operands
          rw [hop, e.seq]
          unfold State.OperandsHeld at ho ⊢
          rw [withSeq_host, e.host]
          exact ho
        regions := fun ho =>
          State.RegionsSound.congr (s := u) (fun r => by cases r <;> rfl) (fun r => by cases r <;> rfl) rfl
            (hreg (by rw [← e.seq, ← hop]; exact ho))
        blocks := fun x hx r hr => by
          obtain ⟨h1, n, h2, h3⟩ := (hblk x hx).2 r hr
          refine ⟨h1, n, ?_, h3⟩
          cases r <;> exact h2 }

end Sys2Proof.Machine
end

