-- ==== Sys2Proof/Laws/PerInstr.lean ====
section
/-! SUPPORT. The per-instruction family RoundTrip: decoding an instruction's code gives the instruction back. -/

namespace Sys2Proof

open Sys2Proof.Machine

/-! ## Operands -/

theorem onByte_cons (b : Byte) (rest : List Byte) (f : Byte → List Byte → Decoded) :
    onByte (b :: rest) f = f b rest := rfl

theorem onBytes_append (n : Nat) (h rest : List Byte) (f : List Byte → List Byte → Decoded) (hn : h.length = n) :
    onBytes n (h ++ rest) f = f h rest := by
  subst hn
  simp [onBytes]

theorem onWord_wordBytes (t : Word) (rest : List Byte) (f : Word → List Byte → Decoded) :
    onWord (wordBytes t ++ rest) f = f t rest := by
  rw [onWord, onBytes_append 4 _ _ _ (length_wordBytes t), wordOfBytes_wordBytes]

theorem onBlock_blockBytes (b : Block) (rest : List Byte) (f : Block → List Byte → Decoded) :
    onBlock (blockBytes b ++ rest) f = f b rest := by
  rw [onBlock, onBytes_append 16 _ _ _ (length_blockBytes b), blockOfBytes_blockBytes]

theorem onCount_tobe (v : Nat) (rest : List Byte) (f : Nat → List Byte → Decoded) (h : v < 2 ^ 64) :
    onCount (tobe v 8 ++ rest) f = f v rest := by
  rw [onCount, onBytes_append 8 _ _ _ (length_tobe v 8), be_tobe v 8 (by simpa using h)]

theorem onBlocks_flatMap (xs : List Block) (rest : List Byte) (f : List Block → List Byte → Decoded) :
    onBlocks xs.length (xs.flatMap blockBytes ++ rest) f = f xs rest := by
  induction xs generalizing f with
  | nil => rfl
  | cons x xs ih => rw [List.length_cons, onBlocks, List.flatMap_cons, List.append_assoc, onBlock_blockBytes, ih]

theorem onSequence_sequenceBytes (xs : List Block) (rest : List Byte) (f : List Block → List Byte → Decoded)
    (h : xs.length < 2 ^ 64) :
    (onCount (sequenceBytes xs ++ rest) fun n r => onBlocks n r f) = f xs rest := by
  rw [sequenceBytes, List.append_assoc, onCount_tobe _ _ _ h, onBlocks_flatMap]

/-! ## The decoder at the codes with operands -/

theorem decodeUop_ldst (bs : List Byte) :
    decodeUop (0x01 :: bs) = onBlock bs fun b r => .ok (.ldst b, r) := rfl

theorem decodeUop_rotw (bs : List Byte) :
    decodeUop (0x08 :: bs) = onWord bs fun t r => .ok (.rotw t, r) := rfl

theorem decodeUop_subw (bs : List Byte) :
    decodeUop (0x09 :: bs) = onWord bs fun t r => .ok (.subw t, r) := rfl

theorem decodeUop_cipher (bs : List Byte) :
    decodeUop (0x0c :: bs) = onBlock bs fun b r => .ok (.cipher b, r) := rfl

theorem decodeUop_xor128 (bs : List Byte) :
    decodeUop (0x12 :: bs) = onBlock bs fun a r => onBlock r fun b r' => .ok (.xor128 a b, r') := rfl

theorem decodeUop_gfmul (bs : List Byte) :
    decodeUop (0x14 :: bs) = onBlock bs fun a r => onBlock r fun b r' => .ok (.gfmul a b, r') := rfl

theorem decodeUop_lenblk (bs : List Byte) :
    decodeUop (0x15 :: bs) = onCount bs fun a r => onCount r fun p r' =>
      accept (decide (a < 2 ^ 57 ∧ p < 2 ^ 57)) (.lenblk a p) r' := rfl

theorem decodeUop_gctr (bs : List Byte) :
    decodeUop (0x17 :: bs) = onCount bs fun n r => onBlocks n r fun xs r' => .ok (.gctr xs, r') := rfl

theorem decodeUop_ghash (bs : List Byte) :
    decodeUop (0x18 :: bs) = onCount bs fun n r => onBlocks n r fun xs r' => .ok (.ghash xs, r') := rfl

/-! ## The family -/

/-- A well-formed instruction's code decodes to the instruction; whatever follows an operation's bytes is left. -/
def Laws.RoundTrip.Statement (i : Instr) : Prop :=
  i.wellFormed = true →
  match encode i with
  | .command w => decodeCommand w = .ok i
  | .uop bytes => ∀ rest, decodeUop (bytes ++ rest) = .ok (i, rest)

namespace Laws.RoundTrip

theorem nop : Statement .nop := fun _ => rfl
theorem encryptBlock : Statement .encryptBlock := fun _ => rfl
theorem sealMessage : Statement .sealMessage := fun _ => rfl
theorem ldst (b : Block) : Statement (.ldst b) := fun _ rest =>
  (decodeUop_ldst _).trans (onBlock_blockBytes b rest _)
theorem ark (r : Nat) : Statement (.ark r) := fun h rest => by
  have h : r ≤ 10 := of_decide_eq_true h
  have e : (BitVec.ofNat 8 r).toNat = r := by rw [BitVec.toNat_ofNat, Nat.mod_eq_of_lt (by omega)]
  show accept (decide ((BitVec.ofNat 8 r).toNat ≤ 10)) (.ark (BitVec.ofNat 8 r).toNat) rest = _
  rw [e, decide_eq_true h]
  rfl
theorem subb : Statement .subb := fun _ _ => rfl
theorem shrow : Statement .shrow := fun _ _ => rfl
theorem mixc : Statement .mixc := fun _ _ => rfl
theorem stst : Statement .stst := fun _ _ => rfl
theorem rotw (t : Word) : Statement (.rotw t) := fun _ rest =>
  (decodeUop_rotw _).trans (onWord_wordBytes t rest _)
theorem subw (t : Word) : Statement (.subw t) := fun _ rest =>
  (decodeUop_subw _).trans (onWord_wordBytes t rest _)
theorem rcon (k : Nat) : Statement (.rcon k) := fun h rest => by
  have h : 1 ≤ k ∧ k ≤ 10 := of_decide_eq_true h
  have e : (BitVec.ofNat 8 (k - 1)).toNat = k - 1 := by rw [BitVec.toNat_ofNat, Nat.mod_eq_of_lt (by omega)]
  show accept (decide ((BitVec.ofNat 8 (k - 1)).toNat ≤ 9)) (.rcon ((BitVec.ofNat 8 (k - 1)).toNat + 1)) rest = _
  rw [e, decide_eq_true (by omega), Nat.sub_add_cancel h.1]
  rfl
theorem kexp : Statement .kexp := fun _ _ => rfl
theorem cipher (b : Block) : Statement (.cipher b) := fun _ rest =>
  (decodeUop_cipher _).trans (onBlock_blockBytes b rest _)
theorem mkj0 : Statement .mkj0 := fun _ _ => rfl
theorem inc32 : Statement .inc32 := fun _ _ => rfl
theorem xor128 (a b : Block) : Statement (.xor128 a b) := fun _ rest => by
  rw [List.cons_append, decodeUop_xor128, List.append_assoc, onBlock_blockBytes, onBlock_blockBytes]
theorem gfstep (x : Bool) : Statement (.gfstep x) := fun _ _ => by cases x <;> rfl
theorem gfmul (a b : Block) : Statement (.gfmul a b) := fun _ rest => by
  rw [List.cons_append, decodeUop_gfmul, List.append_assoc, onBlock_blockBytes, onBlock_blockBytes]
theorem lenblk (a p : Nat) : Statement (.lenblk a p) := fun h rest => by
  have h : a < 2 ^ 57 ∧ p < 2 ^ 57 := of_decide_eq_true h
  rw [List.cons_append, decodeUop_lenblk, List.append_assoc, onCount_tobe a _ _ (by omega), onCount_tobe p _ _ (by omega), decide_eq_true h]
  rfl
theorem hsub : Statement .hsub := fun _ _ => rfl
theorem gctr (bs : List Block) : Statement (.gctr bs) := fun h rest =>
  (decodeUop_gctr _).trans (onSequence_sequenceBytes bs rest _ (of_decide_eq_true h))
theorem ghash (xs : List Block) : Statement (.ghash xs) := fun h rest =>
  (decodeUop_ghash _).trans (onSequence_sequenceBytes xs rest _ (of_decide_eq_true h))
theorem tagenc : Statement .tagenc := fun _ _ => rfl
theorem sbox (a : Byte) : Statement (.sbox a) := fun _ _ => rfl
theorem xtime (b : Byte) : Statement (.xtime b) := fun _ _ => rfl
theorem mul3 (b : Byte) : Statement (.mul3 b) := fun _ _ => rfl

end Laws.RoundTrip

end Sys2Proof
end

