-- ==== Sys2Proof/Laws/Results.lean ====
section
/-! SUPPORT. What the host has not been shown yet (R156): which addresses a write takes out, what a completion adds, what
a read sees, that the core changes it at a completion only; and what the phases of a whole command keep. -/

namespace Sys2Proof.Machine

variable {s t : State} {u : Unseen}

/-- A range less another holds the addresses of the one that lie outside the other. -/
theorem Range.minus_has (r q : Range) (x : Nat) : (∃ p ∈ r.minus q, p.has x) ↔ r.has x ∧ ¬ q.has x := by
  unfold Range.minus
  split
  next h =>
    simp only [Range.meets, decide_eq_true_eq] at h
    simp only [List.mem_filter, List.mem_cons, List.not_mem_nil, or_false, decide_eq_true_eq, Range.has]
    constructor
    · rintro ⟨p, ⟨rfl | rfl, hp⟩, h1, h2⟩ <;> simp only at h1 h2 <;> omega
    · rintro ⟨h1, h2⟩
      by_cases hx : x < q.base
      · exact ⟨_, ⟨.inl rfl, by simp only; omega⟩, h1.1, by simp only; omega⟩
      · exact ⟨_, ⟨.inr rfl, by simp only; omega⟩, by simp only; omega, by simp only; omega⟩
  next h =>
    have hn : ¬ (r.has x ∧ q.has x) := fun hx => h ((Range.meets_iff r q).mpr ⟨x, hx⟩)
    simp only [List.mem_singleton, exists_eq_left]
    exact ⟨fun hr => ⟨hr, fun hq => hn ⟨hr, hq⟩⟩, fun hr => hr.1⟩

/-- What the host writes itself is no longer hidden from it, and nothing else changes. -/
theorem Unseen.hides_minus (q : Range) (x : Nat) : (u.minus q).Hides x ↔ u.Hides x ∧ ¬ q.has x := by
  simp only [Unseen.Hides, Unseen.minus, List.mem_flatMap]
  constructor
  · rintro ⟨p, ⟨r, hr, hp⟩, hx⟩
    obtain ⟨h1, h2⟩ := (Range.minus_has r q x).mp ⟨p, hp, hx⟩
    exact ⟨⟨r, hr, h1⟩, h2⟩
  · rintro ⟨⟨r, hr, h1⟩, h2⟩
    obtain ⟨p, hp, hx⟩ := (Range.minus_has r q x).mpr ⟨h1, h2⟩
    exact ⟨p, ⟨r, hr, hp⟩, hx⟩

@[simp] theorem Unseen.minus_results (q : Range) : (u.minus q).results = u.results := rfl

@[simp] theorem Unseen.not_hides_nothing (x : Nat) : ¬ Unseen.nothing.Hides x := by simp [Unseen.Hides, Unseen.nothing]

theorem Unseen.meets_iff (r : Range) : u.meets r = true ↔ ∃ x, u.Hides x ∧ r.has x := by
  simp only [Unseen.meets, List.any_eq_true, Range.meets_iff, Unseen.Hides]
  exact ⟨fun ⟨q, hq, x, h1, h2⟩ => ⟨x, ⟨q, hq, h1⟩, h2⟩, fun ⟨x, ⟨q, hq, h1⟩, h2⟩ => ⟨q, hq, x, h1, h2⟩⟩

/-- The host is shown bytes exactly when none of them is hidden and each holds a value. -/
theorem shownBytes_eq_some {addr n : Nat} {bytes : List Byte} :
    s.shownBytes addr n = some bytes ↔ (∀ k < n, ¬ s.unseen.Hides (addr + k)) ∧ s.MEM.readBytes addr n = some bytes := by
  have hm : s.unseen.meets { base := addr, size := n } = true ↔ ∃ k < n, s.unseen.Hides (addr + k) := by
    rw [Unseen.meets_iff]
    constructor
    · rintro ⟨x, hx, h1, h2⟩
      simp only at h1 h2
      exact ⟨x - addr, by omega, by rwa [show addr + (x - addr) = x by omega]⟩
    · rintro ⟨k, hk, hx⟩
      exact ⟨addr + k, hx, by simp, by simpa using hk⟩
  unfold State.shownBytes
  split
  next h =>
    obtain ⟨k, hk, hx⟩ := hm.mp h
    simp only [reduceCtorEq, false_iff, not_and]
    exact fun hn => absurd hx (hn k hk)
  next h =>
    simp only [iff_and_self]
    exact fun _ k hk hx => h (hm.mpr ⟨k, hk, hx⟩)

/-- A completion hides DOUT, TAG and SEAL's ciphertext region, beside what was hidden. -/
theorem unseenAtCompletion_hides (x : Nat) :
    s.unseenAtCompletion.Hides x ↔
      (s.seq.pos.op = some .sealMessage ∧ (RegionName.ct.range s).has x) ∨ s.unseen.Hides x := by
  unfold State.unseenAtCompletion Unseen.Hides
  split
  next h =>
    split
    next h0 => simp [RegionName.range, RegionName.blocks, h0, Range.has]
    · simp [h]
  next h => exact ⟨.inr, fun hx => hx.elim (fun hs => absurd hs.1 h) id⟩

@[simp] theorem complete_unseen (s : State) : (complete s).unseen = s.unseenAtCompletion := rfl

/-- A step of the core changes what is hidden at a completion only. -/
theorem coreStep_unseen (h : coreStep s = .next t) :
    (t.unseen = s.unseen ∧ t.STATUS = s.STATUS) ∨ (t.unseen = s.unseenAtCompletion ∧ t.busy = false) := by
  unfold coreStep at h
  split at h
  · cases h
    exact .inl ⟨rfl, rfl⟩
  next it rest _ =>
  obtain ⟨v, hv, h⟩ := andThen_eq_next.mp h
  obtain ⟨q, hq⟩ := moveOn_eq rest v
  rw [hq] at h
  cases h
  by_cases hf : it.act = .finish
  · rw [hf] at hv
    obtain ⟨d, rfl, -⟩ := Micro.run_finish hv
    exact .inr ⟨rfl, busy_complete _⟩
  · have e := Micro.run_effect hf hv
    exact .inl ⟨e.unseen, e.status⟩

/-- A read of STATUS that returns DONE = 1 shows everything; another read changes nothing but the replies. -/
theorem afterRead_eq (reg : Nat) (s : State) :
    (reg = 11 ∧ s.isDone = true ∧ s.afterRead reg = s.withUnseen .nothing)
      ∨ (¬ (reg = 11 ∧ s.isDone = true) ∧ s.afterRead reg = s) := by
  unfold State.afterRead
  split
  next h => exact .inl ⟨h.1, h.2, rfl⟩
  next h => exact .inr ⟨h, rfl⟩

/-- A read of STATUS has BUSY in bit 0, DONE in bit 1 and 0 above (R21). -/
theorem readStatus_toNat (s : State) :
    s.readStatus.toNat = (s.STATUS.getLsbD 0).toNat + 2 * (s.STATUS.getLsbD 1).toNat := by
  have h : s.readStatus.toNat = s.STATUS.toNat % 4 := by
    rw [State.readStatus, BitVec.toNat_and]
    exact Nat.and_two_pow_sub_one_eq_mod _ 2
  have bit (n : Nat) : (decide (n % 2 = 1)).toNat = n % 2 := by
    rcases Nat.mod_two_eq_zero_or_one n with e | e <;> simp [e]
  simp only [h, BitVec.getLsbD, Nat.testBit_succ, Nat.testBit_zero, bit]
  omega

/-- HostRead(STATUS) is never refused: it replies the flags, and shows the results if it returns DONE = 1. -/
theorem hostRead_status (s : State) :
    hostRead 11 s = .next ((s.afterRead 11).reply (.reg 11 s.readStatus.toNat)) := by
  simp [hostRead, regValue]

/-! ## Whole commands -/

/-- What the phases of a whole command keep between its issue and its completion. -/
structure PhasesKeep (s t : State) : Prop where
  unseen : t.unseen = s.unseen
  seq : t.seq = s.seq
  host : t.host = { s.host with TAG := t.host.TAG }

theorem PhasesKeep.trans {a b c : State} (h : PhasesKeep a b) (k : PhasesKeep b c) : PhasesKeep a c :=
  ⟨k.unseen.trans h.unseen, k.seq.trans h.seq, by rw [k.host, h.host]⟩

theorem PhasesKeep.andThen {f g : State → Result} (hf : ∀ s t, f s = .next t → PhasesKeep s t)
    (hg : ∀ s t, g s = .next t → PhasesKeep s t) (s t : State) (h : Machine.andThen (f s) g = .next t) :
    PhasesKeep s t := by
  obtain ⟨v, hv, h⟩ := andThen_eq_next.mp h
  exact (hf s v hv).trans (hg v t h)

theorem PhasesKeep.forBlocks {f : Nat → State → Result} (hf : ∀ i s t, f i s = .next t → PhasesKeep s t) (n i : Nat)
    (s t : State) (h : Machine.forBlocks f n i s = .next t) : PhasesKeep s t := by
  induction n generalizing i s t with
  | zero =>
    cases h
    exact ⟨rfl, rfl, rfl⟩
  | succ n ih => exact PhasesKeep.andThen (hf i) (ih (i + 1)) s t h

theorem loadBlock_keeps (r : RegionName) (i : Nat) (s t : State) (h : loadBlock r i s = .next t) : PhasesKeep s t := by
  obtain ⟨x, -, h⟩ := reading_eq_next.mp h
  cases h
  exact ⟨rfl, rfl, rfl⟩

theorem sealHashBlock_keeps (r : RegionName) (i : Nat) (s t : State) (h : sealHashBlock r i s = .next t) :
    PhasesKeep s t := by
  refine PhasesKeep.andThen (loadBlock_keeps r i) (fun s t h => ?_) s t h
  rw [hashBlock_eq] at h
  cases h
  exact ⟨rfl, rfl, rfl⟩

theorem sealGctrBlock_keeps (i : Nat) (s t : State) (h : sealGctrBlock i s = .next t) : PhasesKeep s t := by
  refine PhasesKeep.andThen (loadBlock_keeps .pt i) (fun s t h => ?_) s t h
  simp only [keystream_eq, xorKeystream_eq, andThen_next, storeBlock, opInc32_eq] at h
  obtain rfl := Host.Outcome.next.inj h
  exact ⟨by simp, by simp, by simp⟩

theorem sealHashLength_keeps (s t : State) (h : sealHashLength s = .next t) : PhasesKeep s t := by
  unfold sealHashLength opLenblk at h
  split at h
  · simp only [andThen_next, hashBlock_eq] at h
    cases h
    exact ⟨rfl, rfl, rfl⟩
  · cases h

theorem opTagenc_keeps (s t : State) (h : opTagenc s = .next t) : PhasesKeep s t := by
  rw [opTagenc_eq rfl rfl] at h
  cases h
  exact ⟨rfl, rfl, rfl⟩

theorem opHsub_keeps (s t : State) (h : opHsub s = .next t) : PhasesKeep s t := by
  rw [opHsub_eq] at h
  obtain rfl := Host.Outcome.next.inj h
  exact ⟨by simp, by simp, by simp⟩

/-- A SEAL that answers next passed its checks, and is its issue, phases that keep what they must, and its completion. -/
theorem execSeal_next (h : execSeal s = .next t) :
    sealCheck s = none ∧ ∃ v, PhasesKeep (issue .sealMessage s) v ∧ t = complete v := by
  unfold execSeal at h
  split at h
  · cases h
  refine ⟨‹_›, ?_⟩
  obtain ⟨a, ha, h⟩ := andThen_eq_next.mp h
  obtain ⟨b, hb, h⟩ := andThen_eq_next.mp h
  obtain ⟨c, hc, h⟩ := andThen_eq_next.mp h
  obtain ⟨d, hd, h⟩ := andThen_eq_next.mp h
  obtain ⟨e, he, h⟩ := andThen_eq_next.mp h
  obtain ⟨f, hf, h⟩ := andThen_eq_next.mp h
  obtain ⟨g, hg, h⟩ := andThen_eq_next.mp h
  obtain ⟨i, hi, h⟩ := andThen_eq_next.mp h
  obtain ⟨j, hj, h⟩ := andThen_eq_next.mp h
  obtain ⟨k, hk, h⟩ := andThen_eq_next.mp h
  have ka : PhasesKeep (issue .sealMessage s) a := by
    obtain rfl := Host.Outcome.next.inj ha
    exact ⟨rfl, rfl, rfl⟩
  have kc : PhasesKeep b c := by
    obtain rfl := Host.Outcome.next.inj hc
    exact ⟨rfl, rfl, rfl⟩
  have kd : PhasesKeep c d := by
    obtain rfl := Host.Outcome.next.inj hd
    exact ⟨rfl, rfl, rfl⟩
  have kf : PhasesKeep e f := by
    obtain rfl := Host.Outcome.next.inj hf
    exact ⟨rfl, rfl, rfl⟩
  have kk : PhasesKeep (issue .sealMessage s) k :=
    ka.trans <| (opHsub_keeps _ _ hb).trans <| kc.trans <| kd.trans <|
      (PhasesKeep.forBlocks sealGctrBlock_keeps _ _ _ _ he).trans <| kf.trans <|
      (PhasesKeep.forBlocks (sealHashBlock_keeps .ad) _ _ _ _ hg).trans <|
      (PhasesKeep.forBlocks (sealHashBlock_keeps .ct) _ _ _ _ hi).trans <|
      (sealHashLength_keeps _ _ hj).trans (opTagenc_keeps _ _ hk)
  refine ⟨k, kk, ?_⟩
  unfold opFinish at h
  rw [show k.seq.pos.op = some .sealMessage by rw [kk.seq]; rfl] at h
  exact (Host.Outcome.next.inj h).symm

/-- A SEAL hides its ciphertext region and its results, beside what was hidden. -/
theorem execSeal_unseen (h : execSeal s = .next t) :
    t.unseen.results = true ∧ ∀ x, t.unseen.Hides x ↔ s.InRegion .ct x ∨ s.unseen.Hides x := by
  obtain ⟨hc, v, kv, rfl⟩ := execSeal_next h
  obtain ⟨_, _, _, _, ha⟩ := sealCheck_eq_none_iff_accepted.mp hc
  refine ⟨rfl, fun x => ?_⟩
  have hr : RegionName.ct.range v = RegionName.ct.range s := by
    have hb : v.host.CT_ADDR = s.host.CT_ADDR := by rw [kv.host]; rfl
    have hp : v.host.PT_BLOCKS = s.host.PT_BLOCKS := by rw [kv.host]; rfl
    simp only [RegionName.range, RegionName.base, RegionName.baseReg, RegionName.blocks, State.ptBlocks, hb, hp]
    rfl
  rw [complete_unseen, unseenAtCompletion_hides, kv.unseen, ← ha.has_iff, hr, kv.seq]
  exact or_congr (and_iff_right rfl) Iff.rfl

/-- An ENCRYPT_BLOCK hides its results, and no address more than before. -/
theorem execEncryptBlock_unseen (h : execEncryptBlock s = .next t) :
    t.unseen = { results := true, bytes := s.unseen.bytes } := by
  unfold execEncryptBlock at h
  split at h
  · cases h
  simp only [runEncrypt, opKexp_eq, opCipher_eq, andThen_next, moveTo, opFinish] at h
  cases h
  rfl

end Sys2Proof.Machine
end

