-- ==== Sys2Proof/Tests/Slice0.lean ====
section
/-! SUPPORT. The model's own tests. Expected values are from the spec: the encodings of 30_encoding.md, the vectors
of 95_test_vectors.md (named in each comment) or the examples of the rules. Then, for every statement with
hypotheses, states and operands that meet them. -/

namespace Sys2Proof.Tests

open Sys2Proof.Machine

/-! ## Helpers -/

/-- What `f` reads in the next state, if there is one. -/
def got {α : Type} (r : Result) (f : State → α) : Option α :=
  match r with
  | .next s => some (f s)
  | _ => none

/-- Why a result is no next state. -/
def why (r : Result) : Option Refusal :=
  match r with
  | .refused e => some e
  | _ => none

/-- The instruction and the rest of a decoded operation. -/
def read (d : Decoded) : Option (Instr × List Byte) :=
  match d with
  | .ok x => some x
  | .error _ => none

/-- The error of a decoded operation. -/
def wrong {α : Type} (d : Except DecodeError α) : Option DecodeError :=
  match d with
  | .ok _ => none
  | .error e => some e

/-- Sixteen bytes 0, the operand bytes of a zero block. -/
def zeros : List Byte := List.replicate 16 0

/-- The block 00 01 .. 0f of section 2.2. -/
def ramp : Block := 0x000102030405060708090a0b0c0d0e0f

/-- A state with one datapath: State `m`, schedule `rk`, and blocks in the other registers. -/
def withDatapath (S : Block) (rk : Schedule) (H CB KS Y Z V : Block) : State :=
  { State.reset with
    dp :=
      { S := .holding (loadState S), RK := .holding rk, H := .holding H, CB := .holding CB, KS := .holding KS, X := .holding 0, Y := .holding Y,
        Z := .holding Z, V := .holding V, LB := .holding 0 } }

/-- Schedule K0 of section 2.3, that of the all-zero key, as printed there. -/
def k0 : Schedule :=
  { k0 := 0x00000000000000000000000000000000, k1 := 0x62636363626363636263636362636363
    k2 := 0x9b9898c9f9fbfbaa9b9898c9f9fbfbaa, k3 := 0x90973450696ccffaf2f457330b0fac99
    k4 := 0xee06da7b876a1581759e42b27e91ee2b, k5 := 0x7f2e2b88f8443e098dda7cbbf34b9290
    k6 := 0xec614b851425758c99ff09376ab49ba7, k7 := 0x217517873550620bacaf6b3cc61bf09b
    k8 := 0x0ef903333ba9613897060a04511dfa9f, k9 := 0xb1d4d8e28a7db9da1d7bb3de4c664941
    k10 := 0xb4ef5bcb3e92e21123e951cf6f8f188e }

/-- Every datapath register with a value; H and Y of vector G3. -/
def full : State :=
  withDatapath ramp k0 0x66e94bd4ef8a2c3b884cfa59ca342b2e 0xcafebabefacedbaddecaf888ffffffff 0
    0x18abf63a7a2836d395ddfac447b7453c 0 1

/-- `full` with other State bytes. -/
def withState (S : Block) : State := full.withDp (full.dp.setS (.holding (loadState S)))

/-- The stored State after a result. -/
def stored (r : Result) : Option Block := (got r fun s => s.dp.S.value.map storeState).join

/-- Operands of a SEAL of one block, plaintext and associated data in the same 16 bytes (case H26's overlap), and
of an ENCRYPT_BLOCK; after reset otherwise. -/
def sample : State :=
  { State.reset with
    host :=
      { KEY := .holding 0x2b7e151628aed2a6abf7158809cf4f3c, IV := .holding 0xcafebabefacedbaddecaf888
        DIN := .holding 0x3243f6a8885a308d313198a2e0370734, DOUT := .blank 0, TAG := .blank 0, PT_ADDR := .holding 0x100
        CT_ADDR := .holding 0x110, AD_ADDR := .holding 0x100, PT_BLOCKS := .holding 1, AD_BLOCKS := .holding 1 }
    MEM := Memory.writeBlock [] 0x100 ramp }

/-- `sample` with its SEAL issued. -/
def running : State := issue .sealMessage sample

/-! ## WellFormed refuses ill-formed terms, and accepts the values at the edges -/

theorem test_wf_ark : (Instr.ark 11).wellFormed = false ∧ (Instr.ark 10).wellFormed = true := by decide
theorem test_wf_rcon_low : (Instr.rcon 0).wellFormed = false ∧ (Instr.rcon 1).wellFormed = true := by decide
theorem test_wf_rcon_high : (Instr.rcon 11).wellFormed = false ∧ (Instr.rcon 10).wellFormed = true := by decide
theorem test_wf_lenblk_ad :
    (Instr.lenblk (2 ^ 57) 0).wellFormed = false ∧ (Instr.lenblk (2 ^ 57 - 1) 0).wellFormed = true := by decide
theorem test_wf_lenblk_pt :
    (Instr.lenblk 0 (2 ^ 57)).wellFormed = false ∧ (Instr.lenblk 0 (2 ^ 57 - 1)).wellFormed = true := by decide
theorem test_wf_gctr (bs : List Block) (h : bs.length = 2 ^ 64) : (Instr.gctr bs).wellFormed = false := by
  simp [Instr.wellFormed, h]
theorem test_wf_ghash (xs : List Block) (h : xs.length = 2 ^ 64) : (Instr.ghash xs).wellFormed = false := by
  simp [Instr.wellFormed, h]

/-! ## Decoding, from words written out bit by bit (R45, R46, R58) -/

theorem test_decode_nop : decodeTableWord 32 0b00000000000000000000000000000000 = some .nop := by decide
theorem test_decode_encrypt_block : decodeTableWord 32 0b00000000000000000000000000000001 = some .encryptBlock := by
  decide
theorem test_decode_seal : decodeTableWord 32 0b00000000000000000000000000000010 = some .sealMessage := by decide
theorem test_decode_ldst : read (decodeUop (0b00000001 :: blockBytes ramp)) = some (.ldst ramp, []) := by decide
theorem test_decode_ark : read (decodeUop [0b00000010, 10]) = some (.ark 10, []) := by decide
theorem test_decode_subb : read (decodeUop [0b00000011]) = some (.subb, []) := by decide
theorem test_decode_shrow : read (decodeUop [0b00000100]) = some (.shrow, []) := by decide
theorem test_decode_mixc : read (decodeUop [0b00000101]) = some (.mixc, []) := by decide
theorem test_decode_stst : read (decodeUop [0b00000110]) = some (.stst, []) := by decide
theorem test_decode_rotw : read (decodeUop [0b00001000, 0x09, 0xcf, 0x4f, 0x3c]) = some (.rotw 0x09cf4f3c, []) := by
  decide
theorem test_decode_subw : read (decodeUop [0b00001001, 0xcf, 0x4f, 0x3c, 0x09]) = some (.subw 0xcf4f3c09, []) := by
  decide
theorem test_decode_rcon : read (decodeUop [0b00001010, 8]) = some (.rcon 9, []) := by decide
theorem test_decode_kexp : read (decodeUop [0b00001011]) = some (.kexp, []) := by decide
theorem test_decode_cipher : read (decodeUop (0b00001100 :: blockBytes ramp)) = some (.cipher ramp, []) := by decide
theorem test_decode_mkj0 : read (decodeUop [0b00010000]) = some (.mkj0, []) := by decide
theorem test_decode_inc32 : read (decodeUop [0b00010001]) = some (.inc32, []) := by decide
theorem test_decode_xor128 :
    read (decodeUop (0b00010010 :: (blockBytes ramp ++ zeros))) = some (.xor128 ramp 0, []) := by decide
theorem test_decode_gfstep : read (decodeUop [0b00010011, 1]) = some (.gfstep true, []) := by decide
theorem test_decode_gfmul :
    read (decodeUop (0b00010100 :: (zeros ++ blockBytes ramp))) = some (.gfmul 0 ramp, []) := by decide
theorem test_decode_lenblk :
    read (decodeUop [0b00010101, 0, 0, 0, 0, 0, 0, 0, 2, 0, 0, 0, 0, 0, 0, 1, 3]) = some (.lenblk 2 259, []) := by
  decide
theorem test_decode_hsub : read (decodeUop [0b00010110]) = some (.hsub, []) := by decide
theorem test_decode_gctr :
    read (decodeUop (0b00010111 :: ([0, 0, 0, 0, 0, 0, 0, 1] ++ blockBytes ramp))) = some (.gctr [ramp], []) := by
  decide
theorem test_decode_ghash :
    read (decodeUop (0b00011000 :: ([0, 0, 0, 0, 0, 0, 0, 1] ++ blockBytes ramp))) = some (.ghash [ramp], []) := by
  decide
theorem test_decode_tagenc : read (decodeUop [0b00011001]) = some (.tagenc, []) := by decide
theorem test_decode_sbox : read (decodeUop [0b00100000, 0x53]) = some (.sbox 0x53, []) := by decide
theorem test_decode_xtime : read (decodeUop [0b00100001, 0x57]) = some (.xtime 0x57, []) := by decide
theorem test_decode_mul3 : read (decodeUop [0b00100010, 0x57]) = some (.mul3 0x57, []) := by decide

/-- Vectors H12 to H14: OPC = 3 and a set bit of ZERO. -/
theorem test_decode_reserved_words :
    wrong (decodeCommand 0x00000003) = some .reservedOpc ∧ wrong (decodeCommand 0x00000004) = some .zeroFieldSet
      ∧ wrong (decodeCommand 0x80000001) = some .zeroFieldSet := by decide

theorem test_decode_unassigned :
    wrong (decodeUop [0x07]) = some .unassignedUop ∧ wrong (decodeUop [0x23, 0]) = some .unassignedUop
      ∧ wrong (decodeUop [0x02, 11]) = some .operandRange ∧ wrong (decodeUop [0x08, 1, 2, 3]) = some .truncated := by
  decide

/-! ## Byte functions (section 2.1) -/

theorem test_sbox :
    got (exec (.sbox 0x53) State.reset) (·.out) = some (some (.byte 0xed))
      ∧ got (exec (.sbox 0xff) State.reset) (·.out) = some (some (.byte 0x16)) := by decide
/-- The checksums of the table: the XOR of all entries is 00, their sum 32640. -/
theorem test_sbox_checksums :
    (List.range 256).foldl (fun x a => x ^^^ sboxByte (BitVec.ofNat 8 a)) 0 = 0
      ∧ (List.range 256).foldl (fun x a => x + (sboxByte (BitVec.ofNat 8 a)).toNat) 0 = 32640 := by decide +kernel
theorem test_xtime :
    got (exec (.xtime 0xae) State.reset) (·.out) = some (some (.byte 0x47))
      ∧ got (exec (.xtime 0x57) State.reset) (·.out) = some (some (.byte 0xae)) := by decide
theorem test_mul3 :
    got (exec (.mul3 0x80) State.reset) (·.out) = some (some (.byte 0x9b))
      ∧ got (exec (.mul3 0x57) State.reset) (·.out) = some (some (.byte 0xf9)) := by decide

/-! ## Round operations (section 2.2) -/

/-- Rows 00 04 08 0c and so on: column by column. -/
theorem test_ldst :
    got (exec (.ldst ramp) State.reset) (fun s => s.dp.S.value.map fun m => (m.r0, m.r3)) =
      some (some ({ c0 := 0x00, c1 := 0x04, c2 := 0x08, c3 := 0x0c },
        { c0 := 0x03, c1 := 0x07, c2 := 0x0b, c3 := 0x0f })) := by
  decide
theorem test_stst : got (exec .stst full) (·.out) = some (some (.block ramp)) := by decide
theorem test_ark :
    stored (exec (.ark 1) (withState 0x63636363636363636363636363636363)) =
      some 0x01000000010000000100000001000000 := by decide
theorem test_ark_11_is_refused : why (exec (.ark 11) full) = some .badUop := by decide
theorem test_subb : stored (exec .subb full) = some 0x637c777bf26b6fc53001672bfed7ab76 := by decide
theorem test_shrow : stored (exec .shrow full) = some 0x00050a0f04090e03080d02070c01060b := by decide
theorem test_mixc : stored (exec .mixc full) = some 0x02070005060304010a0f080d0e0b0c09 := by decide
theorem test_mixc_column :
    stored (exec .mixc (withState 0xdb13534580000000010000000000ff00)) = some 0x8e4da1bc1b80809b02010103ff1ae5ff := by
  decide

/-! ## Key schedule (section 2.3) -/

theorem test_rotw : got (exec (.rotw 0x09cf4f3c) State.reset) (·.out) = some (some (.word 0xcf4f3c09)) := by decide
theorem test_subw : got (exec (.subw 0xcf4f3c09) State.reset) (·.out) = some (some (.word 0x8a84eb01)) := by decide
theorem test_rcon : got (exec (.rcon 9) State.reset) (·.out) = some (some (.byte 0x1b)) := by decide
theorem test_rcon_first_and_last :
    got (exec (.rcon 1) State.reset) (·.out) = some (some (.byte 0x01))
      ∧ got (exec (.rcon 10) State.reset) (·.out) = some (some (.byte 0x36)) := by decide
/-- Schedule K1, round keys 1 and 10. -/
theorem test_kexp :
    got (exec .kexp sample) (fun s => s.dp.RK.value.map fun rk => (rk.k1, rk.k10)) =
      some (some (0xa0fafe1788542cb123a339392a6c7605, 0xd014f9a8c9ee2589e13f0cc8b6630ca6)) := by decide +kernel
/-- Schedule K0, whole. -/
theorem test_kexp_zero_key : expandKey 0 = k0 := by decide +kernel

/-! ## The cipher (section 2.4) -/

/-- Vector S1, the source's own. -/
theorem test_cipher :
    got (exec (.cipher 0) full) (·.out) = some (some (.block 0x66e94bd4ef8a2c3b884cfa59ca342b2e)) := by decide +kernel
/-- Vector A1, with BUSY, DONE, TAG and the scratch afterwards. -/
theorem test_encrypt_block :
    got (exec .encryptBlock sample) (fun s => (s.host.DOUT.value, s.host.TAG.value, s.STATUS, s.dp.holdsNothing)) =
      some (some 0x3925841d02dc09fbdc118597196a0b32, none, 0x00000002, true) := by decide +kernel
/-- Vectors H3 and H5's kind: no operand has a value after reset. -/
theorem test_encrypt_block_after_reset : why (exec .encryptBlock State.reset) = some .rfNoValue := by decide

/-! ## GCM primitives (section 2.5) -/

theorem test_mkj0 :
    got (exec .mkj0 sample) (·.dp.CB.value) = some (some 0xcafebabefacedbaddecaf88800000001) := by decide
/-- The wrap does not carry into byte 11. -/
theorem test_inc32 :
    got (exec .inc32 full) (·.dp.CB.value) = some (some 0xcafebabefacedbaddecaf88800000000) := by decide
theorem test_inc32_carry :
    incrementCounter 0x0102030405060708090a0b0c00ffffff = 0x0102030405060708090a0b0c01000000 := by decide
theorem test_xor128 :
    got (exec (.xor128 0x66e94bd4ef8a2c3b884cfa59ca342b2e 0x0388dace60b6a392f328c2b971b2fe78) State.reset) (·.out) =
      some (some (.block 0x6561911a8f3c8fa97b6438e0bb86d556)) := by decide
theorem test_gfstep :
    got (exec (.gfstep true) full) (fun s => (s.dp.Z.value, s.dp.V.value)) =
      some (some 1, some 0xe1000000000000000000000000000000) := by decide
theorem test_gfstep_zero_bit :
    got (exec (.gfstep false) (withDatapath 0 k0 0 0 0 0 0 0x00000000000000010000000000000000))
        (fun s => (s.dp.Z.value, s.dp.V.value)) =
      some (some 0, some 0x00000000000000008000000000000000) := by decide
theorem test_gfmul :
    got (exec (.gfmul 0x66e94bd4ef8a2c3b884cfa59ca342b2e 0x0388dace60b6a392f328c2b971b2fe78) State.reset) (·.out) =
      some (some (.block 0x5e2ec746917062882c85b0685353deb7)) := by decide +kernel
theorem test_gfmul_by_x : gfMul 0x40000000000000000000000000000000 1 = 0xe1000000000000000000000000000000 := by
  decide +kernel
theorem test_lenblk :
    got (exec (.lenblk 2 3) State.reset) (·.dp.LB.value) = some (some 0x00000000000001000000000000000180) := by decide
theorem test_lenblk_largest :
    got (exec (.lenblk 144115188075855871 0) State.reset) (·.dp.LB.value) =
      some (some 0xffffffffffffff800000000000000000) := by decide

/-! ## GCM operations (section 2.6) -/

theorem test_hsub : got (exec .hsub full) (·.dp.H.value) = some (some 0x66e94bd4ef8a2c3b884cfa59ca342b2e) := by
  decide +kernel
/-- The wrap inside GCTR. -/
theorem test_gctr :
    got (exec (.gctr [0, 0]) (withDatapath 0 k0 0 0x000000000000000000000000ffffffff 0 0 0 0))
        (fun s => (s.out, s.dp.CB.value)) =
      some (some (.blocks [0x28c16380c491088ca019f8a76853b1e8, 0x66e94bd4ef8a2c3b884cfa59ca342b2e]), some 1) := by
  decide +kernel
theorem test_ghash :
    got (exec (.ghash [0x0388dace60b6a392f328c2b971b2fe78, 0x80]) full) (·.dp.Y.value) =
      some (some 0xf38cbb1ad69223dcc3457ae5b6b0f885) := by decide +kernel
/-- The tag of vector G3 from its Y, and the counter after it. -/
theorem test_tagenc :
    got (exec .tagenc (full.withHost (full.host.setIV (.holding 0)))) (fun s => (s.host.TAG.value, s.dp.CB.value)) =
      some (some 0x40490af4805606b2a3a2e793e3500066, some 2) := by decide +kernel

/-! ## Commands (sections 2.7, 2.8) -/

theorem test_nop : got (exec .nop State.reset) (·.STATUS) = some 0x00000000 := by decide
theorem test_nop_while_busy : why (exec .nop running) = some .rfBusy := by decide
/-- Vector G1, with no address register written (case H16). -/
theorem test_seal_of_nothing :
    got (exec .sealMessage
        { State.reset with
          host :=
            { State.reset.host with KEY := .holding 0, IV := .holding 0, PT_BLOCKS := .holding 0, AD_BLOCKS := .holding 0 } })
        (fun s => (s.host.TAG.value, s.host.DOUT.value, s.STATUS, s.MEM)) =
      some (some 0x58e2fccefa7e3061367f1d57a4e7455a, none, 0x00000002, []) := by decide +kernel
/-- Vector G2: the ciphertext block at its address, the plaintext unchanged, the tag. -/
theorem test_seal_of_one_block :
    got (exec .sealMessage
        { State.reset with
          host :=
            { State.reset.host with
              KEY := .holding 0, IV := .holding 0, PT_BLOCKS := .holding 1, AD_BLOCKS := .holding 0, PT_ADDR := .holding 0x100
              CT_ADDR := .holding 0x110 }
          MEM := Memory.writeBlock [] 0x100 0 })
        (fun s => (s.host.TAG.value, s.MEM.readBlock 0x100, s.MEM.readBlock 0x110)) =
      some (some 0xab6e47d42cec13bdf53a67b21257bddf, some 0, some 0x0388dace60b6a392f328c2b971b2fe78) := by
  decide +kernel
/-- Cases H21 and H23: in place, and past the top of the address space. -/
theorem test_seal_regions :
    why (exec .sealMessage (sample.withHost (sample.host.setCT_ADDR (.holding 0x100)))) = some .rfOverlap
      ∧ why (exec .sealMessage (sample.withHost (sample.host.setPT_ADDR (.holding 0xfffffff8)))) = some .rfRegion := by
  decide

/-! ## The host -/

/-- Cases H15, H33 and H34. -/
theorem test_host_refusals :
    why (hostWrite 3 0 sample) = some .rfAccess ∧ why (hostRead 10 sample) = some .rfAccess
      ∧ why (hostWrite 10 0 running) = some .rfBusy ∧ why (hostMemRead 0x110 16 State.reset) = some .rfNoValue := by
  decide
/-- Cases H31 and H32: memory while BUSY, outside and inside the regions. -/
theorem test_memory_while_busy :
    got (hostMemWrite 0x120 [1] running) (fun s => s.MEM.read 0x120) = some (some 1)
      ∧ why (hostMemWrite 0x11f [1, 2] running) = some .rfBusy ∧ why (hostMemWrite 0x10f [1] running) = some .rfBusy := by
  decide
/-- Addresses that do not exist: the byte past the top holds no value to read and none can be written (log 11); while
BUSY an access that also covers a region byte is RF_BUSY (R42). -/
theorem test_missing_addresses :
    why (hostMemRead 0xffffffff 2 sample) = some .rfNoValue
      ∧ why (hostMemWrite 0xffffffff [1, 2] sample) = some .noSuchAddress
      ∧ why (hostMemRead 0x11f 2 { running with plat := { AW := 32, CW := 32, holes := [{ base := 0x120, size := 1 }] } })
          = some .rfBusy := by decide
/-- Every operation presented on its own runs as the first thing after reset (log 1, log 2). -/
theorem test_operations_run_after_reset :
    ∀ i ∈ [Instr.ldst 0, .ark 0, .subb, .shrow, .mixc, .stst, .rotw 0, .subw 0, .rcon 1, .kexp, .cipher 0, .mkj0, .inc32,
        .xor128 0 0, .gfstep false, .gfmul 0 0, .lenblk 0 0, .hsub, .gctr [], .ghash [], .tagenc, .sbox 0, .xtime 0, .mul3 0],
      (got (exec i State.reset) fun s => s.busy) = some false := by decide
/-- Reset during a SEAL: no byte of the ciphertext region holds a value, the plaintext does (R151). -/
theorem test_reset_during_seal :
    got (step { running with MEM := running.MEM.writeBlock 0x110 0, agenda := [.reset] })
        (fun s => (s.STATUS, s.MEM.read 0x110, s.MEM.read 0x11f, s.MEM.readBlock 0x100)) =
      some (0, none, none, some ramp) := by decide
/-- A SEAL as just completed, no poll of STATUS made since: TAG and the ciphertext at 0x110 to 0x11f wait (R156). -/
def unpolled : State :=
  { sample with
    host := sample.host.setTAG (.holding 7)
    STATUS := 2
    MEM := sample.MEM.writeBlock 0x110 ramp
    unseen := { results := true, bytes := [{ base := 0x110, size := 16 }] } }
/-- HostRead(STATUS): 0 after reset (vector H1), 1 while BUSY, 2 when DONE (R21); only the last shows the results. -/
theorem test_read_status :
    got (hostRead 11 State.reset) (fun s => (s.replies, s.unseen)) = some ([.reg 11 0], .nothing)
      ∧ got (hostRead 11 { running with unseen := unpolled.unseen }) (fun s => (s.replies, s.unseen))
          = some ([.reg 11 1], unpolled.unseen)
      ∧ got (hostRead 11 unpolled) (fun s => (s.replies, s.unseen)) = some ([.reg 11 2], .nothing) := by decide
/-- Results are not valid before a poll has returned DONE = 1, and are from then on (R156); bytes beside the region are. -/
theorem test_results_wait_for_poll :
    why (hostRead 4 unpolled) = some .rfNoValue ∧ why (hostMemRead 0x11f 1 unpolled) = some .rfNoValue
      ∧ why (hostMemRead 0x10f 2 unpolled) = some .rfNoValue
      ∧ got (hostMemRead 0x100 16 unpolled) (fun s => s.replies) = some [.mem 0x100 (blockBytes ramp)]
      ∧ got (andThen (hostRead 11 unpolled) fun s => andThen (hostRead 4 s) fun s => hostMemRead 0x110 16 s)
          (fun s => s.replies) = some [.mem 0x110 (blockBytes ramp), .reg 4 7, .reg 11 2] := by decide
/-- A completion of a SEAL leaves TAG and its region waiting for a poll (R156); a read while BUSY of bytes that wait is
refused too, and a byte the host writes itself no longer waits (log 23). -/
theorem test_completion_waits_for_poll :
    got (opFinish running) (fun s => s.unseen) = some { results := true, bytes := [{ base := 0x110, size := 16 }] }
      ∧ why (hostMemRead 0x200 1 { running with unseen := { results := true, bytes := [{ base := 0x200, size := 16 }] } })
          = some .rfNoValue
      ∧ got (andThen (hostMemWrite 0x111 [9] unpolled) fun s => hostMemRead 0x111 1 s) (fun s => s.replies)
          = some [.mem 0x111 [9]]
      ∧ got (hostMemWrite 0x111 [9] unpolled) (fun s => s.unseen.bytes)
          = some [{ base := 0x110, size := 1 }, { base := 0x112, size := 14 }] := by decide
/-- The first step of an issued command derives the schedule and goes on to PHASE HSUB. -/
theorem test_sequencer_step : got (step running) (fun s => (s.seq.pos.phase, s.STATUS)) = some (.hsub, 1) := by decide

/-! ## Witnesses: the hypotheses of the statements are met

`sample` and `full` above hold a value in every register that a result statement reads. -/

theorem witness_registers_hold_values :
    (full.dp.S.held = true ∧ full.dp.RK.held = true ∧ full.dp.H.held = true ∧ full.dp.CB.held = true)
      ∧ (full.dp.Y.held = true ∧ full.dp.Z.held = true ∧ full.dp.V.held = true)
      ∧ (sample.busy = false ∧ sample.host.KEY.held = true ∧ sample.host.DIN.held = true ∧ sample.host.IV.held = true) := by
  decide

theorem sample_check : sealCheck sample = none := by decide
theorem sample_passes : ∀ k, ¬ sample.SealFails k := sealCheck_eq_none_iff.mp sample_check

theorem sample_inv : sample.Inv where
  plat := by decide
  mem := by decide
  addresses := by decide
  reserved := by decide
  oneFlag := by decide
  busy := by decide
  host := ⟨by simp [sample, State.reset, Platform.default], by simp [sample, State.reset, Platform.default],
    by simp [sample, State.reset, Platform.default], by simp [sample, State.reset, Platform.default],
    by simp [sample, State.reset, Platform.default]⟩
  seq := ⟨by decide, by decide, by decide, by decide, by decide, by decide, by decide⟩
  operands := trivial
  regions h := absurd h (by decide)
  blocks := by decide

theorem sample_regions : sample.RegionsSound := by
  obtain ⟨_, _, _, _, h⟩ := accepted_of_passes sample_passes
  exact h.regionsSound

/-- A state whose SEAL is in progress, at any position with nothing left that the invariant forbids. -/
theorem running_inv (p : Phase) (todo : List SeqItem) (agenda : List Turn) (dp : Datapath)
    (hp : p ∈ phasesOf (some .sealMessage)) (hn : todo ≠ [])
    (ht : ∀ it ∈ todo, (it.rnd ≤ 10 ∧ it.bit ≤ 127) ∧ it.act.region = none) :
    State.Inv
      { running with
        dp := dp
        agenda := agenda
        seq := { pos := { op := some .sealMessage, phase := p, rnd := 0, blk := 0, bit := 0 }, todo := todo } } where
  plat := sample_inv.plat
  mem := sample_inv.mem
  addresses := sample_inv.addresses
  reserved := (by decide : running.STATUS.extractLsb' 2 30 = 0)
  oneFlag := (by decide : ¬ (running.busy = true ∧ running.isDone = true))
  busy := ⟨fun _ => by simp, fun _ => (by decide : running.busy = true)⟩
  host := ⟨sample_inv.host.ptAddr, sample_inv.host.ctAddr, sample_inv.host.adAddr, sample_inv.host.ptBlocks,
    sample_inv.host.adBlocks⟩
  seq := ⟨by simp, fun _ => hn, hp, by simp, by simp, by simp, fun it h => (ht it h).1⟩
  operands := ⟨rfl, rfl⟩
  regions _ :=
    State.RegionsSound.congr (s := sample) (fun r => by cases r <;> rfl) (fun r => by cases r <;> rfl) rfl sample_regions
  blocks it h r hr := by simp [(ht it h).2] at hr

/-- For StepKeepsInvariant, IdleStepChangesNothing and SealChecksInOrder: an idle state with the invariant that
passes every check, and a step from it. -/
theorem witness_idle_step : sample.Inv ∧ sample.busy = false ∧ sample.agenda = [] ∧ step sample = .next sample
    ∧ ∀ k, ¬ sample.SealFails k :=
  ⟨sample_inv, by decide, rfl, rfl, sample_passes⟩

/-- For StepKeepsInvariant, NoInstructionFaults, MemoryWrittenBySealOnly, OperandsStableWhileBusy: a step of a SEAL in
progress. -/
theorem witness_busy_step : running.Inv ∧ running.busy = true ∧ running.agenda.head? ≠ some .reset
    ∧ ∃ t, step running = .next t ∧ coreStep running = .next t :=
  ⟨running_inv .kexp [plain .kexp] [] .atReset (by decide) (by decide) (by decide), by decide, by decide, _, rfl, rfl⟩

/-- For ResetAbandonsCommand: a SEAL is in progress; 0x110 and 0x11f are the ends of its ciphertext region, 0x10f and
0x120 lie outside it. -/
theorem witness_reset :
    State.Inv { running with agenda := [.reset] } ∧ running.seq.pos.op = some .sealMessage
      ∧ running.InRegion .ct 0x110 ∧ running.InRegion .ct 0x11f
      ∧ ¬ running.InRegion .ct 0x10f ∧ ¬ running.InRegion .ct 0x120 := by
  refine ⟨running_inv .kexp [plain .kexp] [.reset] .atReset (by decide) (by decide) (by decide), by decide, ?_, ?_, ?_, ?_⟩
    <;> simp [State.InRegion, RegionName.base, RegionName.baseReg, RegionName.count, running, issue, sample]

/-- For DecodeOfEncode and EncodeOfDecode. -/
theorem witness_codes :
    (Instr.lenblk (2 ^ 57 - 1) 0).wellFormed = true ∧ encode (.ark 10) = .uop [0x02, 0x0a]
      ∧ read (decodeUop [0x02, 0x0a, 0x55]) = some (.ark 10, [0x55]) ∧ (decodeCommand 2).toOption = some .sealMessage := by
  decide

/-- For ReservedWordsRefused: OPC = 3, the lowest and the highest bit of ZERO. -/
theorem witness_reserved_words :
    sample.busy = false ∧ opcField 0x00000003 = 3 ∧ zeroField 0x00000004 ≠ 0 ∧ zeroField 0x80000000 ≠ 0 := by decide

/-- For UnassignedCodesRefused: codes beside assigned ones, operands just outside. -/
theorem witness_unassigned :
    sample.busy = false ∧ (0x07 : Byte).toNat ∉ [0x06, 0x08]
      ∧ why (step { sample with agenda := [.uop [0x07]] }) = some .badUop
      ∧ why (step { sample with agenda := [.uop [0x23]] }) = some .badUop
      ∧ why (exec (.ark 11) sample) = some .badUop ∧ why (exec (.rcon 0) sample) = some .badUop
      ∧ why (exec (.rcon 11) sample) = some .badUop ∧ why (exec (.lenblk (2 ^ 57) 0) sample) = some .badUop
      ∧ why (exec (.lenblk 0 (2 ^ 57)) sample) = some .badUop := by decide

/-- For StepRunsDecoded: its four ways to present NOP or SUBB, a host's move and a step of the core. -/
theorem witness_step_runs_decoded :
    (∃ t, step { sample with agenda := [.host (.read 11)] } = .next t)
      ∧ (∃ t, step { running with agenda := [.core] } = .next t) ∧ sample.agenda = [] ∧
    sample.busy = false ∧ (decodeCommand 0).toOption = some .nop ∧ read (decodeUop [0x03, 0x77]) = some (.subb, [0x77])
      ∧ Instr.subb.wellFormed = true ∧ turnOf (encode .subb) = .uop [0x03] ∧ decodeTableWord 8 0x03 = some .subb :=
  ⟨⟨_, rfl⟩, ⟨_, rfl⟩, rfl, by decide⟩

/-- For AddRoundKeyResult: both ends of the round index, and a zero round key. -/
theorem witness_round_keys :
    (0 ≤ 10 ∧ 10 ≤ 10) ∧ (full.dp.S.held = true ∧ full.dp.RK = .holding k0) ∧ ∀ j < 16, scheduleByte k0 (16 * 0 + j) = 0 := by
  decide

/-- For SubBytesResult, ShiftRowsResult and MixColumnsResult: an all-zero State, and one with four equal columns. -/
theorem witness_special_states :
    (∀ r < 4, ∀ c < 4, matrixAt (loadState 0) r c = 0)
      ∧ (∀ r < 4, ∀ c < 4, matrixAt (loadState 0x7c6363637c6363637c6363637c636363) r c =
          matrixAt (loadState 0x7c6363637c6363637c6363637c636363) r 0)
      ∧ ∀ r < 4, matrixAt (loadState 0xc6c6c6c6000102030405060708090a0b) r 0 =
          matrixAt (loadState 0xc6c6c6c6000102030405060708090a0b) 0 0 := by decide

/-- For TagResult, and for LengthBlockResult at the largest counts. -/
theorem witness_tag_and_lengths :
    ((full.withHost (full.host.setIV (.holding 0))).host.IV.held = true ∧ full.dp.RK.held = true ∧ full.dp.Y.held = true)
      ∧ 144115188075855871 < 2 ^ 57 := by decide

/-- For CounterPeriodAndMessageFields: a multiple of 2^32. -/
theorem witness_counter_period : full.dp.CB.held = true ∧ 3 * 2 ^ 32 % 2 ^ 32 = 0 := by decide

/-- For EncryptBlockResult and NopResult: BUSY, and operands without a value. -/
theorem witness_refused_commands :
    running.busy = true ∧ State.reset.busy = false ∧ State.reset.host.KEY.held = false ∧ State.reset.host.DIN.held = false := by
  decide

/-- For SealResult, SequencerRunsSeal and MemoryWrittenBySealOnly: an accepted SEAL of one block each. -/
theorem witness_seal :
    SealOperands sample 0x2b7e151628aed2a6abf7158809cf4f3c 0xcafebabefacedbaddecaf888 0x100 0x110 0x100 [ramp] [ramp]
      ∧ sample.agenda = [] ∧ hostWrite 10 2 sample = .next running where
  left :=
    { passes := sample_passes, key := rfl, iv := rfl, ptBlocks := rfl, adBlocks := rfl, ptAddr := fun _ => rfl
      ctAddr := fun _ => rfl, adAddr := fun _ => rfl, plaintext := by decide, associated := by decide
      small := by decide }
  right := ⟨rfl, rfl⟩

/-- `sample` with both counts zero and no address register with a value. -/
def empties : State :=
  sample.withHost
    (((((sample.host.setPT_BLOCKS (.holding 0)).setAD_BLOCKS (.holding 0)).setPT_ADDR (.blank 0)).setCT_ADDR (.blank 0)).setAD_ADDR (.blank 0))

/-- For ZeroCounts. -/
theorem witness_zero_counts :
    empties.busy = false ∧ empties.host.KEY.held = true ∧ empties.host.IV.held = true ∧ empties.host.PT_BLOCKS = .holding 0
      ∧ empties.host.AD_BLOCKS = .holding 0 ∧ (got (exec .sealMessage empties) fun s => s.isDone) = some true := by
  decide +kernel

/-- For SealRoundTrip: the second SEAL passes its checks. -/
theorem witness_round_trip :
    (got (exec .sealMessage sample) fun t =>
      sealCheck { t with host := { t.host with PT_ADDR := .holding 0x110, CT_ADDR := .holding 0x120 } }) = some none := by
  decide +kernel

/-- For SealChecksInOrder: for each check a state that fails it and no earlier one. -/
theorem witness_seal_check_1 : running.SealFails 1 := by simp [State.SealFails, running]
theorem witness_seal_check_2 : State.reset.SealFails 2 ∧ ¬ State.reset.SealFails 1 := by
  simp [State.SealFails, State.reset, State.busy, HostRegs.atReset]
theorem witness_seal_check_3 :
    (sample.withHost (sample.host.setAD_ADDR (.blank 0))).SealFails 3
      ∧ sealCheck (sample.withHost (sample.host.setAD_ADDR (.blank 0))) = some .rfNoValue :=
  ⟨.inr ⟨1, rfl, by decide, rfl⟩, by decide⟩
theorem witness_seal_check_4 :
    (sample.withHost (sample.host.setPT_ADDR (.holding 0xfffffff1))).SealFails 4
      ∧ sealCheck (sample.withHost (sample.host.setPT_ADDR (.holding 0xfffffff1))) = some .rfRegion :=
  ⟨⟨.pt, 0xfffffff1, 1, ⟨rfl, rfl, by decide⟩, .inl (by decide)⟩, by decide⟩
theorem witness_seal_check_5 :
    (sample.withHost (sample.host.setCT_ADDR (.holding 0x10f))).SealFails 5
      ∧ sealCheck (sample.withHost (sample.host.setCT_ADDR (.holding 0x10f))) = some .rfOverlap :=
  ⟨⟨0x10f, ⟨0x10f, 1, rfl, rfl, by decide, by decide⟩, .inl ⟨0x100, 1, rfl, rfl, by decide, by decide⟩⟩, by decide⟩
theorem witness_seal_check_6 :
    (sample.withHost (sample.host.setAD_ADDR (.holding 0xff))).SealFails 6
      ∧ sealCheck (sample.withHost (sample.host.setAD_ADDR (.holding 0xff))) = some .rfNoValue :=
  ⟨⟨0xff, .inr ⟨0xff, 1, rfl, rfl, by decide, by decide⟩, by decide⟩, by decide⟩

/-- For DatapathOperationsFrame and OperandRegistersNeverWritten: an operation and a next state. -/
theorem witness_operation : ¬ isCommand .subb ∧ ∃ t, exec .subb full = .next t := by
  refine ⟨by simp [isCommand], _, rfl⟩

/-- A SEAL in PHASE GCTR whose counter block is built. -/
def counting : State :=
  { running with
    dp := Datapath.atReset.setCB (.holding (counterBlock 0xcafebabefacedbaddecaf888 0))
    seq := { pos := { op := some .sealMessage, phase := .gctr, rnd := 0, blk := 0, bit := 0 }, todo := [plain .inc32] } }

/-- For CounterPrefixKept: a SEAL in PHASE DONE, of which the invariant speaks too, steps. -/
theorem witness_counter_prefix_done :
    let s : State :=
      { running with
        dp := Datapath.atReset.setCB (.holding (counterBlock 0xcafebabefacedbaddecaf888 1))
        seq :=
          { pos := { op := some .sealMessage, phase := .done, rnd := 0, blk := 0, bit := 0 }, todo := [plain .finish] } }
    s.Inv ∧ s.CounterFromNonce ∧ ∃ t, step s = .next t :=
  ⟨running_inv .done [plain .finish] [] _ (by decide) (by decide) (by decide),
    fun _ _ => ⟨rfl, by decide⟩, _, rfl⟩

/-- For CounterPrefixKept: the invariant speaks of this state in PHASE GCTR, and it steps. -/
theorem witness_counter_prefix :
    counting.Inv ∧ counting.CounterFromNonce ∧ plain .mkj0 ∉ counting.seq.todo ∧ ∃ t, step counting = .next t :=
  ⟨running_inv .gctr [plain .inc32] [] _ (by decide) (by decide) (by decide),
    fun _ _ => ⟨rfl, by decide⟩, by decide, _, rfl⟩

/-- For CommandWriteIssues and SequencerRunsEncrypt. -/
theorem witness_encrypt_issue :
    sample.busy = false ∧ sample.host.KEY.held = true ∧ sample.host.DIN.held = true ∧ sample.agenda = []
      ∧ ∃ t, hostWrite 10 1 sample = .next t :=
  ⟨by decide, by decide, by decide, rfl, _, rfl⟩

/-- A SEAL at its completion. -/
def finishing : State :=
  { running with
    seq := { pos := { op := some .sealMessage, phase := .done, rnd := 0, blk := 0, bit := 0 }, todo := [plain .finish] } }

/-- For FlagsFollowCommands: BUSY falls and DONE rises; DONE rises by a whole command; BUSY rises and DONE falls. -/
theorem witness_flags :
    (finishing.isDone = false
        ∧ (got (step { sample with agenda := [.command 1] }) fun t => (sample.isDone, t.isDone)) = some (false, true))
      ∧ (finishing.Inv ∧ (got (step finishing) fun t => (t.busy, t.isDone)) = some (false, true) ∧ finishing.busy = true)
      ∧ (State.Inv { sample with STATUS := 2, agenda := [.host (.write 10 2)] }
        ∧ (got (step { sample with STATUS := 2, agenda := [.host (.write 10 2)] }) fun t => (t.busy, t.isDone)) =
            some (true, false)) :=
  ⟨⟨by decide, by decide +kernel⟩,
    ⟨running_inv .done [plain .finish] [] _ (by decide) (by decide) (by decide), by decide, by decide⟩,
    { plat := by decide, mem := sample_inv.mem, addresses := sample_inv.addresses, reserved := by decide
      oneFlag := by decide, busy := by decide, host := sample_inv.host, seq := sample_inv.seq, operands := trivial
      regions := fun h => absurd h (by decide), blocks := by decide }, by decide⟩

/-- For BusyLocksHost and HostAccessDoesNotDisturb: existing addresses that touch a region at either end, and
addresses just outside, with an access that is allowed. -/
theorem witness_busy_memory :
    running.AddressesExist 0x11f 1 ∧ running.TouchesRunningRegion 0x11f 1 ∧ running.TouchesRunningRegion 0xf1 16
      ∧ ¬ running.TouchesRunningRegion 0x120 16 ∧ ¬ running.TouchesRunningRegion 0xf0 16
      ∧ ∃ t, hostMove (.memWrite 0x120 [1]) running = .next t := by
  refine ⟨(addressesExist_iff _ _).mpr (by decide), ⟨rfl, .ct, 0, by decide, 0x110, 1, rfl, rfl, by decide, by decide⟩,
    ⟨rfl, .pt, 15, by decide, 0x100, 1, rfl, rfl, by decide, by decide⟩, ?_, ?_, _, rfl⟩
  all_goals
    rintro ⟨-, r, k, hk, base, n, hb, hc, h1, h2⟩
    cases r <;> simp [RegionName.base, RegionName.baseReg, RegionName.count, running, issue, sample] at hb hc <;> omega

/-- For RegisterReadsBack: a write while DOUT and TAG wait to be shown; they keep what they hold. -/
theorem witness_write_before_poll :
    unpolled.busy = false ∧ unpolled.unseen.results = true ∧ operandWidth unpolled.plat 2 = some 128
      ∧ (got (hostWrite 2 5 unpolled) fun s => s.host.TAG) = some (.holding 7) := by decide

/-- For RegisterReadsBack and AccessRights: the largest value of each width, and the first beyond. -/
theorem witness_register_widths :
    sample.busy = false ∧ operandWidth sample.plat 0 = some 128 ∧ operandWidth sample.plat 1 = some 96
      ∧ operandWidth sample.plat 7 = some 32 ∧ operandWidth sample.plat 9 = some 32
      ∧ (got (hostWrite 9 4294967295 sample) fun t => t.host.AD_BLOCKS.value) = some (some 4294967295)
      ∧ why (hostWrite 8 4294967296 sample) = some .rfAccess ∧ why (hostWrite 12 0 sample) = some .rfAccess
      ∧ why (hostWrite 10 4294967296 sample) = some .rfAccess := by decide

/-- For NoValueIsRefused: after reset SUBB and KEXP run on what the storage of S and KEY holds. -/
theorem witness_marked :
    ¬ isCommand .kexp ∧ State.reset.host.KEY.held = false ∧ State.reset.dp.S.held = false
      ∧ (∃ t, exec .kexp State.reset.marked = .next t) ∧ ∃ t, exec .subb State.reset.marked = .next t :=
  ⟨by simp [isCommand], rfl, rfl, ⟨_, rfl⟩, ⟨_, rfl⟩⟩

/-- For NoValueIsRefused: after reset no register and no byte holds a value, and both commands lack an operand. -/
theorem witness_no_value :
    State.reset.busy = false ∧ regValue 0 State.reset = some none ∧ State.reset.AddressesExist 0xffffffff 1
      ∧ State.reset.MEM.read (0xffffffff + 0) = none ∧ State.reset.dp.holdsNothing = true :=
  ⟨by decide, rfl, (addressesExist_iff _ _).mpr (by decide), rfl, rfl⟩

/-- For MemoryReadsBack: the last address of the address space, and the first that does not exist. -/
theorem witness_memory_edges :
    State.reset.AddressesExist 0xffffffff [7].length ∧ ¬ State.reset.AddressesExist 0x100000000 [7].length := by
  simp only [addressesExist_iff]
  decide

/-- For ResultsShownByPoll and BusyLocksHost: commands that complete, whole and by a step; results that wait and results that
have been shown; the ends of a region that waits and the addresses beside it; a poll; and a state with the invariant
that steps, with a byte that no one may write. -/
theorem witness_results :
    ((∃ t, exec .encryptBlock sample = .next t) ∧ (got (exec .sealMessage sample) fun t => t.unseen.results) = some true)
      ∧ (finishing.Inv ∧ finishing.busy = true ∧ (got (coreStep finishing) fun t => t.busy) = some false
        ∧ finishing.InRegion .ct 0x110)
      ∧ (unpolled.busy = false ∧ unpolled.isDone = true ∧ unpolled.unseen.results = true
        ∧ unpolled.unseen.Hides 0x110 ∧ unpolled.unseen.Hides 0x11f
        ∧ ¬ unpolled.unseen.Hides 0x10f ∧ ¬ unpolled.unseen.Hides 0x120)
      ∧ (sample.busy = false ∧ sample.unseen.results = false ∧ ¬ sample.NextIssues ∧ running.isDone = false
        ∧ (sample.withHost ((sample.host.setDOUT (.holding 1)).setTAG (.holding 1))).host.TAG = .holding 1)
      ∧ (sample.Inv ∧ step sample = .next sample ∧ sample.agenda.head? ≠ some .reset
        ∧ sample.MEM.read 0x100 = some 0 ∧ ¬ sample.unseen.Hides 0x100 ∧ ¬ sample.NextHostWrites 0x100
        ∧ ¬ sample.SealMayWrite 0x100) := by
  refine ⟨⟨⟨_, rfl⟩, by decide +kernel⟩,
    ⟨running_inv .done [plain .finish] [] _ (by decide) (by decide) (by decide), by decide, by decide,
      0x110, 1, rfl, rfl, by decide, by decide⟩,
    ⟨by decide, by decide, by decide, ?_, ?_, ?_, ?_⟩, ⟨by decide, by decide, ?_, by decide, rfl⟩,
    sample_inv, rfl, by decide, by decide, ?_, ?_, ?_⟩
  all_goals
    simp [Unseen.Hides, unpolled, Range.has, State.NextIssues, State.NextHostWrites, State.SealMayWrite, sample,
      State.reset, Unseen.nothing, Sequencer.idle, SeqPos.idle]

/-- For EncryptScriptReturns. -/
theorem witness_script :
    { State.reset with agenda := encryptScript 0 0 ++ [Turn.core] }.agenda = encryptScript 0 0 ++ [Turn.core]
      ∧ { State.reset with agenda := encryptScript 0 0 ++ [Turn.core] }.busy = false := by decide

end Sys2Proof.Tests
end

section
/-! SUPPORT. Steps of the core: what one step can do, said once, and a position of the sequencer as the list of its
micro-operations, run on a state whose sequencer plays no part. -/

namespace Sys2Proof.Machine

variable {s t u v w : State}

/-! ## What every micro-operation but the completion leaves -/

/-- A part of a command leaves the platform, the host registers but TAG, STATUS, the sequencer, the turns, the replies,
what the host has not been shown and the number of free values drawn. -/
structure Carries (s t : State) : Prop where
  plat : t.plat = s.plat
  host : t.host = { s.host with TAG := t.host.TAG }
  status : t.STATUS = s.STATUS
  seq : t.seq = s.seq
  agenda : t.agenda = s.agenda
  replies : t.replies = s.replies
  unseen : t.unseen = s.unseen
  drawn : t.drawn = s.drawn

theorem Micro.Effect.carries {m : Micro} (h : m.Effect s t) : Carries s t :=
  ⟨h.plat, h.host, h.status, h.seq, h.agenda, h.replies, h.unseen, h.drawn⟩

/-- A state with other scratch registers. -/
theorem Carries.of_scratch (s : State) (d : Datapath) (o : Option OpOut) : Carries s { s with dp := d, out := o } :=
  ⟨rfl, rfl, rfl, rfl, rfl, rfl, rfl, rfl⟩

theorem Carries.refl (s : State) : Carries s s := .of_scratch s s.dp s.out

theorem Carries.trans (h : Carries s t) (k : Carries t u) : Carries s u :=
  ⟨k.plat.trans h.plat, by rw [k.host, h.host], k.status.trans h.status, k.seq.trans h.seq, k.agenda.trans h.agenda,
    k.replies.trans h.replies, k.unseen.trans h.unseen, k.drawn.trans h.drawn⟩

theorem Carries.busy (h : Carries s t) : t.busy = s.busy := by rw [State.busy, h.status, State.busy]

theorem Carries.isDone (h : Carries s t) : t.isDone = s.isDone := by rw [State.isDone, h.status, State.isDone]

theorem Carries.ptBlocks (h : Carries s t) : t.ptBlocks = s.ptBlocks := by rw [State.ptBlocks, h.host, State.ptBlocks]

theorem Carries.adBlocks (h : Carries s t) : t.adBlocks = s.adBlocks := by rw [State.adBlocks, h.host, State.adBlocks]

theorem Carries.operands (h : Carries s t) : SameOperands s.host t.host := by
  rw [h.host]
  exact ⟨rfl, rfl, rfl, rfl, rfl, rfl, rfl, rfl⟩

/-! ## One step -/

/-- Moving on changes the sequencer only, and not the command in progress. -/
theorem moveOn_frame (rest : List SeqItem) (s : State) :
    ∃ q, moveOn rest s = s.withSeq q ∧ q.pos.op = s.seq.pos.op := by
  obtain ⟨q, hq⟩ := moveOn_eq rest s
  refine ⟨q, hq, ?_⟩
  have hop : (moveOn rest s).seq.pos.op = s.seq.pos.op := by
    unfold moveOn
    split
    · rfl
    split
    · simp only [advance, enterGctr, enterHashAd, enterHashCt, enterHashLength]
      repeat' split
      all_goals rfl
    · rfl
  rwa [hq] at hop

/-- What a step of the core does. -/
inductive CoreCase (s t : State) : Prop where
  /-- Nothing, with no command in progress (R147). -/
  | idle (todo : s.seq.todo = []) (eq : t = s)
  /-- It completes the command. -/
  | finish (d : Reg Block) (todo : ∃ it rest, s.seq.todo = it :: rest ∧ it.act = .finish)
      (eq : t = complete (s.withHost (s.host.setDOUT d)))
  /-- It does a micro-operation that is not the completion, and moves on. -/
  | micro (it : SeqItem) (rest : List SeqItem) (u : State) (todo : s.seq.todo = it :: rest)
      (unfinished : it.act ≠ .finish) (run : it.act.run s = .next u) (eq : t = moveOn rest u)

theorem coreStep_cases (h : coreStep s = .next t) : CoreCase s t := by
  unfold coreStep at h
  split at h
  next htodo =>
    cases h
    exact .idle htodo rfl
  next it rest htodo =>
    obtain ⟨u, hu, h⟩ := andThen_eq_next.mp h
    cases h
    by_cases hf : it.act = .finish
    · rw [hf] at hu
      obtain ⟨d, rfl, -⟩ := Micro.run_finish hu
      exact .finish d ⟨it, rest, htodo, hf⟩ (if_pos rfl)
    · exact .micro it rest u htodo hf hu rfl

/-! ## The micro-operations of a position, apart from the sequencer -/

/-- A micro-operation at block `blk` of its loop. -/
def Micro.runAt (blk : Nat) (m : Micro) (s : State) : Result :=
  match m with
  | .load r => loadBlock r blk s
  | .store => storeBlock blk s
  | _ => m.run s

theorem Micro.run_eq_runAt (m : Micro) (s : State) : m.run s = m.runAt s.seq.pos.blk s := by cases m <;> rfl

/-- No micro-operation but the completion reads or writes the sequencer. -/
theorem Micro.runAt_withSeq {m : Micro} (hm : m ≠ .finish) (blk : Nat) (s : State) (q : Sequencer) :
    m.runAt blk (s.withSeq q) = andThen (m.runAt blk s) fun t => .next (t.withSeq q) := by
  cases m with
  | finish => exact absurd rfl hm
  | load r =>
    simp only [runAt, loadBlock, andThen_reading]
    rfl
  | ark r =>
    simp only [runAt, run, opArk]
    split <;> rfl
  | lenblk =>
    simp only [runAt, run, withSeq_adBlocks, withSeq_ptBlocks]
    by_cases h : s.adBlocks < 2 ^ 57 ∧ s.ptBlocks < 2 ^ 57
    · rw [opLenblk_eq h, opLenblk_eq h]
      rfl
    · rw [opLenblk, if_neg h, opLenblk, if_neg h, andThen_refused]
  | move d => cases d <;> rfl
  | _ => rfl

/-- A micro-operation but the completion carries on what `Carries` says, at any block. -/
theorem Micro.runAt_carries {m : Micro} (hm : m ≠ .finish) {blk : Nat} (h : m.runAt blk s = .next t) : Carries s t := by
  have hseq : t.seq = s.seq := by
    have e := Micro.runAt_withSeq hm blk s s.seq
    rw [withSeq_self, h, andThen_next] at e
    rw [Host.Outcome.next.inj e, withSeq_seq]
  have hrun : m.run (s.withSeq { s.seq with pos := { s.seq.pos with blk := blk } })
      = .next (t.withSeq { s.seq with pos := { s.seq.pos with blk := blk } }) := by
    rw [Micro.run_eq_runAt]
    exact (Micro.runAt_withSeq hm _ _ _).trans (by rw [withSeq_seq, h, andThen_next])
  have e := Micro.run_effect hm hrun
  exact ⟨e.plat, e.host, e.status, hseq, e.agenda, e.replies, e.unseen, e.drawn⟩

/-- The micro-operations of a list of items one after another, at block `blk`. -/
def runItems (blk : Nat) (items : List SeqItem) (s : State) : Result :=
  match items with
  | [] => .next s
  | it :: rest => andThen (it.act.runAt blk s) (runItems blk rest)

@[simp] theorem runItems_nil (blk : Nat) (s : State) : runItems blk [] s = .next s := rfl

theorem runItems_cons (blk : Nat) (it : SeqItem) (rest : List SeqItem) (s : State) :
    runItems blk (it :: rest) s = andThen (it.act.runAt blk s) (runItems blk rest) := rfl

theorem runItems_append (blk : Nat) (xs ys : List SeqItem) (s : State) :
    runItems blk (xs ++ ys) s = andThen (runItems blk xs s) (runItems blk ys) := by
  induction xs generalizing s with
  | nil => rfl
  | cons x xs ih =>
    rw [List.cons_append, runItems_cons, runItems_cons, andThen_assoc]
    congr 1
    funext v
    exact ih v

theorem runItems_carries {blk : Nat} {items : List SeqItem} (hf : ∀ it ∈ items, it.act ≠ .finish) (s t : State)
    (h : runItems blk items s = .next t) : Carries s t := by
  induction items generalizing s with
  | nil =>
    cases h
    exact .refl _
  | cons it rest ih =>
    obtain ⟨v, hv, h⟩ := andThen_eq_next.mp h
    exact (Micro.runAt_carries (hf it (by simp)) hv).trans (ih (fun x hx => hf x (by simp [hx])) v h)

/-! ## CIPHER and GFMUL as their micro-operations -/

/-- A register already holding `m` holds it still. -/
theorem setS_of_eq {m : Matrix} (h : s.dp.S = .holding m) : s.withDp (s.dp.setS (.holding m)) = s := by
  rw [← h, Datapath.setS_self, withDp_self]

theorem runItems_middleRound (blk : Nat) {r : Nat} (hr : r ≤ 10) (s : State) :
    runItems blk (middleRoundItems r) s
      = .next (s.withDp (s.dp.setS (.holding (middleRound s.dp.RK.val s.dp.S.val r)))) := by
  simp [middleRoundItems, runItems_cons, Micro.runAt, Micro.run, opSubb, opShrow, opMixc, onState_eq, opArk_eq hr,
    middleRound]

theorem runItems_rounds (blk : Nat) {rs : List Nat} (hr : ∀ r ∈ rs, r ≤ 10) {m : Matrix} (hm : s.dp.S = .holding m) :
    runItems blk (rs.flatMap middleRoundItems) s
      = .next (s.withDp (s.dp.setS (.holding (rs.foldl (middleRound s.dp.RK.val) m)))) := by
  induction rs generalizing s m with
  | nil =>
    rw [List.foldl_nil, setS_of_eq hm]
    rfl
  | cons r rs ih =>
    rw [List.flatMap_cons, runItems_append, runItems_middleRound blk (hr r (by simp)), andThen_next,
      ih (fun x hx => hr x (by simp [hx])) (by rw [withDp_dp, Datapath.setS_S]), hm]
    simp

/-- The 42 micro-operations of R90 are CIPHER of their source. -/
theorem runItems_cipher (blk : Nat) (src : Src) (s : State) :
    runItems blk (cipherItems src) s = opCipher (src.block s) s := by
  have hrounds : ∀ r ∈ List.range' 1 9, r ≤ 10 := by decide
  have hfirst : runItems blk [{ rnd := 0, bit := 0, act := .ldst src }, { rnd := 0, bit := 0, act := .ark 0 }] s
      = .next (s.withDp (s.dp.setS (.holding (addRoundKey (roundKey s.dp.RK.val 0) (loadState (src.block s)))))) := by
    simp [runItems_cons, Micro.runAt, Micro.run, opLdst_eq, opArk_eq]
  rw [cipherItems, runItems_append, runItems_append, hfirst, andThen_next, runItems_rounds blk hrounds rfl,
    andThen_next]
  simp [runItems_cons, Micro.runAt, Micro.run, opArk_eq, opSubb, opShrow, onState_eq, opStst_eq, opCipher_eq,
    cipherBlock, cipherState]

/-- The loop of R104, from what Z and V hold. -/
theorem runItems_gfsteps (blk : Nat) (is : List Nat) {z b : Block} (hz : s.dp.Z = .holding z)
    (hb : s.dp.V = .holding b) :
    runItems blk (is.map fun i => { rnd := 0, bit := i, act := .gfstep i }) s
      = .next (s.withDp ((s.dp.setZ (.holding (gfSteps s.dp.H.val is (z, b)).1)).setV
          (.holding (gfSteps s.dp.H.val is (z, b)).2))) := by
  induction is generalizing s z b with
  | nil =>
    simp only [gfSteps, List.foldl_nil, List.map_nil, runItems_nil, ← hz, ← hb]
    rfl
  | cons i is ih =>
    rw [List.map_cons, runItems_cons]
    simp only [Micro.runAt, Micro.run, gfstepOfH, opGfstep_eq, andThen_next]
    rw [ih (by simp; rfl) (by simp; rfl)]
    simp [hz, hb, gfSteps]
    rfl

/-- The micro-operations of R104 with its operands of R117 are `Y <- GFMUL(H, XOR128(Y, src))`. -/
theorem runItems_hash (blk : Nat) (src : Src) (s : State) :
    runItems blk (hashItems src) s = hashBlock (src.block s) s := by
  have hseed : runItems blk [plain (.xor128 .y src), plain .seed] s
      = .next ((s.deliver (.block (s.dp.Y.val ^^^ src.block s))).withDp
          ((s.dp.setZ (.holding 0)).setV (.holding (s.dp.Y.val ^^^ src.block s)))) := rfl
  rw [hashItems, runItems_append, runItems_append, hseed, andThen_next, runItems_gfsteps blk (List.range 128) rfl rfl,
    andThen_next, hashBlock_eq, gfMul, gfLoop]
  generalize List.range 128 = is
  rfl

end Sys2Proof.Machine
end

section
/-! SUPPORT. Runs of the core: a command issued and run one micro-operation a step ends as the whole command (R10, R91,
R121; log 4). -/

namespace Sys2Proof.Machine

variable {s t u v w : State}

theorem andThen_congr {r : Result} {f g : State → Result} (h : ∀ s, f s = g s) : andThen r f = andThen r g := by
  rw [funext h]

/-! ## Runs -/

/-- `n` steps of the core lead from one state to another, with BUSY 1 and DONE 0 before each. -/
inductive CoreRun : Nat → State → State → Prop where
  | refl (s : State) : CoreRun 0 s s
  | step {n : Nat} {s u t : State} (busy : s.busy = true) (done : s.isDone = false) (eq : coreStep s = .next u)
      (rest : CoreRun n u t) : CoreRun (n + 1) s t

theorem CoreRun.trans {m n : Nat} (h : CoreRun m s t) (k : CoreRun n t u) : CoreRun (m + n) s u := by
  induction h with
  | refl s => rwa [Nat.zero_add]
  | step hb hd hs _ ih =>
    rw [Nat.add_right_comm]
    exact .step hb hd hs (ih k)

theorem CoreRun.cast {m n : Nat} (h : CoreRun m s t) (e : m = n) : CoreRun n s t := e ▸ h

/-- What every step of the core keeps, a run keeps. -/
theorem CoreRun.keeps {P : State → Prop} (hP : ∀ s t, P s → coreStep s = .next t → P t) {n : Nat} (h : CoreRun n s t)
    (hs : P s) : P t := by
  induction h with
  | refl s => exact hs
  | step _ _ hstep _ ih => exact ih (hP _ _ hs hstep)

theorem coreStep_agenda (h : coreStep s = .next t) : t.agenda = s.agenda := by
  cases coreStep_cases h with
  | idle _ eq => rw [eq]
  | finish d _ eq => rw [eq]; rfl
  | micro it rest u _ unfinished run eq =>
    obtain ⟨q, hq, -⟩ := moveOn_frame rest u
    rw [eq, hq, withSeq_agenda, (Micro.run_effect unfinished run).agenda]

theorem runSteps_succ (n : Nat) (h : step s = .next t) : runSteps (n + 1) s = runSteps n t := by
  have hrun : ∀ (M : Host.Core) (a b : M.State), M.step a = .next b → M.run (n + 1) a = M.run n b := by
    intro M a b hab
    simp only [Host.Core.run, hab]
  exact hrun core s t h

theorem step_of_no_turn (h : s.agenda = []) : step s = coreStep s := by rw [step, h]

/-- With no turn to come a run of the core is a run of the machine. -/
theorem CoreRun.runSteps {n : Nat} (h : CoreRun n s t) (ha : s.agenda = []) : runSteps n s = .next t := by
  induction h with
  | refl s => rfl
  | step _ _ hs _ ih =>
    rw [runSteps_succ _ ((step_of_no_turn ha).trans hs), ih (by rw [coreStep_agenda hs, ha])]

/-- Every state of a run but the last is one in which the command is in progress. -/
theorem CoreRun.busy_before {n : Nat} (h : CoreRun n s t) (ha : s.agenda = []) {k : Nat} (hk : k < n) :
    ∃ u, Machine.runSteps k s = .next u ∧ u.busy = true ∧ u.isDone = false := by
  induction h generalizing k with
  | refl s => omega
  | step hb hd hs _ ih =>
    cases k with
    | zero => exact ⟨_, rfl, hb, hd⟩
    | succ k =>
      rw [runSteps_succ _ ((step_of_no_turn ha).trans hs)]
      exact ih (by rw [coreStep_agenda hs, ha]) (by omega)

/-! ## One position of the sequencer -/

/-- A command `c` is in progress, by the flags and the sequencer. -/
structure InProgress (c : Command) (s : State) : Prop where
  op : s.seq.pos.op = some c
  busy : s.busy = true
  done : s.isDone = false

theorem InProgress.carry {c : Command} (h : InProgress c s) (k : Carries s t) : InProgress c t :=
  ⟨by rw [k.seq, h.op], by rw [k.busy, h.busy], by rw [k.isDone, h.done]⟩

theorem inProgress_issue (c : Command) (s : State) : InProgress c (issue c s) := ⟨rfl, busy_issue c s, isDone_issue c s⟩

/-- The state `s` with the sequencer at the micro-operations `items` of a position. -/
def State.standing (s : State) (pos : SeqPos) (items : List SeqItem) : State := s.withSeq { pos := pos, todo := items }

theorem enter_eq_standing {c : Command} (h : s.seq.pos.op = some c) (p : Phase) (blk : Nat) (items : List SeqItem) :
    enter p blk items s = s.standing { op := some c, phase := p, rnd := 0, blk := blk, bit := 0 } items := by
  rw [enter, h, State.standing]

/-- Where the position goes next depends on the command, PHASE and BLK only. -/
theorem advance_standing {c : Command} (h : w.seq.pos.op = some c) {p : Phase} (hp : p ≠ .idle ∧ p ≠ .done)
    (rnd blk bit : Nat) (items : List SeqItem) :
    advance (w.standing { op := some c, phase := p, rnd := rnd, blk := blk, bit := bit } items)
      = advance (enter p blk [] w) := by
  rw [enter_eq_standing h]
  cases p with
  | idle => exact absurd rfl hp.1
  | done => exact absurd rfl hp.2
  | _ => cases c <;> rfl

theorem coreStep_standing {pos : SeqPos} {it : SeqItem} {rest : List SeqItem} (hf : it.act ≠ .finish)
    (h : it.act.runAt pos.blk v = .next w) :
    coreStep (v.standing pos (it :: rest)) = .next (moveOn rest (w.standing pos (it :: rest))) := by
  have hrun : it.act.run (v.standing pos (it :: rest)) = .next (w.standing pos (it :: rest)) := by
    rw [Micro.run_eq_runAt, State.standing, withSeq_seq, Micro.runAt_withSeq hf, h, andThen_next, State.standing]
  show andThen (it.act.run (v.standing pos (it :: rest))) _ = _
  rw [hrun, andThen_next]

/-- The micro-operations of a position run on the sequencer as they do apart from it, one a step; then the position is
advanced. -/
theorem coreRun_standing {c : Command} {p : Phase} (hp : p ≠ .idle ∧ p ≠ .done) {blk : Nat} {items : List SeqItem}
    (hne : items ≠ []) (hf : ∀ it ∈ items, it.act ≠ .finish) (hv : InProgress c v)
    (h : runItems blk items v = .next w) (rnd bit : Nat) :
    CoreRun items.length (v.standing { op := some c, phase := p, rnd := rnd, blk := blk, bit := bit } items)
      (advance (enter p blk [] w)) := by
  induction items generalizing v rnd bit with
  | nil => exact absurd rfl hne
  | cons it rest ih =>
    obtain ⟨u, hu, hr⟩ := andThen_eq_next.mp h
    have hit : it.act ≠ .finish := hf it (by simp)
    have hpu := hv.carry (Micro.runAt_carries hit hu)
    refine .step hv.busy hv.done (coreStep_standing hit hu) ?_
    cases rest with
    | nil =>
      cases hr
      have hmove : moveOn [] (w.standing { op := some c, phase := p, rnd := rnd, blk := blk, bit := bit } [it])
          = advance (w.standing { op := some c, phase := p, rnd := rnd, blk := blk, bit := bit } [it]) := rfl
      rw [hmove, advance_standing hpu.op hp]
      exact .refl _
    | cons it' rest' => exact ih (by simp) (fun x hx => hf x (by simp [hx])) hpu hr it'.rnd it'.bit

theorem coreRun_position {c : Command} {p : Phase} (hp : p ≠ .idle ∧ p ≠ .done) {blk : Nat} {items : List SeqItem}
    (hne : items ≠ []) (hf : ∀ it ∈ items, it.act ≠ .finish) (hv : InProgress c v)
    (h : runItems blk items v = .next w) :
    CoreRun items.length (enter p blk items v) (advance (enter p blk [] w)) := by
  rw [enter_eq_standing hv.op]
  exact coreRun_standing hp hne hf hv h 0 0

/-- The completion, as the sequencer reaches it. -/
theorem coreRun_finish {c : Command} (hw : InProgress c w) (h : opFinish w = .next t) :
    CoreRun 1 (enter .done 0 [plain .finish] w) t := by
  refine .step hw.busy hw.done ?_ (.refl t)
  have hfin : Micro.run .finish (enter .done 0 [plain .finish] w) = .next t ∧ t.seq.pos.op = none := by
    simp only [Micro.run, opFinish, enter, withSeq_seq] at h ⊢
    split at h <;> cases h <;> exact ⟨rfl, rfl⟩
  show andThen (Micro.run .finish (enter .done 0 [plain .finish] w)) _ = _
  rw [hfin.1, andThen_next, moveOn, if_pos hfin.2]

/-! ## The phases of SEAL with a loop over blocks -/

section Loop

/-- A phase whose position at each block is `items`, with the body `f` of the loop over `count` blocks, and what follows
it. -/
structure LoopPhase (p : Phase) (items : List SeqItem) (f : Nat → State → Result) (count : State → Nat)
    (after : State → State) : Prop where
  phase : p ≠ .idle ∧ p ≠ .done
  nonempty : items ≠ []
  unfinished : ∀ it ∈ items, it.act ≠ .finish
  body : ∀ j v, runItems j items v = f j v
  counted : ∀ {v w}, Carries v w → count w = count v
  advance : ∀ j w, advance (enter p j [] w) = if j + 1 < count w then enter p (j + 1) items w else after w

variable {c : Command} {p : Phase} {items : List SeqItem} {f : Nat → State → Result} {count : State → Nat}
  {after : State → State}

/-- From the end of block `j` on, the blocks that are left run one after another. -/
theorem LoopPhase.coreRun_blocks (L : LoopPhase p items f count after) {n j : Nat} (hn : count v = j + 1 + n)
    (hv : InProgress c v) (h : forBlocks f n (j + 1) v = .next w) :
    CoreRun (n * items.length) (Machine.advance (enter p j [] v)) (after w) := by
  induction n generalizing j v with
  | zero =>
    cases h
    rw [L.advance, if_neg (by omega), Nat.zero_mul]
    exact .refl _
  | succ n ih =>
    obtain ⟨u, hu, hr⟩ := andThen_eq_next.mp h
    rw [← L.body] at hu
    have hc := runItems_carries L.unfinished v u hu
    rw [L.advance, if_pos (by omega)]
    exact ((coreRun_position L.phase L.nonempty L.unfinished hv hu).trans
      (ih (by rw [L.counted hc]; omega) (hv.carry hc) hr)).cast (by ring)

/-- A phase that begins with the micro-operations `pre` and goes on with its blocks. -/
theorem LoopPhase.coreRun (L : LoopPhase p items f count after) {pre : List SeqItem}
    (hpre : ∀ it ∈ pre, it.act ≠ .finish) (hne : pre ≠ [] ∨ 0 < count v) (hv : InProgress c v)
    (hu : runItems 0 pre v = .next u) (h : forBlocks f (count u) 0 u = .next w) :
    CoreRun (pre.length + count v * items.length)
      (enter p 0 (pre ++ if 0 < count v then items else []) v) (after w) := by
  have hc := runItems_carries hpre v u hu
  rw [L.counted hc] at h
  cases hn : count v with
  | zero =>
    rw [hn] at h
    cases h
    have hrun := coreRun_position L.phase (hne.resolve_right (by omega)) hpre hv hu
    rw [L.advance, L.counted hc, if_neg (by omega)] at hrun
    simpa using hrun
  | succ n =>
    rw [hn] at h
    obtain ⟨x, hx, hr⟩ := andThen_eq_next.mp h
    rw [← L.body] at hx
    have hpi : ∀ it ∈ pre ++ items, it.act ≠ .finish := fun it hit =>
      (List.mem_append.mp hit).elim (hpre it) (L.unfinished it)
    have hvx : runItems 0 (pre ++ items) v = .next x := by rw [runItems_append, hu, andThen_next, hx]
    have hcx := runItems_carries hpi v x hvx
    rw [if_pos (by omega)]
    exact ((coreRun_position L.phase (by simp [L.nonempty]) hpi hv hvx).trans
      (L.coreRun_blocks (by rw [L.counted hcx]; omega) (hv.carry hcx) hr)).cast (by rw [List.length_append]; ring)

end Loop

/-! ## Which lists hold the completion: none but that of PHASE DONE -/

theorem hashItems_unfinished (src : Src) : ∀ it ∈ hashItems src, it.act ≠ .finish := by
  intro it hit
  simp only [hashItems, List.mem_append, List.mem_map] at hit
  rcases hit with (hit | ⟨i, -, rfl⟩) | hit
  · revert it hit
    cases src <;> decide
  · simp
  · revert it hit
    decide

theorem gctrItems_unfinished : ∀ it ∈ gctrItems, it.act ≠ .finish := by decide

theorem hashBlockItems_unfinished (r : RegionName) : ∀ it ∈ hashBlockItems r, it.act ≠ .finish :=
  List.forall_mem_cons.mpr ⟨by simp [plain], hashItems_unfinished _⟩

theorem tagItems_unfinished : ∀ it ∈ tagItems, it.act ≠ .finish := by decide

@[simp] theorem length_cipherItems (src : Src) : (cipherItems src).length = 42 := rfl

@[simp] theorem length_hashItems (src : Src) : (hashItems src).length = 132 := by simp [hashItems]

@[simp] theorem length_gctrItems : gctrItems.length = 47 := rfl

@[simp] theorem length_hashBlockItems (r : RegionName) : (hashBlockItems r).length = 133 := by simp [hashBlockItems]

@[simp] theorem length_tagItems : tagItems.length = 47 := rfl

/-! ## The positions of SEAL as the parts of the whole command -/

theorem runItems_singleton (blk : Nat) (it : SeqItem) (s : State) : runItems blk [it] s = it.act.runAt blk s := by
  rw [runItems_cons]
  cases it.act.runAt blk s <;> rfl

theorem runItems_hsub (s : State) : runItems 0 (cipherItems .zero ++ [plain (.move .h)]) s = opHsub s := by
  rw [runItems_append, runItems_cipher]
  exact andThen_congr fun v => runItems_singleton 0 (plain (.move .h)) v

theorem runItems_gctr (j : Nat) (s : State) : runItems j gctrItems s = sealGctrBlock j s := by
  rw [gctrItems, runItems_append, runItems_append, runItems_singleton, andThen_assoc]
  refine andThen_congr fun v => ?_
  rw [runItems_cipher, keystream, andThen_assoc]
  refine andThen_congr fun v => ?_
  rw [runItems_cons]
  refine andThen_congr fun v => ?_
  rw [runItems_cons]
  refine andThen_congr fun v => ?_
  rw [runItems_cons]
  exact andThen_congr fun v => runItems_singleton j (plain .inc32) v

theorem runItems_hashBlock (r : RegionName) (j : Nat) (s : State) :
    runItems j (hashBlockItems r) s = sealHashBlock r j s := by
  rw [hashBlockItems, runItems_cons]
  exact andThen_congr fun v => runItems_hash j .x v

theorem runItems_hashLength (s : State) : runItems 0 (plain .lenblk :: hashItems .lb) s = sealHashLength s := by
  rw [runItems_cons]
  exact andThen_congr fun v => runItems_hash 0 .lb v

theorem runItems_tag (s : State) : runItems 0 tagItems s = opTagenc s := by
  rw [tagItems, runItems_append, runItems_append, runItems_singleton, andThen_assoc]
  refine andThen_congr fun v => ?_
  rw [runItems_cipher]
  rfl

theorem loop_gctr : LoopPhase .gctr gctrItems sealGctrBlock State.ptBlocks enterHashAd where
  phase := by decide
  nonempty := by simp [gctrItems]
  unfinished := gctrItems_unfinished
  body := runItems_gctr
  counted h := h.ptBlocks
  advance _ _ := rfl

theorem loop_hashAd : LoopPhase .ghashAd (hashBlockItems .ad) (sealHashBlock .ad) State.adBlocks enterHashCt where
  phase := by decide
  nonempty := by simp [hashBlockItems]
  unfinished := hashBlockItems_unfinished .ad
  body := runItems_hashBlock .ad
  counted h := h.adBlocks
  advance j w := by
    show (if j + 1 < w.adBlocks then _ else enterHashCt (enter .ghashAd j [] w)) = _
    simp only [enterHashCt]
    rfl

theorem loop_hashCt : LoopPhase .ghashCt (hashBlockItems .ct) (sealHashBlock .ct) State.ptBlocks enterHashLength where
  phase := by decide
  nonempty := by simp [hashBlockItems]
  unfinished := hashBlockItems_unfinished .ct
  body := runItems_hashBlock .ct
  counted h := h.ptBlocks
  advance _ _ := rfl

end Sys2Proof.Machine
end

section
/-! SUPPORT. ENCRYPT_BLOCK and SEAL as runs of the core, and that a SEAL whose checks pass completes. -/

namespace Sys2Proof.Machine

variable {s t u v w : State}

/-! ## ENCRYPT_BLOCK -/

theorem coreRun_kexp {c : Command} (hv : InProgress c v) (h : opKexp v = .next w) :
    CoreRun 1 (enter .kexp 0 [plain .kexp] v) (advance (enter .kexp 0 [] w)) ∧ Carries v w := by
  have hrun : runItems 0 [plain .kexp] v = .next w := (runItems_singleton 0 (plain .kexp) v).trans h
  have hf : ∀ it ∈ [plain .kexp], it.act ≠ .finish := by decide
  exact ⟨coreRun_position (by decide) (by simp) hf hv hrun, runItems_carries hf v w hrun⟩

/-- An ENCRYPT_BLOCK issued and run to its end is the whole command. -/
theorem coreRun_encrypt (h : runEncrypt (issue .encryptBlock s) = .next t) :
    CoreRun encryptSteps (issue .encryptBlock s) t := by
  obtain ⟨v, hv, h⟩ := andThen_eq_next.mp h
  rw [← andThen_assoc] at h
  obtain ⟨w, hw, h⟩ := andThen_eq_next.mp h
  obtain ⟨hkexp, hc⟩ := coreRun_kexp (inProgress_issue .encryptBlock s) hv
  have pv := (inProgress_issue .encryptBlock s).carry hc
  have hnext : advance (enter .kexp 0 [] v) = enter .cipher 0 (cipherItems .din ++ [plain (.move .ks)]) v := by
    simp only [advance, enter, withSeq_seq, pv.op, withSeq_withSeq]
  have hrun : runItems 0 (cipherItems .din ++ [plain (.move .ks)]) v = .next w := by
    rw [runItems_append, runItems_cipher, ← hw]
    exact andThen_congr fun x => runItems_singleton 0 (plain (.move .ks)) x
  have hf : ∀ it ∈ cipherItems .din ++ [plain (.move .ks)], it.act ≠ .finish := by decide
  have hcipher := coreRun_position (p := .cipher) (by decide) (by simp) hf pv hrun
  have hfinish := coreRun_finish (pv.carry (runItems_carries hf v w hrun)) h
  rw [hnext] at hkexp
  exact (hkexp.trans (hcipher.trans hfinish)).cast (by simp [encryptSteps])

/-- An ENCRYPT_BLOCK that is accepted completes with CIPHER of DIN under KEY in DOUT (R92). -/
theorem runEncrypt_eq (h : s.seq.pos.op = some .encryptBlock) :
    runEncrypt s = .next (complete
      (s.withHost (s.host.setDOUT (.holding (cipherBlock (expandKey s.host.KEY.val) s.host.DIN.val))))) := by
  simp only [runEncrypt, opKexp_eq, opCipher_eq, andThen_next, moveTo, opFinish, withDp_seq, deliver_seq, h]
  rfl

theorem execEncryptBlock_eq (h : encryptCheck s = none) :
    execEncryptBlock s = runEncrypt (issue .encryptBlock s) := by rw [execEncryptBlock, h]

/-- What an ENCRYPT_BLOCK that answers next does. -/
theorem execEncryptBlock_next (h : execEncryptBlock s = .next t) :
    encryptCheck s = none ∧ CoreRun encryptSteps (issue .encryptBlock s) t ∧ ∃ d,
      t = complete ((issue .encryptBlock s).withHost ((issue .encryptBlock s).host.setDOUT d)) := by
  cases hc : encryptCheck s with
  | some r => simp [execEncryptBlock, hc] at h
  | none =>
    rw [execEncryptBlock_eq hc] at h
    refine ⟨rfl, coreRun_encrypt h, ?_⟩
    rw [runEncrypt_eq rfl] at h
    exact ⟨_, (Host.Outcome.next.inj h).symm⟩

/-! ## SEAL, phase by phase -/

/-- A loop of a phase carries on what each block does. -/
theorem LoopPhase.carries {p : Phase} {items : List SeqItem} {f : Nat → State → Result} {count : State → Nat}
    {after : State → State} (L : LoopPhase p items f count after) (n j : Nat) (s t : State)
    (h : forBlocks f n j s = .next t) : Carries s t := by
  induction n generalizing j s with
  | zero =>
    cases h
    exact .refl _
  | succ n ih =>
    obtain ⟨v, hv, h⟩ := andThen_eq_next.mp h
    rw [← L.body] at hv
    exact (runItems_carries L.unfinished s v hv).trans (ih (j + 1) v h)

/-- A phase of one position, at which the part `r` of the whole command is done. -/
theorem coreRun_phase {c : Command} {p : Phase} (hp : p ≠ .idle ∧ p ≠ .done) {items : List SeqItem} (hne : items ≠ [])
    (hf : ∀ it ∈ items, it.act ≠ .finish) (hv : InProgress c v) (h : runItems 0 items v = .next w) :
    CoreRun items.length (enter p 0 items v) (advance (enter p 0 [] w)) ∧ Carries v w ∧ InProgress c w :=
  have hc := runItems_carries hf v w h
  ⟨coreRun_position hp hne hf hv h, hc, hv.carry hc⟩

section Phases

variable {c : Command} (hv : InProgress c v)
include hv

theorem coreRun_hsub (h : opHsub v = .next w) :
    CoreRun 43 (enter .hsub 0 (cipherItems .zero ++ [plain (.move .h)]) v) (enterGctr w) ∧ Carries v w
      ∧ InProgress c w :=
  coreRun_phase (p := .hsub) (by decide) (by simp) (by decide) hv ((runItems_hsub v).trans h)

theorem coreRun_gctr (h1 : opMkj0 v = .next t) (h2 : opInc32 t = .next u)
    (h : forBlocks sealGctrBlock u.ptBlocks 0 u = .next w) :
    CoreRun (2 + v.ptBlocks * 47) (enterGctr v) (enterHashAd w) ∧ Carries v w ∧ InProgress c w := by
  have hpre : runItems 0 [plain .mkj0, plain .inc32] v = .next u := by
    rw [runItems_cons]
    show andThen (opMkj0 v) _ = _
    rw [h1, andThen_next, runItems_singleton]
    exact h2
  have hf : ∀ it ∈ [plain .mkj0, plain .inc32], it.act ≠ .finish := by decide
  have hc := (runItems_carries hf v u hpre).trans (loop_gctr.carries _ _ _ _ h)
  exact ⟨loop_gctr.coreRun hf (.inl (by simp)) hv hpre h, hc, hv.carry hc⟩

theorem coreRun_hashAd (h1 : opClearY v = .next u) (h : forBlocks (sealHashBlock .ad) u.adBlocks 0 u = .next w) :
    CoreRun (1 + v.adBlocks * 133) (enterHashAd v) (enterHashCt w) ∧ Carries v w ∧ InProgress c w := by
  have hpre : runItems 0 [plain .clearY] v = .next u := (runItems_singleton 0 (plain .clearY) v).trans h1
  have hf : ∀ it ∈ [plain .clearY], it.act ≠ .finish := by decide
  have hc := (runItems_carries hf v u hpre).trans (loop_hashAd.carries _ _ _ _ h)
  exact ⟨(loop_hashAd.coreRun hf (.inl (by simp)) hv hpre h).cast (by simp), hc, hv.carry hc⟩

/-- PHASE GHASH_CT, passed over with no block to hash. -/
theorem coreRun_hashCt (h : forBlocks (sealHashBlock .ct) v.ptBlocks 0 v = .next w) :
    CoreRun (v.ptBlocks * 133) (enterHashCt v) (enterHashLength w) ∧ Carries v w ∧ InProgress c w := by
  have hc := loop_hashCt.carries _ _ _ _ h
  refine ⟨?_, hc, hv.carry hc⟩
  unfold enterHashCt
  split
  next hpos =>
    have hrun := loop_hashCt.coreRun (pre := []) (by simp) (.inr hpos) hv rfl h
    rw [if_pos hpos, List.nil_append] at hrun
    exact hrun.cast (by simp)
  next hzero =>
    have h0 : v.ptBlocks = 0 := by omega
    rw [h0] at h ⊢
    cases h
    exact (CoreRun.refl _).cast (by omega)

theorem coreRun_hashLength (h : sealHashLength v = .next w) :
    CoreRun 133 (enterHashLength v) (enter .tagenc 0 tagItems w) ∧ Carries v w ∧ InProgress c w := by
  have hf : ∀ it ∈ plain .lenblk :: hashItems .lb, it.act ≠ .finish :=
    List.forall_mem_cons.mpr ⟨by decide, hashItems_unfinished .lb⟩
  have hrun := coreRun_phase (p := .ghashLen) (by decide) (by simp) hf hv ((runItems_hashLength v).trans h)
  exact ⟨hrun.1.cast (by simp), hrun.2⟩

theorem coreRun_tag (h : opTagenc v = .next w) :
    CoreRun 47 (enter .tagenc 0 tagItems v) (enter .done 0 [plain .finish] w) ∧ Carries v w ∧ InProgress c w :=
  coreRun_phase (p := .tagenc) (by decide) (by simp [tagItems]) tagItems_unfinished hv ((runItems_tag v).trans h)

end Phases

/-- A SEAL issued and run to its end is the whole command, which ends with the completion of a state its phases lead
to. -/
theorem coreRun_seal (h : runSeal (issue .sealMessage s) = .next t) :
    CoreRun (sealSteps s.ptBlocks s.adBlocks) (issue .sealMessage s) t
      ∧ ∃ v, Carries (issue .sealMessage s) v ∧ opFinish v = .next t := by
  have p0 := inProgress_issue .sealMessage s
  obtain ⟨v1, h1, h⟩ := andThen_eq_next.mp h
  obtain ⟨v2, h2, h⟩ := andThen_eq_next.mp h
  obtain ⟨v3, h3, h⟩ := andThen_eq_next.mp h
  obtain ⟨v4, h4, h⟩ := andThen_eq_next.mp h
  obtain ⟨v5, h5, h⟩ := andThen_eq_next.mp h
  obtain ⟨v6, h6, h⟩ := andThen_eq_next.mp h
  obtain ⟨v7, h7, h⟩ := andThen_eq_next.mp h
  obtain ⟨v8, h8, h⟩ := andThen_eq_next.mp h
  obtain ⟨v9, h9, h⟩ := andThen_eq_next.mp h
  obtain ⟨v10, h10, h⟩ := andThen_eq_next.mp h
  obtain ⟨r1, c1⟩ := coreRun_kexp p0 h1
  have p1 := p0.carry c1
  have e1 : advance (enter .kexp 0 [] v1) = enter .hsub 0 (cipherItems .zero ++ [plain (.move .h)]) v1 := by
    simp only [advance, enter, withSeq_seq, p1.op, withSeq_withSeq]
  rw [e1] at r1
  obtain ⟨r2, c2, p2⟩ := coreRun_hsub p1 h2
  obtain ⟨r5, c5, p5⟩ := coreRun_gctr p2 h3 h4 h5
  obtain ⟨r7, c7, p7⟩ := coreRun_hashAd p5 h6 h7
  obtain ⟨r8, c8, p8⟩ := coreRun_hashCt p7 h8
  obtain ⟨r9, c9, p9⟩ := coreRun_hashLength p8 h9
  obtain ⟨r10, c10, p10⟩ := coreRun_tag p9 h10
  have r11 := coreRun_finish p10 h
  have hpt2 : v2.ptBlocks = s.ptBlocks := (c1.trans c2).ptBlocks
  have had5 : v5.adBlocks = s.adBlocks := (c1.trans (c2.trans c5)).adBlocks
  have hpt7 : v7.ptBlocks = s.ptBlocks := (c1.trans (c2.trans (c5.trans c7))).ptBlocks
  refine ⟨(r1.trans (r2.trans (r5.trans (r7.trans (r8.trans (r9.trans (r10.trans r11))))))).cast ?_,
    v10, c1.trans (c2.trans (c5.trans (c7.trans (c8.trans (c9.trans c10))))), h⟩
  rw [hpt2, had5, hpt7, sealSteps]
  ring
end Sys2Proof.Machine
end

section
/-! SUPPORT. A SEAL whose checks pass completes: every block it loads is there (R32, R122). -/

namespace Sys2Proof.Machine

variable {s t u v w : State}

theorem Memory.readBlock_of_bytes {m : Memory} {a : Nat} (h : ∀ k < 16, (m.read (a + k)).isSome) :
    ∃ b, m.readBlock a = some b := by
  refine ⟨blockOf fun k => (m.read (a + k)).getD 0, Memory.readBlock_eq_some.mpr fun k hk => ?_⟩
  obtain ⟨b, hb⟩ := Option.isSome_iff_exists.mp (h k hk)
  rw [byteAt_blockOf _ k hk, hb, Option.getD_some]

theorem Memory.isSome_read_writeBlock {m : Memory} {a x : Nat} {b : Block}
    (h : (m.read x).isSome ∨ (a ≤ x ∧ x < a + 16)) : ((m.writeBlock a b).read x).isSome := by
  rw [Memory.read_writeBlock]
  split
  · rfl
  next hx => exact h.resolve_right hx

theorem loadBlock_of_bytes {r : RegionName} {i : Nat} (h : ∀ k < 16, (s.MEM.read (r.block i s + k)).isSome) :
    ∃ x, loadBlock r i s = .next (s.withDp (s.dp.setX (.holding x))) := by
  obtain ⟨x, hx⟩ := Memory.readBlock_of_bytes h
  exact ⟨x, by rw [loadBlock, hx, reading_some]⟩

theorem Carries.block (h : Carries s t) (r : RegionName) (i : Nat) : r.block i t = r.block i s := by
  cases r <;> simp only [RegionName.block, RegionName.baseReg] <;> rw [h.host]

/-- Between the issue of a SEAL and its completion: what `Carries` says, every byte that held a value still holds one,
and so do the first `n` blocks of the ciphertext region. -/
structure SealProgress (s v : State) (n : Nat) : Prop where
  carries : Carries s v
  kept : ∀ x, (s.MEM.read x).isSome → (v.MEM.read x).isSome
  stored : ∀ i < n, ∀ k < 16, (v.MEM.read (RegionName.ct.block i s + k)).isSome

theorem SealProgress.of_same_memory {n : Nat} (h : SealProgress s v n) (hc : Carries v w) (hm : w.MEM = v.MEM) :
    SealProgress s w n :=
  ⟨h.carries.trans hc, by rw [hm]; exact h.kept, by rw [hm]; exact h.stored⟩

theorem SealProgress.cast {m n : Nat} (h : SealProgress s v m) (e : m = n) : SealProgress s v n := e ▸ h

/-- Block `i` of PHASE GCTR is stored. -/
theorem sealGctrBlock_progress {i : Nat} (h : SealProgress s v i)
    (hpt : ∀ k < 16, (s.MEM.read (RegionName.pt.block i s + k)).isSome) :
    ∃ w, sealGctrBlock i v = .next w ∧ SealProgress s w (i + 1) := by
  obtain ⟨x, hx⟩ := loadBlock_of_bytes (s := v) (r := .pt) (i := i) fun k hk => by
    rw [h.carries.block]
    exact h.kept _ (hpt k hk)
  have hw : ∃ w, sealGctrBlock i v = .next w ∧ ∃ b, w.MEM = v.MEM.writeBlock (RegionName.ct.block i v) b := by
    simp only [sealGctrBlock, hx, andThen_next, keystream_eq, xorKeystream_eq, storeBlock, opInc32_eq]
    refine ⟨_, rfl, ?_⟩
    simp only [withDp_MEM, deliver_MEM, withMem_MEM]
    exact ⟨_, rfl⟩
  obtain ⟨w, hw, b, hm⟩ := hw
  rw [h.carries.block] at hm
  refine ⟨w, hw, h.carries.trans (runItems_carries gctrItems_unfinished v w ((runItems_gctr i v).trans hw)), ?_, ?_⟩
  · intro x hx
    rw [hm]
    exact Memory.isSome_read_writeBlock (.inl (h.kept x hx))
  · intro j hj k hk
    rw [hm]
    by_cases he : j = i
    · subst he
      exact Memory.isSome_read_writeBlock (.inr (by omega))
    · exact Memory.isSome_read_writeBlock (.inl (h.stored j (by omega) k hk))

/-- Block `i` of PHASE GHASH_AD or GHASH_CT is hashed. -/
theorem sealHashBlock_progress {r : RegionName} {i n : Nat} (h : SealProgress s v n)
    (hr : ∀ k < 16, (v.MEM.read (r.block i s + k)).isSome) :
    ∃ w, sealHashBlock r i v = .next w ∧ SealProgress s w n := by
  obtain ⟨x, hx⟩ := loadBlock_of_bytes (s := v) (r := r) (i := i) fun k hk => by
    rw [h.carries.block]
    exact hr k hk
  have hw : ∃ w, sealHashBlock r i v = .next w ∧ w.MEM = v.MEM := by
    simp only [sealHashBlock, hx, andThen_next, hashBlock_eq]
    exact ⟨_, rfl, rfl⟩
  obtain ⟨w, hw, hm⟩ := hw
  have hc := runItems_carries (hashBlockItems_unfinished r) v w ((runItems_hashBlock r i v).trans hw)
  exact ⟨w, hw, h.of_same_memory hc hm⟩

/-- The phases KEXP and HSUB of SEAL, and PHASE GCTR up to its blocks (R120). -/
def sealStart (s : State) : Result :=
  andThen (opKexp s) fun s => andThen (opHsub s) fun s => andThen (opMkj0 s) opInc32

theorem runSeal_eq (s : State) :
    runSeal s = andThen (sealStart s) fun s =>
      andThen (forBlocks sealGctrBlock s.ptBlocks 0 s) fun s =>
      andThen (opClearY s) fun s =>
      andThen (forBlocks (sealHashBlock .ad) s.adBlocks 0 s) fun s =>
      andThen (forBlocks (sealHashBlock .ct) s.ptBlocks 0 s) fun s =>
      andThen (sealHashLength s) fun s => andThen (opTagenc s) opFinish := by
  simp only [runSeal, sealStart, andThen_assoc]

theorem sealStart_next (s : State) : ∃ v, sealStart s = .next v ∧ Carries s v ∧ v.MEM = s.MEM := by
  simp only [sealStart, opKexp_eq, opHsub_eq, opMkj0_eq, opInc32_eq, andThen_next]
  exact ⟨_, rfl, .of_scratch s _ _, rfl⟩

/-- The phases of a SEAL answer next, its counts and its blocks being as its checks leave them. -/
theorem runSeal_next (hp : s.ptBlocks < 2 ^ 57) (ha : s.adBlocks < 2 ^ 57)
    (hpt : ∀ i < s.ptBlocks, ∀ k < 16, (s.MEM.read (RegionName.pt.block i s + k)).isSome)
    (had : ∀ i < s.adBlocks, ∀ k < 16, (s.MEM.read (RegionName.ad.block i s + k)).isSome) :
    ∃ t, runSeal s = .next t := by
  obtain ⟨v, hs, hc, hm⟩ := sealStart_next s
  have hv : SealProgress s v 0 :=
    ⟨hc, fun _ h => by rwa [hm], fun i hi => absurd hi (by omega)⟩
  obtain ⟨w, hw, h1⟩ := forBlocks_next (P := fun i v => SealProgress s v i) s.ptBlocks 0 v hv
    fun i t _ hi h => sealGctrBlock_progress h (hpt i (by omega))
  obtain ⟨x, hx, h2⟩ : ∃ x, opClearY w = .next x ∧ SealProgress s x s.ptBlocks :=
    ⟨_, rfl, (h1.of_same_memory (.of_scratch w (w.dp.setY (.holding 0)) w.out) rfl).cast (Nat.zero_add _)⟩
  obtain ⟨y, hy, h3⟩ := forBlocks_next (P := fun _ v => SealProgress s v s.ptBlocks) s.adBlocks 0 x h2
    fun i t _ hi h => sealHashBlock_progress (r := .ad) h fun k hk => h.kept _ (had i (by omega) k hk)
  obtain ⟨z, hz, h4⟩ := forBlocks_next (P := fun _ v => SealProgress s v s.ptBlocks) s.ptBlocks 0 y h3
    fun i t _ hi h => sealHashBlock_progress (r := .ct) h fun k hk => h.stored i (by omega) k hk
  have hlen : z.adBlocks < 2 ^ 57 ∧ z.ptBlocks < 2 ^ 57 := by
    rw [h4.carries.adBlocks, h4.carries.ptBlocks]
    exact ⟨ha, hp⟩
  rw [runSeal_eq, hs, andThen_next, hv.carries.ptBlocks, hw, andThen_next, hx, andThen_next, h2.carries.adBlocks, hy,
    andThen_next, h3.carries.ptBlocks, hz, andThen_next, sealHashLength, opLenblk_eq hlen, andThen_next, hashBlock_eq,
    andThen_next, opTagenc_eq rfl rfl, andThen_next]
  unfold opFinish
  split <;> exact ⟨_, rfl⟩

/-- The bytes of the plaintext and the associated data of an accepted SEAL hold values, block by block. -/
theorem SealAccepted.block_written {key : Block} {iv : Nonce} {p a : Nat} (h : SealAccepted s key iv p a)
    {r : RegionName} (hr : r ≠ .ct) {i : Nat} (hi : i < r.blocks s) {k : Nat} (hk : k < 16) :
    (s.MEM.read (r.block i s + k)).isSome := by
  have hwritten : (r.range s).written s.MEM = true := by
    cases r with
    | pt => exact h.ptWritten
    | ct => exact absurd rfl hr
    | ad => exact h.adWritten
  obtain ⟨n, hn, hb⟩ := h.counted r
  rw [blocks_of_count hn] at hi
  obtain ⟨base, hbase⟩ := Option.ne_none_iff_exists'.mp (hb (by omega))
  refine (Range.written_iff _ _).mp hwritten _ ((h.has_iff r _).mpr ⟨base, n, hbase, hn, ?_⟩)
  rw [block_of_base hbase]
  omega

/-- A SEAL whose checks pass completes, its counts being small enough for the length block (R110). -/
theorem execSeal_completes {key : Block} {iv : Nonce} {p a : Nat} (h : SealAccepted s key iv p a) (hp : p < 2 ^ 57)
    (ha : a < 2 ^ 57) : ∃ t, execSeal s = .next t := by
  have hpt : s.ptBlocks = p := by rw [State.ptBlocks, h.ptBlocks]; rfl
  have had : s.adBlocks = a := by rw [State.adBlocks, h.adBlocks]; rfl
  rw [execSeal, sealCheck_eq_none_iff_accepted.mpr ⟨key, iv, p, a, h⟩]
  exact runSeal_next (s := issue .sealMessage s) (hpt ▸ hp) (had ▸ ha)
    (fun i hi k hk => h.block_written (r := .pt) (by decide) hi hk)
    (fun i hi k hk => h.block_written (r := .ad) (by decide) hi hk)

/-- What a SEAL that answers next does. -/
theorem execSeal_coreRun (h : execSeal s = .next t) :
    CoreRun (sealSteps s.ptBlocks s.adBlocks) (issue .sealMessage s) t
      ∧ ∃ v, Carries (issue .sealMessage s) v ∧ t = complete v := by
  rw [execSeal, (execSeal_next h).1] at h
  obtain ⟨run, v, hv, hfinish⟩ := coreRun_seal h
  refine ⟨run, v, hv, ?_⟩
  rw [opFinish, hv.seq] at hfinish
  exact (Host.Outcome.next.inj hfinish).symm

end Sys2Proof.Machine
end

section
/-! SUPPORT. The decoder's answers, the host's moves, and what one step of the machine can do, said once. -/

namespace Sys2Proof.Machine

variable {s t u v w : State}

/-! ## The decoder -/

/-- With ZERO clear a command word is its OPC (R45). -/
theorem toNat_of_zeroField {w : Word} (h : zeroField w = 0) : w.toNat = (opcField w).toNat := by
  have h0 := congrArg BitVec.toNat h
  simp only [zeroField, opcField, BitVec.extractLsb'_toNat, Nat.shiftRight_eq_div_pow, BitVec.ofNat_eq_ofNat,
    BitVec.toNat_ofNat] at h0 ⊢
  omega

/-- The three words that decode (R46). -/
theorem decodeCommand_eq_ok {w : Word} {i : Instr} (h : decodeCommand w = .ok i) :
    (w = 0 ∧ i = .nop) ∨ (w = 1 ∧ i = .encryptBlock) ∨ (w = 2 ∧ i = .sealMessage) := by
  unfold decodeCommand at h
  split at h
  · cases h
  next hz =>
  have hw := toNat_of_zeroField (not_not.mp hz)
  split at h
  next ho => cases h; exact .inl ⟨BitVec.eq_of_toNat_eq (hw.trans ho), rfl⟩
  next ho => cases h; exact .inr (.inl ⟨BitVec.eq_of_toNat_eq (hw.trans ho), rfl⟩)
  next ho => cases h; exact .inr (.inr ⟨BitVec.eq_of_toNat_eq (hw.trans ho), rfl⟩)
  · cases h

/-- What a decoder of operations answers is an instruction with the property `P`, if it is one. -/
def Decoded.Yields (P : Instr → Prop) (d : Decoded) : Prop := ∀ i rest, d = .ok (i, rest) → P i

section Yields
variable {P : Instr → Prop}

theorem Decoded.yields_ok {i : Instr} {rest : List Byte} (h : P i) : Decoded.Yields P (.ok (i, rest)) := by
  intro j r e
  cases e
  exact h

theorem Decoded.yields_error (e : DecodeError) : Decoded.Yields P (.error e) := by
  intro j r h
  cases h

theorem yields_accept {ok : Bool} {i : Instr} {rest : List Byte} (h : P i) : Decoded.Yields P (accept ok i rest) := by
  cases ok
  · exact Decoded.yields_error _
  · exact Decoded.yields_ok h

theorem yields_onByte {bs : List Byte} {f : Byte → List Byte → Decoded} (h : ∀ b r, Decoded.Yields P (f b r)) :
    Decoded.Yields P (onByte bs f) := by
  cases bs
  · exact Decoded.yields_error _
  · exact h _ _

theorem yields_onBytes {n : Nat} {bs : List Byte} {f : List Byte → List Byte → Decoded}
    (h : ∀ b r, Decoded.Yields P (f b r)) : Decoded.Yields P (onBytes n bs f) := by
  unfold onBytes
  split
  · exact Decoded.yields_error _
  · exact h _ _

theorem yields_onBlocks {n : Nat} {bs : List Byte} {f : List Block → List Byte → Decoded}
    (h : ∀ b r, Decoded.Yields P (f b r)) : Decoded.Yields P (onBlocks n bs f) := by
  induction n generalizing bs f with
  | zero => exact h _ _
  | succ n ih =>
    show Decoded.Yields P (onBlock bs fun b r => onBlocks n r fun t r' => f (b :: t) r')
    exact yields_onBytes fun b r => ih fun t r' => h _ _
end Yields

/-- No code of R58 is a command's. -/
theorem decodeUop_not_command {bs more : List Byte} {i : Instr} (h : decodeUop bs = .ok (i, more)) : ¬ isCommand i := by
  suffices hy : Decoded.Yields (fun i => ¬ isCommand i) (decodeUop bs) from hy i more h
  unfold decodeUop
  split
  · exact Decoded.yields_error _
  split
  case h_1 | h_7 | h_8 | h_11 => exact yields_onBytes fun _ _ => Decoded.yields_ok (by simp [isCommand])
  case h_2 | h_9 | h_15 => exact yields_onByte fun _ _ => yields_accept (by simp [isCommand])
  case h_14 | h_16 =>
    exact yields_onBytes fun _ _ => yields_onBytes fun _ _ => Decoded.yields_ok (by simp [isCommand])
  case h_17 => exact yields_onBytes fun _ _ => yields_onBytes fun _ _ => yields_accept (by simp [isCommand])
  case h_19 | h_20 =>
    exact yields_onBytes fun _ _ => yields_onBlocks fun _ _ => Decoded.yields_ok (by simp [isCommand])
  case h_22 | h_23 | h_24 => exact yields_onByte fun _ _ => Decoded.yields_ok (by simp [isCommand])
  case h_25 => exact Decoded.yields_error _
  all_goals exact Decoded.yields_ok (by simp [isCommand])
/-! ## The host's register moves -/

/-- The host registers with a value written to an operand register, by its number (R13). -/
def HostRegs.put (h : HostRegs) (reg v : Nat) : HostRegs :=
  match reg with
  | 0 => h.setKEY (.holding (BitVec.ofNat 128 v))
  | 1 => h.setIV (.holding (BitVec.ofNat 96 v))
  | 2 => h.setDIN (.holding (BitVec.ofNat 128 v))
  | 5 => h.setPT_ADDR (.holding v)
  | 6 => h.setCT_ADDR (.holding v)
  | 7 => h.setAD_ADDR (.holding v)
  | 8 => h.setPT_BLOCKS (.holding v)
  | 9 => h.setAD_BLOCKS (.holding v)
  | _ => h

/-- The registers the host may write and read are eight, each with its width (R13). -/
theorem operandWidth_cases {p : Platform} {reg width : Nat} (h : operandWidth p reg = some width) :
    (reg = 0 ∧ width = 128) ∨ (reg = 1 ∧ width = 96) ∨ (reg = 2 ∧ width = 128) ∨ (reg = 5 ∧ width = p.AW)
      ∨ (reg = 6 ∧ width = p.AW) ∨ (reg = 7 ∧ width = p.AW) ∨ (reg = 8 ∧ width = p.CW) ∨ (reg = 9 ∧ width = p.CW) := by
  unfold operandWidth at h
  split at h <;> cases h <;> simp

/-- A write to an operand register, the core being idle: its value must be of the register's type (R12). -/
theorem hostWrite_operand {reg width : Nat} (v : Nat) (hb : s.busy = false) (h : operandWidth s.plat reg = some width) :
    hostWrite reg v s = writeReg width v (s.host.put reg v) s := by
  rcases operandWidth_cases h with ⟨rfl, rfl⟩ | ⟨rfl, rfl⟩ | ⟨rfl, rfl⟩ | ⟨rfl, rfl⟩ | ⟨rfl, rfl⟩ | ⟨rfl, rfl⟩
      | ⟨rfl, rfl⟩ | ⟨rfl, rfl⟩ <;>
    simp [hostWrite, hb, HostRegs.put]

theorem hostWrite_command (v : Nat) (hb : s.busy = false) :
    hostWrite 10 v s = if v < 2 ^ 32 then issueCommand (BitVec.ofNat 32 v) s else .refused .rfAccess := by
  simp [hostWrite, hb]

/-- A register that is neither an operand register nor CMD is not writable (R13). -/
theorem hostWrite_other {reg : Nat} (v : Nat) (hb : s.busy = false) (h : operandWidth s.plat reg = none)
    (hr : reg ≠ 10) : hostWrite reg v s = .refused .rfAccess := by
  unfold hostWrite
  rw [hb, if_neg Bool.false_ne_true]
  unfold operandWidth at h
  split <;> simp at h hr ⊢

theorem hostWrite_busy (reg v : Nat) (hb : s.busy = true) : hostWrite reg v s = .refused .rfBusy := by
  unfold hostWrite
  rw [if_pos hb]

/-- The issue checks of a command that a CMD write can issue (R92, R122). -/
def Command.check (c : Command) (s : State) : Option Refusal :=
  match c with
  | .encryptBlock => encryptCheck s
  | .sealMessage => sealCheck s

/-- The word of a command (R46). -/
def Command.word (c : Command) : Nat :=
  match c with
  | .encryptBlock => 1
  | .sealMessage => 2

/-- A CMD write that answers next is NOP's, or issues a command whose checks pass (R20). -/
theorem issueCommand_next {w : Word} (h : issueCommand w s = .next t) :
    t = s ∨ ∃ c : Command, w.toNat = c.word ∧ c.check s = none ∧ t = issue c s := by
  unfold issueCommand at h
  split at h
  · cases h
  next hw =>
    rcases decodeCommand_eq_ok hw with ⟨rfl, hi⟩ | ⟨rfl, hi⟩ | ⟨rfl, hi⟩ <;> cases hi
    split at h
    · cases h
    next hc =>
      cases h
      exact .inr ⟨.encryptBlock, rfl, hc, rfl⟩
  next hw =>
    rcases decodeCommand_eq_ok hw with ⟨rfl, hi⟩ | ⟨rfl, hi⟩ | ⟨rfl, hi⟩ <;> cases hi
    split at h
    · cases h
    next hc =>
      cases h
      exact .inr ⟨.sealMessage, rfl, hc, rfl⟩
  · unfold execNop at h
    split at h <;> cases h
    exact .inl rfl

/-! ## A step of the machine -/

/-- What a step does once its turn is taken off the agenda. -/
inductive StepCase (turn : Option Turn) (s t : State) : Prop where
  /-- The core takes a step. -/
  | core (eq : coreStep s = .next t)
  /-- Nothing changes: NOP. -/
  | nop (eq : t = s)
  /-- The host writes an operand register. -/
  | register (reg v width : Nat) (idle : s.busy = false) (operand : operandWidth s.plat reg = some width)
      (fits : v < 2 ^ width) (eq : t = s.withHost (s.host.put reg v))
  /-- The host issues a command by a CMD write. -/
  | issue (c : Command) (turn : turn = some (.host (.write 10 c.word))) (idle : s.busy = false)
      (check : c.check s = none) (eq : t = issue c s)
  /-- The host reads, a register or memory. -/
  | read (u : Unseen) (r : Reply) (eq : t = (s.withUnseen u).reply r)
  /-- The host writes memory. -/
  | memWrite (addr : Nat) (bytes : List Byte) (exist : s.AddressesExist addr bytes.length)
      (eq : t = (s.withMem (s.MEM.writeBytes addr bytes)).withUnseen
        (s.unseen.minus { base := addr, size := bytes.length }))
  /-- An ENCRYPT_BLOCK runs whole. -/
  | encrypt (turn : turn = some (.command 1)) (idle : s.busy = false) (eq : execEncryptBlock s = .next t)
  /-- A SEAL runs whole. -/
  | sealing (turn : turn = some (.command 2)) (idle : s.busy = false) (eq : execSeal s = .next t)
  /-- An operation is presented by its code. -/
  | operation (i : Instr) (idle : s.busy = false) (operation : ¬ isCommand i) (eq : exec i s = .next t)
  /-- Reset. -/
  | reset (turn : turn = some .reset) (eq : t = resetCore s)

theorem hostWrite_cases {reg v : Nat} (h : hostWrite reg v s = .next t) :
    StepCase (some (.host (.write reg v))) s t := by
  cases hb : s.busy with
  | true =>
    rw [hostWrite_busy _ _ hb] at h
    cases h
  | false =>
    cases hw : operandWidth s.plat reg with
    | some width =>
      rw [hostWrite_operand v hb hw, writeReg] at h
      split at h
      next hv =>
        cases h
        exact .register reg v width hb hw hv rfl
      · cases h
    | none =>
      by_cases hr : reg = 10
      · subst hr
        rw [hostWrite_command v hb] at h
        split at h
        next hv =>
          rcases issueCommand_next h with rfl | ⟨c, hc, hcheck, rfl⟩
          · exact .nop rfl
          · rw [BitVec.toNat_ofNat, Nat.mod_eq_of_lt hv] at hc
            exact .issue c (by rw [hc]) hb hcheck rfl
        · cases h
      · rw [hostWrite_other v hb hw hr] at h
        cases h

theorem hostRead_cases {reg : Nat} (h : hostRead reg s = .next t) :
    ∃ r, t = (s.afterRead reg).reply r := by
  unfold hostRead at h
  split at h
  · cases h
  split at h
  · cases h
  obtain ⟨v, -, h⟩ := reading_eq_next.mp h
  exact ⟨_, (Host.Outcome.next.inj h).symm⟩

theorem afterRead_withUnseen (reg : Nat) (s : State) : ∃ u, s.afterRead reg = s.withUnseen u := by
  rcases afterRead_eq reg s with ⟨-, -, h⟩ | ⟨-, h⟩
  · exact ⟨_, h⟩
  · exact ⟨s.unseen, h⟩

theorem hostMove_cases {m : HostMove} (h : hostMove m s = .next t) : StepCase (some (.host m)) s t := by
  cases m with
  | write reg v => exact hostWrite_cases h
  | read reg =>
    obtain ⟨r, rfl⟩ := hostRead_cases h
    obtain ⟨u, hu⟩ := afterRead_withUnseen reg s
    exact .read u r (by rw [hu])
  | memWrite addr bytes =>
    simp only [hostMove, hostMemWrite] at h
    rcases hostAccess_cases (s := s) addr bytes.length .noSuchAddress _ with ⟨-, -, e⟩ | ⟨-, -, e⟩ | ⟨-, hex, e⟩
    · rw [e] at h; cases h
    · rw [e] at h; cases h
    · rw [e] at h
      exact .memWrite addr bytes hex (Host.Outcome.next.inj h).symm
  | memRead addr n =>
    simp only [hostMove, hostMemRead] at h
    rcases hostAccess_cases (s := s) addr n .rfNoValue _ with ⟨-, -, e⟩ | ⟨-, -, e⟩ | ⟨-, -, e⟩
    · rw [e] at h; cases h
    · rw [e] at h; cases h
    · rw [e] at h
      obtain ⟨bs, -, h⟩ := reading_eq_next.mp h
      exact .read s.unseen (.mem addr bs) (Host.Outcome.next.inj h).symm

theorem runCommand_cases {w : Word} (h : runCommand w s = .next t) : StepCase (some (.command w)) s t := by
  unfold runCommand at h
  split at h
  · cases h
  next hb =>
  have hb : s.busy = false := by simpa using hb
  split at h
  · cases h
  next hw =>
  rcases decodeCommand_eq_ok hw with ⟨rfl, rfl⟩ | ⟨rfl, rfl⟩ | ⟨rfl, rfl⟩
  · have h : execNop s = .next t := h
    unfold execNop at h
    split at h <;> cases h
    exact .nop rfl
  · exact .encrypt rfl hb h
  · exact .sealing rfl hb h

theorem runUop_cases {bytes : List Byte} (h : runUop bytes s = .next t) : StepCase (some (.uop bytes)) s t := by
  unfold runUop at h
  split at h
  · cases h
  next hb =>
  split at h
  · cases h
  next hd => exact .operation _ (by simpa using hb) (decodeUop_not_command hd) h

/-- What a step does: its turn is taken off the agenda, unless it is a WAIT that goes on; then one of the cases. -/
theorem step_cases (h : step s = .next t) : ∃ rest, StepCase s.agenda.head? (s.withAgenda rest) t := by
  unfold step at h
  split at h
  next ha => exact ⟨s.agenda, .core (by rwa [withAgenda_self])⟩
  next turn rest ha =>
  rw [ha, List.head?_cons]
  cases turn with
  | host m => exact ⟨rest, hostMove_cases h⟩
  | core => exact ⟨rest, .core h⟩
  | command w => exact ⟨rest, runCommand_cases h⟩
  | uop bytes => exact ⟨rest, runUop_cases h⟩
  | reset => exact ⟨rest, .reset rfl (Host.Outcome.next.inj h).symm⟩
  | wait =>
    have h : runWait rest s = .next t := h
    unfold runWait at h
    split at h
    · obtain ⟨r, rfl⟩ := hostRead_cases h
      obtain ⟨u, hu⟩ := afterRead_withUnseen 11 (s.withAgenda rest)
      exact ⟨rest, .read u r (by rw [hu])⟩
    · exact ⟨s.agenda, .core (by rwa [withAgenda_self])⟩

end Sys2Proof.Machine
end

section
/-! SUPPORT. What an operation presented on its own can change (R23), and what it cannot. -/

namespace Sys2Proof.Machine

variable {s t u v w : State}

/-- What an operation leaves: everything but the datapath, the port and, for TAGENC, TAG; and of the datapath every
register but those that `scratchAfter` names. -/
structure OperationEffect (i : Instr) (s t : State) : Prop where
  carries : Carries s t
  mem : t.MEM = s.MEM
  host : t.host = if i = .tagenc then { s.host with TAG := t.host.TAG } else s.host
  dp : t.dp = scratchAfter i s.dp t.dp

/-- An operation that changes the datapath and the port only. -/
theorem OperationEffect.of_scratch {i : Instr} (hi : i ≠ .tagenc) {d : Datapath} {o : Option OpOut}
    (hd : d = scratchAfter i s.dp d) : OperationEffect i s { s with dp := d, out := o } :=
  ⟨.of_scratch s d o, rfl, by rw [if_neg hi], hd⟩

/-- GCTR writes S, CB and KS. -/
theorem gctrLoop_effect {bs done : List Block} (h : gctrLoop bs done s = .next t) :
    ∃ (d : Datapath) (o : Option OpOut), t = { s with dp := ((s.dp.setS d.S).setCB d.CB).setKS d.KS, out := o } := by
  induction bs generalizing done s with
  | nil =>
    cases h
    exact ⟨s.dp, _, rfl⟩
  | cons b bs ih =>
    simp only [gctrLoop, keystream_eq, xorKeystream_eq, opInc32_eq, andThen_next] at h
    obtain ⟨d, o, rfl⟩ := ih h
    exact ⟨d, o, rfl⟩

/-- GHASH's loop writes Y, Z and V. -/
theorem hashLoop_effect {xs : List Block} (h : hashLoop xs s = .next t) :
    ∃ (d : Datapath) (o : Option OpOut), t = { s with dp := ((s.dp.setY d.Y).setZ d.Z).setV d.V, out := o } := by
  induction xs generalizing s with
  | nil =>
    cases h
    exact ⟨t.dp, t.out, rfl⟩
  | cons x xs ih =>
    simp only [hashLoop, hashBlock_eq, andThen_next] at h
    generalize gfLoop s.dp.H.val (s.dp.Y.val ^^^ x) = zv at h
    generalize gfMul s.dp.H.val (s.dp.Y.val ^^^ x) = y at h
    obtain ⟨d, o, rfl⟩ := ih h
    exact ⟨d, o, rfl⟩

/-- What every operation leaves, operation by operation (R23, R90, R104, R119; log 19). -/
theorem exec_effect {i : Instr} (hi : ¬ isCommand i) (h : exec i s = .next t) : OperationEffect i s t := by
  cases i with
  | nop | encryptBlock | sealMessage => exact absurd hi (by simp [isCommand])
  | ldst | subb | shrow | mixc | kexp | mkj0 | inc32 | gfstep =>
    cases h
    exact .of_scratch (o := s.out) (by simp) rfl
  | stst | rotw | subw | xor128 | sbox | xtime | mul3 =>
    cases h
    exact .of_scratch (d := s.dp) (by simp) rfl
  | cipher | gfmul | hsub =>
    cases h
    exact .of_scratch (by simp) rfl
  | ark r =>
    simp only [exec, execArk, opArk] at h
    split at h <;> cases h
    exact .of_scratch (o := s.out) (by simp) rfl
  | rcon k =>
    simp only [exec, execRcon] at h
    split at h <;> cases h
    exact .of_scratch (d := s.dp) (by simp) rfl
  | lenblk a p =>
    simp only [exec, execLenblk, opLenblk] at h
    split at h <;> cases h
    exact .of_scratch (o := s.out) (by simp) rfl
  | gctr bs =>
    obtain ⟨d, o, rfl⟩ := gctrLoop_effect h
    exact .of_scratch (by simp) rfl
  | ghash xs =>
    obtain ⟨d, o, rfl⟩ := hashLoop_effect (s := s.withDp (s.dp.setY (.holding 0))) h
    exact .of_scratch (by simp) rfl
  | tagenc =>
    rw [exec, execTagenc, opTagenc_eq rfl rfl] at h
    obtain rfl := Host.Outcome.next.inj h
    exact ⟨⟨rfl, rfl, rfl, rfl, rfl, rfl, rfl, rfl⟩, rfl, rfl, rfl⟩

/-- Settles O43, operation by operation (`exec_effect`). -/
theorem datapathOperationsFrame : Obligations.DatapathOperationsFrame := by
  intro i s t hi h
  have he := exec_effect hi h
  have hc := he.carries
  exact ⟨⟨hc.plat, rfl, hc.status, hc.seq, fun a => by rw [he.mem], hc.agenda, hc.replies, hc.unseen, hc.drawn⟩,
    he.host, he.dp⟩

end Sys2Proof.Machine
end

section
/-! SUPPORT. The invariant of the machine and the steps that are not the core's. -/

namespace Sys2Proof.Machine

variable {s t u v w : State}

/-! ## Idle states -/

/-- The core is idle exactly when it is not BUSY. -/
theorem State.Inv.seq_idle (h : s.Inv) (hb : s.busy = false) : s.seq = .idle := by
  refine h.seq.idle ?_
  by_contra hop
  rw [h.busy.mpr hop] at hb
  cases hb

theorem sound_idle (p : Platform) : Sequencer.idle.Sound p where
  idle _ := rfl
  running h := absurd rfl h
  phase := by simp [Sequencer.idle, SeqPos.idle, phasesOf]
  rnd := Nat.zero_le _
  bit := Nat.zero_le _
  blk := Nat.two_pow_pos _
  todo _ h := absurd h List.not_mem_nil

/-- The invariant of a state with no command in progress: what it says of the sequencer is that it is idle. -/
theorem inv_of_idle (hseq : t.seq = .idle) (hb : t.busy = false) (plat : t.plat.ok) (mem : t.MEM.wf)
    (addresses : ∀ c ∈ t.MEM, c.1 < 2 ^ t.plat.AW ∧ populated t.plat c.1 = true)
    (reserved : t.STATUS.extractLsb' 2 30 = 0) (host : t.host.InRange t.plat) : t.Inv where
  plat := plat
  mem := mem
  addresses := addresses
  reserved := reserved
  oneFlag h := by rw [hb] at h; cases h.1
  busy := by rw [hb, hseq]; simp [Sequencer.idle, SeqPos.idle]
  host := host
  seq := hseq ▸ sound_idle _
  operands := by rw [hseq]; trivial
  regions h := by rw [hseq] at h; cases h
  blocks it h := by rw [hseq] at h; cases h

/-- Reset meets the invariant. -/
theorem inv_reset : State.reset.Inv :=
  inv_of_idle rfl (by decide) (by decide) List.Pairwise.nil (fun _ h => absurd h List.not_mem_nil) (by decide)
    ⟨nofun, nofun, nofun, nofun, nofun⟩

/-! ## Steps that leave the command in progress alone -/

/-- The invariant does not depend on the datapath, the port, the turns, the replies, the results not shown, the free
values or TAG, and on memory only by its form and its addresses. -/
theorem State.Inv.congr (h : s.Inv) (plat : t.plat = s.plat) (host : t.host = { s.host with TAG := t.host.TAG })
    (status : t.STATUS = s.STATUS) (seq : t.seq = s.seq) (mem : t.MEM.wf)
    (addresses : ∀ c ∈ t.MEM, c.1 < 2 ^ s.plat.AW ∧ populated s.plat c.1 = true) : t.Inv := by
  obtain ⟨hbase, hcount⟩ := regions_of_results (s := s) (t := t) (by rw [host])
  exact
    { plat := plat ▸ h.plat
      mem := mem
      addresses := plat ▸ addresses
      reserved := status ▸ h.reserved
      oneFlag := by simpa only [State.busy, State.isDone, status] using h.oneFlag
      busy := by simpa only [State.busy, status, seq] using h.busy
      host := by
        rw [host, plat]
        exact ⟨h.host.ptAddr, h.host.ctAddr, h.host.adAddr, h.host.ptBlocks, h.host.adBlocks⟩
      seq := by
        rw [seq, plat]
        exact h.seq
      operands := by
        rw [seq]
        have ho := h.operands
        unfold State.OperandsHeld at ho ⊢
        rw [host]
        exact ho
      regions := fun hop => (h.regions (seq ▸ hop)).congr hbase hcount plat
      blocks := fun it hit r hr => by
        rw [seq] at hit ⊢
        rw [hcount]
        exact h.blocks it hit r hr }

theorem State.Inv.carry (h : s.Inv) (k : Carries s t) (hm : t.MEM = s.MEM) : t.Inv :=
  h.congr k.plat k.host k.status k.seq (hm ▸ h.mem) (hm ▸ h.addresses)

theorem State.Inv.withAgenda (h : s.Inv) (turns : List Turn) : (s.withAgenda turns).Inv :=
  h.congr rfl rfl rfl rfl h.mem h.addresses

/-! ## The steps that begin in an idle core -/

theorem HostRegs.InRange.put {h : HostRegs} {p : Platform} (hr : h.InRange p) {reg width v : Nat}
    (hw : operandWidth p reg = some width) (hv : v < 2 ^ width) : (h.put reg v).InRange p := by
  obtain ⟨h1, h2, h3, h4, h5⟩ := hr
  have written : ∀ x, some v = some x → x < 2 ^ width := fun x e => Option.some.inj e ▸ hv
  rcases operandWidth_cases hw with ⟨rfl, rfl⟩ | ⟨rfl, rfl⟩ | ⟨rfl, rfl⟩ | ⟨rfl, rfl⟩ | ⟨rfl, rfl⟩ | ⟨rfl, rfl⟩
      | ⟨rfl, rfl⟩ | ⟨rfl, rfl⟩
  · exact ⟨h1, h2, h3, h4, h5⟩
  · exact ⟨h1, h2, h3, h4, h5⟩
  · exact ⟨h1, h2, h3, h4, h5⟩
  · exact ⟨written, h2, h3, h4, h5⟩
  · exact ⟨h1, written, h3, h4, h5⟩
  · exact ⟨h1, h2, written, h4, h5⟩
  · exact ⟨h1, h2, h3, written, h5⟩
  · exact ⟨h1, h2, h3, h4, written⟩

/-- A write to an operand register keeps the invariant. -/
theorem inv_register (h : s.Inv) (hb : s.busy = false) {reg width v : Nat}
    (hw : operandWidth s.plat reg = some width) (hv : v < 2 ^ width) : (s.withHost (s.host.put reg v)).Inv :=
  inv_of_idle (h.seq_idle hb) hb h.plat h.mem h.addresses h.reserved (h.host.put hw hv)

/-- ENCRYPT_BLOCK's issue checks (R92). -/
theorem encryptCheck_eq_none_iff :
    encryptCheck s = none ↔ s.busy = false ∧ s.host.KEY.held = true ∧ s.host.DIN.held = true := by
  unfold encryptCheck
  cases s.busy <;> cases s.host.KEY.held <;> cases s.host.DIN.held <;> simp

/-- What the checks of a command make sure of. -/
theorem operands_of_check {c : Command} (h : c.check s = none) :
    s.OperandsHeld (some c) ∧ (c = .sealMessage → s.RegionsSound) := by
  cases c with
  | encryptBlock =>
    obtain ⟨-, hk⟩ := encryptCheck_eq_none_iff.mp h
    exact ⟨hk, nofun⟩
  | sealMessage =>
    obtain ⟨key, iv, p, a, ha⟩ := sealCheck_eq_none_iff_accepted.mp h
    exact ⟨⟨by rw [ha.key]; rfl, by rw [ha.iv]; rfl⟩, fun _ => ha.regionsSound⟩

/-- STATUS at issue: BUSY 1, DONE 0, the reserved bits as they were (R21). -/
theorem statusAtIssue_eq (w : Word) : statusAtIssue w = (w &&& ~~~3#32) ||| 1#32 := by
  apply BitVec.eq_of_getLsbD_eq
  intro i hi
  interval_cases i <;> simp [statusAtIssue]

theorem statusAtIssue_reserved {w : Word} (h : w.extractLsb' 2 30 = 0) : (statusAtIssue w).extractLsb' 2 30 = 0 := by
  rw [statusAtIssue_eq, BitVec.extractLsb'_or, BitVec.extractLsb'_and, h]
  simp

/-- The issue of a command whose checks pass keeps the invariant. -/
theorem inv_issue {c : Command} (h : s.Inv) (hc : c.check s = none) : (issue c s).Inv where
  plat := h.plat
  mem := h.mem
  addresses := h.addresses
  reserved := statusAtIssue_reserved h.reserved
  oneFlag hf := by rw [isDone_issue] at hf; cases hf.2
  busy := by rw [busy_issue]; simp [issue]
  host := ⟨h.host.ptAddr, h.host.ctAddr, h.host.adAddr, h.host.ptBlocks, h.host.adBlocks⟩
  seq :=
    { idle := nofun
      running := fun _ => List.cons_ne_nil _ _
      phase := by cases c <;> simp [issue, phasesOf]
      rnd := Nat.zero_le _
      bit := Nat.zero_le _
      blk := Nat.two_pow_pos _
      todo := by simp [issue] }
  operands := by
    have ho := (operands_of_check hc).1
    cases c <;> exact ho
  regions hop :=
    State.RegionsSound.congr (s := s) (fun r => by cases r <;> rfl) (fun r => by cases r <;> rfl) rfl
      ((operands_of_check hc).2 (Option.some.inj hop))
  blocks it hit r hr := by
    obtain rfl : it = { rnd := 0, bit := 0, act := .kexp } := List.mem_singleton.mp hit
    cases hr

/-- Reset in any state keeps the invariant. -/
theorem inv_resetCore (h : s.Inv) : (resetCore s).Inv := by
  have hsub : (memAfterReset s).Sublist s.MEM := by
    unfold memAfterReset
    split
    · exact List.filter_sublist
    · exact .refl _
  exact inv_of_idle rfl (by decide : State.reset.busy = false) h.plat (h.mem.sublist hsub)
    (fun c hc => h.addresses c (hsub.subset hc)) inv_reset.reserved ⟨nofun, nofun, nofun, nofun, nofun⟩

/-- A run of the core keeps the invariant. -/
theorem CoreRun.inv {n : Nat} (h : CoreRun n s t) (hs : s.Inv) : t.Inv := h.keeps (fun _ _ => coreStep_inv) hs

/-! ## Every step -/

theorem stepCase_inv {turn : Option Turn} (h : s.Inv) (hc : StepCase turn s t) : t.Inv := by
  cases hc with
  | core eq => exact coreStep_inv h eq
  | nop eq => exact eq ▸ h
  | register reg v width idle operand fits eq => exact eq ▸ inv_register h idle operand fits
  | issue c _ _ check eq => exact eq ▸ inv_issue h check
  | read u r eq => exact eq ▸ h.congr rfl rfl rfl rfl h.mem h.addresses
  | memWrite addr bytes exist eq =>
    exact eq ▸ h.congr rfl rfl rfl rfl (Memory.wf_writeBytes h.mem _ _) (addresses_writeBytes _ _ h.addresses exist)
  | encrypt _ _ eq =>
    obtain ⟨check, run, -⟩ := execEncryptBlock_next eq
    exact run.inv (inv_issue (c := .encryptBlock) h check)
  | sealing _ _ eq => exact (execSeal_coreRun eq).1.inv (inv_issue (c := .sealMessage) h (execSeal_next eq).1)
  | operation i _ operation eq => exact h.carry (exec_effect operation eq).carries (exec_effect operation eq).mem
  | reset _ eq => exact eq ▸ inv_resetCore h

/-- Settles O3, by what a step can do (`step_cases`); a whole command keeps the invariant because it ends where the same
command ends when the core runs it step by step (`coreRun_encrypt`, `coreRun_seal`). -/
theorem stepKeepsInvariant : Obligations.StepKeepsInvariant := by
  intro s t hs h
  obtain ⟨rest, hc⟩ := step_cases h
  exact stepCase_inv (hs.withAgenda rest) hc

/-- Settles O2: after reset the core is idle, memory empty and no register holds a value. -/
theorem resetMeetsInvariant : Obligations.ResetMeetsInvariant := inv_reset

end Sys2Proof.Machine
end

section
/-! SUPPORT. R24: bytes 0 to 11 of CB are IV from MKJ0 until the completion of a SEAL. -/

namespace Sys2Proof.Machine

variable {s t u v w : State}

theorem counterNonce_append (iv : Nonce) (n : BitVec 32) : counterNonce (iv ++ n) = iv := by
  apply BitVec.eq_of_getLsbD_eq
  intro i hi
  simp only [counterNonce, BitVec.getLsbD_extractLsb', hi, decide_true, Bool.true_and, BitVec.getLsbD_append]
  rw [if_neg (by omega), Nat.add_sub_cancel_left]

theorem counterNonce_initialCounter (iv : Nonce) : counterNonce (initialCounter iv) = iv := counterNonce_append iv _

theorem counterNonce_incrementCounter (cb : Block) : counterNonce (incrementCounter cb) = counterNonce cb :=
  counterNonce_append _ _

/-- CB holds a counter block of IV. -/
def State.CounterOfNonce (s : State) : Prop := s.dp.CB.held = true ∧ counterNonce s.dp.CB.val = s.host.IV.val

/-- The positions of a SEAL at which its counter block is built (R24). -/
def Sequencer.CounterBuilt (q : Sequencer) : Prop :=
  (q.pos.phase = .gctr ∧ plain .mkj0 ∉ q.todo) ∨ q.pos.phase = .ghashAd ∨ q.pos.phase = .ghashCt
    ∨ q.pos.phase = .ghashLen ∨ q.pos.phase = .tagenc ∨ q.pos.phase = .done

/-- MKJ0 builds the counter block of IV, and every other micro-operation keeps one. -/
theorem Micro.run_counterOfNonce {m : Micro} (hm : m ≠ .finish) (h : m.run s = .next t)
    (hs : m = .mkj0 ∨ s.CounterOfNonce) : t.CounterOfNonce := by
  by_cases hj : m = .mkj0
  · subst hj
    cases h
    exact ⟨rfl, counterNonce_initialCounter _⟩
  obtain ⟨hheld, hnonce⟩ := hs.resolve_left hj
  have he := Micro.run_effect hm h
  have hiv : t.host.IV = s.host.IV := by rw [he.host]
  unfold State.CounterOfNonce
  rw [hiv]
  rcases he.counter with hcb | ⟨hm, -⟩ | ⟨-, hcb⟩
  · rw [hcb]
    exact ⟨hheld, hnonce⟩
  · exact absurd hm hj
  · rw [hcb]
    exact ⟨rfl, (counterNonce_incrementCounter _).trans hnonce⟩

/-- A SEAL comes to a position at which its counter block is built from another such position, or by MKJ0. -/
theorem counterBuilt_of_moveOn {it : SeqItem} {rest : List SeqItem} (hop : s.seq.pos.op = some .sealMessage)
    (hphase : s.seq.pos.phase ∈ phasesOf (some .sealMessage)) (htodo : s.seq.todo = it :: rest) (hit : it.act ≠ .mkj0)
    (h : (moveOn rest s).seq.CounterBuilt) : s.seq.CounterBuilt := by
  have hne : plain .mkj0 ≠ it := fun e => hit (e ▸ rfl)
  unfold moveOn at h
  rw [if_neg (by rw [hop]; simp)] at h
  split at h
  next =>
    simp only [advance] at h
    cases hp : s.seq.pos.phase with
    | kexp => simp [hp, hop, enter, Sequencer.CounterBuilt] at h
    | hsub => simp [hp, enterGctr, enter, Sequencer.CounterBuilt] at h
    | gctr => exact .inl ⟨hp, by simp [htodo, hne]⟩
    | idle | cipher => simp [hp, phasesOf] at hphase
    | _ => simp [Sequencer.CounterBuilt, hp]
  next it' rest' =>
    rcases h with ⟨hp, hmem⟩ | h
    · exact .inl ⟨hp, htodo ▸ fun hin => (List.mem_cons.mp hin).elim hne hmem⟩
    · exact .inr h

/-- A step of the core keeps R24. -/
theorem coreStep_counterFromNonce (hi : s.Inv) (hs : s.CounterFromNonce) (h : coreStep s = .next t) :
    t.CounterFromNonce := by
  cases coreStep_cases h with
  | idle _ eq => exact eq ▸ hs
  | finish d _ eq =>
    subst eq
    exact nofun
  | micro it rest u todo unfinished run eq =>
    subst eq
    intro hop hbuilt
    have hc := (Micro.run_effect unfinished run).carries
    obtain ⟨q, hq, hqop⟩ := moveOn_frame rest u
    have hopu : u.seq.pos.op = some .sealMessage := by
      rw [hq, withSeq_seq, hqop] at hop
      exact hop
    have hops : s.seq.pos.op = some .sealMessage := hc.seq ▸ hopu
    have hu : u.CounterOfNonce := by
      refine Micro.run_counterOfNonce unfinished run ?_
      by_cases hit : it.act = .mkj0
      · exact .inl hit
      have hphase := hi.seq.phase
      rw [hops, ← hc.seq] at hphase
      have hbuiltu := counterBuilt_of_moveOn hopu hphase (hc.seq ▸ todo) hit hbuilt
      exact .inr (hs hops (hc.seq ▸ hbuiltu))
    rw [hq]
    exact hu

/-- With no SEAL in progress R24 says nothing. -/
theorem counterFromNonce_of_op (h : t.seq.pos.op ≠ some .sealMessage) : t.CounterFromNonce := fun hop => absurd hop h

/-- R24 is kept where the datapath, IV and the sequencer are. -/
theorem State.CounterFromNonce.congr (h : s.CounterFromNonce) (dp : t.dp = s.dp) (host : t.host = s.host)
    (seq : t.seq = s.seq) : t.CounterFromNonce := by
  unfold State.CounterFromNonce
  rw [dp, host, seq]
  exact h

/-- Settles O47, by what a step can do (`step_cases`): apart from the core's steps, either no SEAL is in progress after
it, or it stands at KEXP, or CB, IV and the sequencer are as before. -/
theorem counterPrefixKept : Obligations.CounterPrefixKept := by
  intro s t hinv hs h
  obtain ⟨rest, hc⟩ := step_cases h
  have hs : (s.withAgenda rest).CounterFromNonce := hs.congr rfl rfl rfl
  have hinv := hinv.withAgenda rest
  generalize s.withAgenda rest = s' at hc hs hinv
  have idle_op (hb : s'.busy = false) : s'.seq.pos.op = none := by rw [hinv.seq_idle hb]; rfl
  cases hc with
  | core eq => exact coreStep_counterFromNonce hinv hs eq
  | nop eq => exact eq ▸ hs
  | register reg v width idle _ _ eq =>
    subst eq
    exact counterFromNonce_of_op (by rw [withHost_seq, idle_op idle]; simp)
  | issue c _ _ _ eq =>
    subst eq
    intro _ hbuilt
    simp [issue] at hbuilt
  | read u r eq => exact eq ▸ hs.congr rfl rfl rfl
  | memWrite addr bytes _ eq => exact eq ▸ hs.congr rfl rfl rfl
  | encrypt _ _ eq =>
    obtain ⟨-, -, d, rfl⟩ := execEncryptBlock_next eq
    exact counterFromNonce_of_op nofun
  | sealing _ _ eq =>
    obtain ⟨-, v, -, rfl⟩ := execSeal_next eq
    exact counterFromNonce_of_op nofun
  | operation i idle operation eq =>
    exact counterFromNonce_of_op (by rw [(exec_effect operation eq).carries.seq, idle_op idle]; simp)
  | reset _ eq =>
    subst eq
    exact counterFromNonce_of_op nofun

end Sys2Proof.Machine
end

section
/-! SUPPORT. What commands leave unchanged, how they are issued, how they run and what they do to the flags. -/

namespace Sys2Proof.Machine

variable {s t u v w : State}

/-! ## Operand registers (R26) -/

theorem SameOperands.refl (h : HostRegs) : SameOperands h h := ⟨rfl, rfl, rfl, rfl, rfl, rfl, rfl, rfl⟩

theorem SameOperands.trans {h k l : HostRegs} (hk : SameOperands h k) (kl : SameOperands k l) : SameOperands h l :=
  ⟨kl.key.trans hk.key, kl.iv.trans hk.iv, kl.din.trans hk.din, kl.ptAddr.trans hk.ptAddr, kl.ctAddr.trans hk.ctAddr,
    kl.adAddr.trans hk.adAddr, kl.ptBlocks.trans hk.ptBlocks, kl.adBlocks.trans hk.adBlocks⟩

/-- DOUT and TAG are no operand registers. -/
theorem sameOperands_issue (c : Command) (s : State) : SameOperands s.host (issue c s).host :=
  ⟨rfl, rfl, rfl, rfl, rfl, rfl, rfl, rfl⟩

theorem sameOperands_complete (s : State) (d : Reg Block) :
    SameOperands s.host (complete (s.withHost (s.host.setDOUT d))).host :=
  ⟨rfl, rfl, rfl, rfl, rfl, rfl, rfl, rfl⟩

theorem sameOperands_coreStep (h : coreStep s = .next t) : SameOperands s.host t.host := by
  cases coreStep_cases h with
  | idle _ eq => exact eq ▸ .refl _
  | finish d _ eq => exact eq ▸ sameOperands_complete s d
  | micro it rest u _ unfinished run eq =>
    obtain ⟨q, hq, -⟩ := moveOn_frame rest u
    rw [eq, hq, withSeq_host]
    exact (Micro.run_effect unfinished run).carries.operands

theorem sameOperands_coreRun {n : Nat} (h : CoreRun n s t) : SameOperands s.host t.host :=
  h.keeps (P := fun u => SameOperands s.host u.host) (fun _ _ hs hstep => hs.trans (sameOperands_coreStep hstep))
    (.refl _)

theorem execNop_next (h : execNop s = .next t) : t = s := by
  unfold execNop at h
  split at h <;> cases h
  rfl

/-- Settles O44: an operation by its effect (`exec_effect`), a command as its issue and a run of the core. -/
theorem operandRegistersNeverWritten : Obligations.OperandRegistersNeverWritten := by
  refine ⟨fun i s t h => ?_, fun s t h => sameOperands_coreStep h⟩
  by_cases hi : isCommand i
  · rcases hi with rfl | rfl | rfl
    · rw [execNop_next h]
      exact .refl _
    · obtain ⟨-, run, -⟩ := execEncryptBlock_next h
      exact (sameOperands_issue _ s).trans (sameOperands_coreRun run)
    · exact (sameOperands_issue _ s).trans (sameOperands_coreRun (execSeal_coreRun h).1)
  · exact (exec_effect hi h).carries.operands

/-! ## Issue by a CMD write (R20) -/

/-- A CMD write of a command's word, the core being idle: refused if a check fails, else the issue. -/
theorem hostWrite_word (c : Command) (hb : s.busy = false) :
    hostWrite 10 c.word s = (c.check s).elim (.next (issue c s)) .refused := by
  rw [hostWrite_command _ hb, if_pos (by cases c <;> decide)]
  cases c with
  | encryptBlock =>
    have hdecode : decodeCommand (BitVec.ofNat 32 Command.encryptBlock.word) = .ok .encryptBlock := rfl
    simp only [issueCommand, hdecode, Command.check]
    cases encryptCheck s <;> rfl
  | sealMessage =>
    have hdecode : decodeCommand (BitVec.ofNat 32 Command.sealMessage.word) = .ok .sealMessage := rfl
    simp only [issueCommand, hdecode, Command.check]
    cases sealCheck s <;> rfl

/-- A CMD write of a command's word that answers next is its issue. -/
theorem hostWrite_word_next {c : Command} (h : hostWrite 10 c.word s = .next t) :
    c.check s = none ∧ t = issue c s := by
  cases hb : s.busy with
  | true =>
    rw [hostWrite_busy _ _ hb] at h
    cases h
  | false =>
    rw [hostWrite_word c hb] at h
    cases hc : c.check s with
    | some r =>
      rw [hc] at h
      cases h
    | none =>
      rw [hc] at h
      exact ⟨rfl, (Host.Outcome.next.inj h).symm⟩

/-- Settles O48: a CMD write whose checks pass is the issue of its command (`hostWrite_word`). -/
theorem commandWriteIssues : Obligations.CommandWriteIssues := by
  refine ⟨fun s v hb => hostWrite_busy 10 v hb, fun s w c hb hw => ?_⟩
  have hissue : w = c.word ∧ c.check s = none := by
    rcases hw with ⟨rfl, rfl, hk, hd⟩ | ⟨rfl, rfl, hk⟩
    · exact ⟨rfl, encryptCheck_eq_none_iff.mpr ⟨hb, hk, hd⟩⟩
    · exact ⟨rfl, sealCheck_eq_none_iff.mpr hk⟩
  obtain ⟨rfl, hcheck⟩ := hissue
  refine ⟨(issue c s).seq, s.host.DOUT.val, s.host.TAG.val, ?_, rfl, rfl⟩
  rw [hostWrite_word c hb, hcheck, ← statusAtIssue_eq]
  rfl

/-! ## Commands run one micro-operation a step (R10) -/

/-- Settles O49: the run of `coreRun_encrypt` ends where the whole command does (`runEncrypt_eq`). -/
theorem sequencerRunsEncrypt : Obligations.SequencerRunsEncrypt := by
  intro s t ha _ _ hw
  obtain ⟨hcheck, rfl⟩ := hostWrite_word_next (c := .encryptBlock) hw
  have hwhole := (execEncryptBlock_eq hcheck).trans (runEncrypt_eq rfl)
  obtain ⟨-, run, -⟩ := execEncryptBlock_next hwhole
  exact ⟨(run.runSteps ha).trans hwhole.symm, fun k hk => run.busy_before ha hk⟩

/-- Settles O50: the whole command completes (`execSeal_completes`), and the run of `coreRun_seal` ends where it
does. -/
theorem sequencerRunsSeal : Obligations.SequencerRunsSeal := by
  intro s t key iv Ap Ac Aa pts ads ha hops hw
  obtain ⟨hcheck, rfl⟩ := hostWrite_word_next (c := .sealMessage) hw
  obtain ⟨key', iv', p, a, hacc⟩ := sealCheck_eq_none_iff_accepted.mp hcheck
  obtain rfl : pts.length = p := Reg.holding_inj.mp (hops.ptBlocks.symm.trans hacc.ptBlocks)
  obtain rfl : ads.length = a := Reg.holding_inj.mp (hops.adBlocks.symm.trans hacc.adBlocks)
  obtain ⟨t, ht⟩ := execSeal_completes hacc hops.small.1 hops.small.2
  have run := (execSeal_coreRun ht).1
  have hpt : s.ptBlocks = pts.length := by rw [State.ptBlocks, hops.ptBlocks]; rfl
  have had : s.adBlocks = ads.length := by rw [State.adBlocks, hops.adBlocks]; rfl
  rw [hpt, had] at run
  exact ⟨(run.runSteps ha).trans ht.symm, fun k hk => run.busy_before ha hk⟩

/-! ## The flags (R21) -/

/-- A step of the core leaves STATUS as it is, or completes the command in progress. -/
theorem coreStep_status (hi : s.Inv) (h : coreStep s = .next t) :
    t.STATUS = s.STATUS ∨ (s.busy = true ∧ t.busy = false ∧ t.isDone = true ∧ t.seq = .idle) := by
  cases coreStep_cases h with
  | idle _ eq => exact .inl (by rw [eq])
  | finish d todo eq =>
    obtain ⟨it, rest, htodo, -⟩ := todo
    subst eq
    refine .inr ⟨hi.busy.mpr fun hop => ?_, busy_complete _, isDone_complete _, rfl⟩
    rw [hi.seq.idle hop] at htodo
    cases htodo
  | micro it rest u _ unfinished run eq =>
    obtain ⟨q, hq, -⟩ := moveOn_frame rest u
    exact .inl (by rw [eq, hq, withSeq_STATUS, (Micro.run_effect unfinished run).status])

/-- How a step that is no reset changes STATUS. -/
inductive FlagCase (turn : Option Turn) (s t : State) : Prop where
  /-- Not at all. -/
  | same (status : t.STATUS = s.STATUS)
  /-- The command in progress completes. -/
  | completes (before : s.busy = true) (busy : t.busy = false) (done : t.isDone = true) (seq : t.seq = .idle)
  /-- A command is issued. -/
  | issues (w : Nat) (turn : turn = some (.host (.write 10 w))) (word : w = 1 ∨ w = 2) (before : s.busy = false)
      (busy : t.busy = true) (done : t.isDone = false)
  /-- A command runs whole. -/
  | whole (w : Word) (turn : turn = some (.command w)) (word : w = 1 ∨ w = 2) (before : s.busy = false)
      (busy : t.busy = false) (done : t.isDone = true)

theorem flag_cases {turn : Option Turn} (hi : s.Inv) (hr : turn ≠ some .reset) (h : StepCase turn s t) :
    FlagCase turn s t := by
  cases h with
  | core eq =>
    rcases coreStep_status hi eq with h | ⟨hs, hb, hd, hq⟩
    · exact .same h
    · exact .completes hs hb hd hq
  | nop eq => exact .same (by rw [eq])
  | register reg v width _ _ _ eq => exact .same (by rw [eq, withHost_STATUS])
  | issue c turn idle _ eq =>
    subst eq
    exact .issues c.word turn (by cases c <;> simp [Command.word]) idle (busy_issue c s) (isDone_issue c s)
  | read u r eq => exact .same (by rw [eq]; rfl)
  | memWrite addr bytes _ eq => exact .same (by rw [eq]; rfl)
  | encrypt turn idle eq =>
    obtain ⟨-, -, d, rfl⟩ := execEncryptBlock_next eq
    exact .whole 1 turn (.inl rfl) idle (busy_complete _) (isDone_complete _)
  | sealing turn idle eq =>
    obtain ⟨-, v, -, rfl⟩ := execSeal_next eq
    exact .whole 2 turn (.inr rfl) idle (busy_complete _) (isDone_complete _)
  | operation i _ operation eq => exact .same (exec_effect operation eq).carries.status
  | reset turn _ => exact absurd turn hr

/-- Settles O51, by how a step changes STATUS (`flag_cases`). -/
theorem flagsFollowCommands : Obligations.FlagsFollowCommands := by
  intro s t hi h hr
  obtain ⟨rest, hc⟩ := step_cases h
  have hf := flag_cases (hi.withAgenda rest) hr hc
  cases hf with
  | same status =>
    have hbusy : t.busy = s.busy := by rw [State.busy, status]; rfl
    have hdone : t.isDone = s.isDone := by rw [State.isDone, status]; rfl
    rw [hbusy, hdone]
    refine ⟨?_, ?_, ?_, ?_⟩ <;> (intro h1 h2; rw [h1] at h2; cases h2)
  | completes before busy done seq =>
    have before : s.busy = true := before
    exact ⟨fun _ _ => ⟨done, by rw [seq]; rfl⟩, by simp [before], by simp [done], fun _ _ => .inl ⟨before, busy, seq⟩⟩
  | issues w turn word before busy done =>
    have before : s.busy = false := before
    exact ⟨by simp [before], fun _ _ => ⟨done, w, turn, word⟩, fun _ _ => busy, by simp [done]⟩
  | whole w turn word before busy done =>
    have before : s.busy = false := before
    exact ⟨by simp [before], by simp [busy], by simp [done], fun _ _ => .inr ⟨w, turn, word⟩⟩

end Sys2Proof.Machine
end

section
/-! SUPPORT. Two runs side by side: commands do not depend on the scratch registers (R25, R154), operations not on the
marks (log 2). -/

namespace Sys2Proof.Machine

variable {s t u v w : State}

/-! ## Results side by side -/

/-- Two results stop for the same reason, or answer next states that `R` relates. -/
inductive Result.Related (R : State → State → Prop) : Result → Result → Prop where
  | next {s t : State} (h : R s t) : Related R (.next s) (.next t)
  | fault (e : Fault) : Related R (.fault e) (.fault e)
  | refused (e : Refusal) : Related R (.refused e) (.refused e)

section Related

variable {R Q : State → State → Prop} {r r' : Result}

theorem Result.Related.andThen {f g : State → Result} (h : Related R r r')
    (hfg : ∀ s t, R s t → Related Q (f s) (g t)) : Related Q (Machine.andThen r f) (Machine.andThen r' g) := by
  cases h with
  | next h => exact hfg _ _ h
  | fault e => exact .fault e
  | refused e => exact .refused e

theorem Result.Related.forBlocks {f : Nat → State → Result} (hf : ∀ i s t, R s t → Related R (f i s) (f i t))
    (n i : Nat) (s t : State) (h : R s t) : Related R (Machine.forBlocks f n i s) (Machine.forBlocks f n i t) := by
  induction n generalizing i s t with
  | zero => exact .next h
  | succ n ih => exact (hf i s t h).andThen (ih (i + 1))

theorem Result.Related.eq (h : Related Eq r r') : r = r' := by
  cases h with
  | next h => rw [h]
  | fault e => rfl
  | refused e => rfl

theorem Result.Related.reading {α : Type} {o : Option α} {f g : α → Result} (h : ∀ x, Related R (f x) (g x)) :
    Related R (Machine.reading o f) (Machine.reading o g) := by
  cases o with
  | none => exact .refused _
  | some x => exact h x

end Related

/-! ## Commands and the scratch registers -/

/-- Two states of a SEAL in progress that differ in the datapath and the port at most, with datapaths that `live`
relates. -/
structure ApartFromScratch (live : Datapath → Datapath → Prop) (s t : State) : Prop where
  rest : t = { s with dp := t.dp, out := t.out }
  live : live s.dp t.dp
  op : s.seq.pos.op = some .sealMessage

/-- RK, H and CB hold the same: what PHASE GCTR reads before it writes it. -/
def SameCounter (d e : Datapath) : Prop := e.RK = d.RK ∧ e.H = d.H ∧ e.CB = d.CB

/-- RK, H and Y hold the same: what the phases from GHASH_AD on read before they write it. -/
def SameHash (d e : Datapath) : Prop := e.RK = d.RK ∧ e.H = d.H ∧ e.Y = d.Y

/-- Nothing need be the same. -/
def AnyScratch (_ _ : Datapath) : Prop := True

/-- What a part `f` of SEAL does depends on the scratch registers only as far as `live` relates them, and leaves `live'`
related. -/
def Respects (live live' : Datapath → Datapath → Prop) (f : State → Result) : Prop :=
  ∀ (s : State) (d : Datapath) (o : Option OpOut), s.seq.pos.op = some .sealMessage → live s.dp d →
    Result.Related (ApartFromScratch live') (f s) (f { s with dp := d, out := o })

section Respects

variable {live live' live'' : Datapath → Datapath → Prop} {f g : State → Result}

theorem Respects.related (h : Respects live live' f) (s t : State) (hst : ApartFromScratch live s t) :
    Result.Related (ApartFromScratch live') (f s) (f t) := by
  have ht := h s t.dp t.out hst.op hst.live
  rwa [← hst.rest] at ht

/-- A loop over the blocks that a count register gives. -/
theorem Respects.forBlocks {f : Nat → State → Result} (hf : ∀ i, Respects live live (f i)) {count : State → Nat}
    (hcount : ∀ s d o, count { s with dp := d, out := o } = count s) :
    Respects live live fun s => Machine.forBlocks f (count s) 0 s := by
  intro s d o hop h
  show Result.Related _ _ (Machine.forBlocks f (count { s with dp := d, out := o }) 0 _)
  rw [hcount]
  exact Result.Related.forBlocks (fun i => (hf i).related) _ 0 _ _ ⟨rfl, h, hop⟩

end Respects

theorem respects_sealStart : Respects AnyScratch SameCounter sealStart := by
  intro s d o hop _
  simp only [sealStart, opKexp_eq, opHsub_eq, opMkj0_eq, opInc32_eq, andThen_next]
  exact .next ⟨rfl, ⟨rfl, rfl, rfl⟩, hop⟩

theorem block_apart (r : RegionName) (i : Nat) (s : State) (d : Datapath) (o : Option OpOut) :
    r.block i { s with dp := d, out := o } = r.block i s := by cases r <;> rfl

theorem respects_sealGctrBlock (i : Nat) : Respects SameCounter SameCounter (sealGctrBlock i) := by
  rintro s d o hop ⟨hrk, hh, hcb⟩
  simp only [sealGctrBlock, loadBlock, andThen_reading, andThen_next, keystream_eq, xorKeystream_eq, storeBlock,
    opInc32_eq, block_apart]
  refine .reading fun x => .next ⟨?_, ?_, hop⟩
  · simp only [withDp_dp, deliver_dp, withMem_dp, Datapath.setX_RK, Datapath.setX_CB, Datapath.setKS_CB,
      Datapath.setS_CB, hrk, hcb]
    rfl
  · simp [SameCounter, hrk, hh, hcb]

theorem respects_opClearY : Respects SameCounter SameHash opClearY :=
  fun _ _ _ hop ⟨hrk, hh, _⟩ => .next ⟨rfl, ⟨hrk, hh, rfl⟩, hop⟩

theorem respects_sealHashBlock (r : RegionName) (i : Nat) : Respects SameHash SameHash (sealHashBlock r i) := by
  rintro s d o hop ⟨hrk, hh, hy⟩
  simp only [sealHashBlock, loadBlock, andThen_reading, andThen_next, hashBlock_eq, block_apart]
  refine .reading fun x => .next ⟨rfl, ?_, hop⟩
  simp [SameHash, hrk, hh, hy]

theorem respects_sealHashLength : Respects SameHash SameHash sealHashLength := by
  rintro s d o hop ⟨hrk, hh, hy⟩
  show Result.Related _ (sealHashLength s) (andThen (opLenblk s.adBlocks s.ptBlocks _) _)
  rw [sealHashLength]
  by_cases hlen : s.adBlocks < 2 ^ 57 ∧ s.ptBlocks < 2 ^ 57
  · rw [opLenblk_eq hlen, opLenblk_eq hlen, andThen_next, andThen_next, hashBlock_eq, hashBlock_eq]
    refine .next ⟨rfl, ?_, hop⟩
    simp [SameHash, hrk, hh, hy]
  · rw [opLenblk, if_neg hlen, opLenblk, if_neg hlen]
    exact .refused _

/-- TAGENC reads RK and Y, and IV. -/
theorem respects_opTagenc : Respects SameHash AnyScratch opTagenc := by
  rintro s d o hop ⟨hrk, hh, hy⟩
  rw [opTagenc_eq rfl rfl, opTagenc_eq rfl rfl]
  refine .next ⟨?_, trivial, hop⟩
  simp only [hrk, hy]
  rfl

/-- The completion of SEAL reads no scratch register. -/
theorem opFinish_apart (s t : State) (h : ApartFromScratch AnyScratch s t) :
    Result.Related Eq (opFinish s) (opFinish t) := by
  obtain ⟨hrest, -, hop⟩ := h
  rw [hrest]
  unfold opFinish
  rw [hop]
  exact .next (by simp only [complete]; rfl)

/-- SEAL from its issue on does not depend on the scratch registers. -/
theorem runSeal_apart (s : State) (d : Datapath) (o : Option OpOut) (hop : s.seq.pos.op = some .sealMessage) :
    runSeal s = runSeal { s with dp := d, out := o } := by
  rw [runSeal_eq, runSeal_eq]
  refine Result.Related.eq ((respects_sealStart s d o hop trivial).andThen fun s t h => ?_)
  refine ((Respects.forBlocks respects_sealGctrBlock fun _ _ _ => rfl).related s t h).andThen fun s t h => ?_
  refine (respects_opClearY.related s t h).andThen fun s t h => ?_
  refine ((Respects.forBlocks (respects_sealHashBlock .ad) fun _ _ _ => rfl).related s t h).andThen fun s t h => ?_
  refine ((Respects.forBlocks (respects_sealHashBlock .ct) fun _ _ _ => rfl).related s t h).andThen fun s t h => ?_
  refine (respects_sealHashLength.related s t h).andThen fun s t h => ?_
  exact (respects_opTagenc.related s t h).andThen opFinish_apart

theorem execSeal_apart (s : State) (d : Datapath) (o : Option OpOut) :
    execSeal { s with dp := d, out := o } = execSeal s := by
  have hcheck : sealCheck { s with dp := d, out := o } = sealCheck s := rfl
  rw [execSeal, execSeal, hcheck]
  cases sealCheck s with
  | some r => rfl
  | none => exact (runSeal_apart (issue .sealMessage s) d o rfl).symm

theorem execEncryptBlock_apart (s : State) (d : Datapath) (o : Option OpOut) :
    execEncryptBlock { s with dp := d, out := o } = execEncryptBlock s := by
  have hcheck : encryptCheck { s with dp := d, out := o } = encryptCheck s := rfl
  rw [execEncryptBlock, execEncryptBlock, hcheck]
  cases encryptCheck s with
  | some r => rfl
  | none =>
    show runEncrypt (issue .encryptBlock _) = runEncrypt (issue .encryptBlock s)
    rw [runEncrypt_eq rfl, runEncrypt_eq rfl]
    rfl

/-- Settles O46: what a command reads of the scratch registers it has written before (`Respects`), and its completion
leaves none with a value. -/
theorem commandsIgnoreScratch : Obligations.CommandsIgnoreScratch := by
  rintro i s d o (rfl | rfl)
  · refine ⟨execEncryptBlock_apart s d o, fun t h => ?_⟩
    obtain ⟨-, -, d, rfl⟩ := execEncryptBlock_next h
    exact ⟨rfl, rfl, rfl⟩
  · refine ⟨execSeal_apart s d o, fun t h => ?_⟩
    obtain ⟨-, v, hv, rfl⟩ := execSeal_coreRun h
    have hdrawn : v.drawn = s.drawn := hv.drawn
    rw [← hdrawn]
    exact ⟨rfl, rfl, rfl⟩

end Sys2Proof.Machine
end

section
/-! SUPPORT. The host's port: registers and memory read back, access rights, no value (R11 to R13, R137). -/

namespace Sys2Proof.Machine

variable {s t u v w : State}

/-! ## Registers -/

theorem hostRead_idle {reg : Nat} (hb : s.busy = false) {o : Option Nat} (h : regValue reg s = some o) :
    hostRead reg s = reading o fun n => .next ((s.afterRead reg).reply (.reg reg n)) := by
  simp only [hostRead, hb, Bool.false_and, Bool.false_eq_true, if_false, h]

theorem hostRead_unreadable {reg : Nat} (hb : s.busy = false) (h : regValue reg s = none) :
    hostRead reg s = .refused .rfAccess := by
  simp only [hostRead, hb, Bool.false_and, Bool.false_eq_true, if_false, h]

theorem toNat_ofNat_of_lt {n v : Nat} (h : v < 2 ^ n) : (BitVec.ofNat n v).toNat = v := by
  rw [BitVec.toNat_ofNat, Nat.mod_eq_of_lt h]

/-- A register that the host may write holds the value written to it. -/
theorem regValue_put_same {reg width v : Nat} (h : operandWidth s.plat reg = some width) (hv : v < 2 ^ width) :
    regValue reg (s.withHost (s.host.put reg v)) = some (some v) := by
  rcases operandWidth_cases h with ⟨rfl, rfl⟩ | ⟨rfl, rfl⟩ | ⟨rfl, rfl⟩ | ⟨rfl, rfl⟩ | ⟨rfl, rfl⟩ | ⟨rfl, rfl⟩
      | ⟨rfl, rfl⟩ | ⟨rfl, rfl⟩ <;>
    simp [regValue, HostRegs.put, toNat_ofNat_of_lt hv]

@[simp] theorem shown_withHost {α : Type} (h : HostRegs) (r : Reg α) : (s.withHost h).shown r = s.shown r := rfl

@[simp] theorem readStatus_withHost (h : HostRegs) : (s.withHost h).readStatus = s.readStatus := rfl

/-- It is the only register that a write to it changes. -/
theorem regValue_put_other {reg other v : Nat} (h : other ≠ reg) :
    regValue other (s.withHost (s.host.put reg v)) = regValue other s := by
  unfold HostRegs.put
  split <;> unfold regValue <;> split <;> simp_all

theorem put_results (h : HostRegs) (reg v : Nat) : (h.put reg v).DOUT = h.DOUT ∧ (h.put reg v).TAG = h.TAG := by
  unfold HostRegs.put
  split <;> exact ⟨rfl, rfl⟩

/-- Settles O56: the register written reads back (`regValue_put_same`), the others read as before
(`regValue_put_other`). -/
theorem registerReadsBack : Obligations.RegisterReadsBack := by
  intro s reg width v hb hw hv
  obtain ⟨hdout, htag⟩ := put_results s.host reg v
  have hreg : reg ≠ 11 := by
    rintro rfl
    cases hw
  refine ⟨s.host.put reg v, ?_, hdout, htag, ?_, fun other ho => regValue_put_other ho⟩
  · rw [hostWrite_operand v hb hw, writeReg, if_pos hv]
    rfl
  · have hread := hostRead_idle (s := s.withHost (s.host.put reg v)) hb (regValue_put_same hw hv)
    refine hread.trans ?_
    rw [reading_some, State.afterRead, if_neg fun h => hreg h.1]
    rfl

theorem operandWidth_large {p : Platform} {reg : Nat} (h : 11 < reg) : operandWidth p reg = none := by
  obtain ⟨n, rfl⟩ : ∃ n, reg = n + 12 := ⟨reg - 12, by omega⟩
  rfl

theorem regValue_large {reg : Nat} (h : 11 < reg) : regValue reg s = none := by
  obtain ⟨n, rfl⟩ : ∃ n, reg = n + 12 := ⟨reg - 12, by omega⟩
  rfl

/-- Settles O57: a register that is neither an operand register nor CMD is not writable (`hostWrite_other`), CMD and a
number above 11 are not readable, and a write of either kind checks the value's range. -/
theorem accessRights : Obligations.AccessRights := by
  intro s hb
  refine ⟨fun v => ⟨?_, ?_, ?_⟩, hostRead_unreadable hb rfl, fun reg v hr => ⟨?_, ?_⟩, fun reg width v hw hv => ?_,
    fun v hv => ?_⟩
  · exact hostWrite_other v hb rfl (by decide)
  · exact hostWrite_other v hb rfl (by decide)
  · exact hostWrite_other v hb rfl (by decide)
  · exact hostWrite_other v hb (operandWidth_large hr) (by omega)
  · exact hostRead_unreadable hb (regValue_large hr)
  · rw [hostWrite_operand v hb hw, writeReg, if_neg (by omega)]
  · rw [hostWrite_command v hb, if_neg (by omega)]

/-! ## Memory -/

theorem hostAccess_idle (hb : s.busy = false) (addr n : Nat) (missing : Refusal) (f : Result) :
    (s.AddressesExist addr n → hostAccess addr n missing s f = f)
      ∧ (¬ s.AddressesExist addr n → hostAccess addr n missing s f = .refused missing) := by
  rcases hostAccess_cases (s := s) addr n missing f with ⟨h, -⟩ | ⟨-, h, e⟩ | ⟨-, h, e⟩
  · rw [hb] at h
    cases h
  · exact ⟨fun hex => absurd hex h, fun _ => e⟩
  · exact ⟨fun _ => e, fun hn => absurd h hn⟩

/-- Settles O59: what a run of writes leaves at every address (`Memory.read_writeBytes`), and hides
(`Unseen.hides_minus`). -/
theorem memoryReadsBack : Obligations.MemoryReadsBack := by
  intro s addr bytes hb
  refine ⟨fun hex => ⟨s.MEM.writeBytes addr bytes, s.unseen.minus { base := addr, size := bytes.length },
      ?_, rfl, ?_, ?_, ?_, ?_⟩, fun hn => ⟨(hostAccess_idle hb ..).2 hn, (hostAccess_idle hb ..).2 hn⟩⟩
  · exact (hostAccess_idle hb ..).1 hex
  · exact fun x => Unseen.hides_minus _ x
  · intro k hk
    rw [Memory.read_writeBytes, if_pos (by omega), Nat.add_sub_cancel_left, List.getD_eq_getElem?_getD]
    simp [hk]
  · intro x hx
    rw [Memory.read_writeBytes, if_neg (by omega)]
  · have hshown : State.shownBytes addr bytes.length
        { s with MEM := s.MEM.writeBytes addr bytes, unseen := s.unseen.minus { base := addr, size := bytes.length } }
          = some bytes := by
      refine shownBytes_eq_some.mpr ⟨fun k hk hh => ?_, Memory.readBytes_eq_some.mpr ⟨rfl, fun k hk => ?_⟩⟩
      · exact ((Unseen.hides_minus _ _).mp hh).2 ⟨by simp, by simpa using hk⟩
      · rw [Memory.read_writeBytes, if_pos (by omega), Nat.add_sub_cancel_left]
    refine ((hostAccess_idle hb ..).1 hex).trans ?_
    rw [hshown]
    rfl

/-! ## No value -/

/-- A memory read that meets a byte without a value is refused. -/
theorem hostMemRead_noValue (hb : s.busy = false) {addr n k : Nat} (hk : k < n) (h : s.MEM.read (addr + k) = none) :
    hostMemRead addr n s = .refused .rfNoValue := by
  by_cases hex : s.AddressesExist addr n
  · refine ((hostAccess_idle hb ..).1 hex).trans ?_
    cases hbytes : s.shownBytes addr n with
    | none => rfl
    | some bytes =>
      obtain ⟨hl, hr⟩ := Memory.readBytes_eq_some.mp (shownBytes_eq_some.mp hbytes).2
      have hbyte := hr k hk
      rw [h, List.getElem?_eq_getElem (by omega)] at hbyte
      cases hbyte
  · exact (hostAccess_idle hb ..).2 hex

theorem encryptCheck_noValue (hb : s.busy = false) (h : s.host.KEY.held = false ∨ s.host.DIN.held = false) :
    encryptCheck s = some .rfNoValue := by
  have hoperand : (!s.host.KEY.held || !s.host.DIN.held) = true := by simpa using h
  rw [encryptCheck, hb, if_neg Bool.false_ne_true, if_pos hoperand]

/-- Checks (2) and (3) of R122 decide before any other but the first, and both refuse for the same reason. -/
theorem sealCheck_noValue (hb : s.busy = false) (h : s.SealFails 2 ∨ s.SealFails 3) :
    sealCheck s = some .rfNoValue := by
  rw [sealCheck, hb, if_neg Bool.false_ne_true]
  split
  · rfl
  next h2 =>
  have h3 : s.SealFails 3 := by
    refine h.resolve_left fun hf => h2 ?_
    simpa [State.SealFails, or_assoc] using hf
  refine if_pos ?_
  rcases h3 with ⟨n, hn, hpos, hheld⟩ | ⟨n, hn, hpos, hheld⟩
  · have hp : s.ptBlocks = n := by rw [State.ptBlocks, hn]; rfl
    rcases hheld with hheld | hheld <;> simp [hp, hpos, hheld]
  · have ha : s.adBlocks = n := by rw [State.adBlocks, hn]; rfl
    simp [ha, hpos, hheld]

/-! ## Operations and the marks (log 2) -/

/-- A result with the registers of its next state marked as holding what their storage holds. -/
def markedAfter (r : Result) : Result := andThen r fun s => .next s.marked

/-- What `f` does to the storage of registers does not depend on whether they hold a value. -/
def IgnoresMarks (f : State → Result) : Prop := ∀ s, markedAfter (f s) = markedAfter (f s.marked)

theorem IgnoresMarks.andThen {f g : State → Result} (hf : IgnoresMarks f) (hg : IgnoresMarks g) :
    IgnoresMarks fun s => Machine.andThen (f s) g := by
  have hsplit (r : Result) :
      markedAfter (Machine.andThen r g) = Machine.andThen (markedAfter r) fun u => markedAfter (g u) := by
    unfold markedAfter
    rw [andThen_assoc, andThen_assoc]
    exact andThen_congr fun u => hg u
  intro s
  show markedAfter (Machine.andThen (f s) g) = markedAfter (Machine.andThen (f s.marked) g)
  rw [hsplit, hsplit, hf s]

/-- A part that depends on a value as well, which does not depend on the marks. -/
theorem IgnoresMarks.of_value {α : Type} {p : State → α} {g : α → State → Result} (hp : ∀ s : State, p s.marked = p s)
    (hg : ∀ x, IgnoresMarks (g x)) : IgnoresMarks fun s => g (p s) s := by
  intro s
  show markedAfter (g (p s) s) = markedAfter (g (p s.marked) s.marked)
  rw [hp]
  exact hg (p s) s

theorem ignoresMarks_gctrLoop (bs done : List Block) : IgnoresMarks (gctrLoop bs done) := by
  induction bs generalizing done with
  | nil => exact fun _ => rfl
  | cons b bs ih =>
    have hinc : IgnoresMarks opInc32 := fun _ => rfl
    have hkey : IgnoresMarks keystream := fun _ => rfl
    have hxor : IgnoresMarks (xorKeystream b) := fun _ => rfl
    exact hkey.andThen (hxor.andThen (IgnoresMarks.of_value (p := State.portBlock) (fun _ => rfl)
      fun o => hinc.andThen (ih (o :: done))))

theorem ignoresMarks_hashLoop (xs : List Block) : IgnoresMarks (hashLoop xs) := by
  induction xs with
  | nil => exact fun _ => rfl
  | cons x xs ih =>
    have hhash : IgnoresMarks (hashBlock x) := fun _ => rfl
    exact hhash.andThen ih

theorem ignoresMarks_exec {i : Instr} (hi : ¬ isCommand i) : IgnoresMarks (exec i) := by
  cases i with
  | nop | encryptBlock | sealMessage => exact absurd hi (by simp [isCommand])
  | ark r =>
    intro s
    simp only [exec, execArk, opArk]
    split <;> rfl
  | rcon k =>
    intro s
    simp only [exec, execRcon]
    split <;> rfl
  | lenblk a p =>
    intro s
    simp only [exec, execLenblk, opLenblk]
    split <;> rfl
  | gctr bs => exact ignoresMarks_gctrLoop bs []
  | ghash xs =>
    have hclear : IgnoresMarks opClearY := fun _ => rfl
    exact hclear.andThen (ignoresMarks_hashLoop xs)
  | _ => exact fun _ => rfl

/-- Settles O58: host reads and issue checks refuse (`hostMemRead_noValue`, `encryptCheck_noValue`,
`sealCheck_noValue`); an operation does not look at the marks (`ignoresMarks_exec`). -/
theorem noValueIsRefused : Obligations.NoValueIsRefused := by
  refine ⟨fun s reg hb h => ?_, fun s addr n k hb hk h => hostMemRead_noValue hb hk h, fun s hb h => ?_,
    fun s hb h => ?_, fun i s t hi h => ?_⟩
  · rw [hostRead_idle hb h, reading_none]
  · have hc := encryptCheck_noValue hb h
    refine ⟨?_, (hostWrite_word .encryptBlock hb).trans ?_⟩
    · show execEncryptBlock s = _
      rw [execEncryptBlock, hc]
    · rw [Command.check, hc]
      rfl
  · have hc := sealCheck_noValue hb h
    refine ⟨?_, (hostWrite_word .sealMessage hb).trans ?_⟩
    · show execSeal s = _
      rw [execSeal, hc]
    · rw [Command.check, hc]
      rfl
  · have hm := ignoresMarks_exec hi s
    rw [h] at hm
    obtain ⟨u, hu, hmarked⟩ := andThen_eq_next.mp hm
    exact ⟨u, hu, Host.Outcome.next.inj hmarked⟩

end Sys2Proof.Machine
end

section
/-! SUPPORT. What reset leaves, and what a step runs. -/

namespace Sys2Proof.Machine

/-- Settles O1, by the table of `State.reset`. -/
theorem resetState : Obligations.ResetState :=
  ⟨rfl, rfl, rfl, rfl, Memory.read_nil⟩

/-- Every instruction's code decodes to the instruction, the family RoundTrip put together. -/
theorem roundTrip (i : Instr) : Laws.RoundTrip.Statement i := by
  cases i with
  | nop => exact Laws.RoundTrip.nop
  | encryptBlock => exact Laws.RoundTrip.encryptBlock
  | sealMessage => exact Laws.RoundTrip.sealMessage
  | ldst b => exact Laws.RoundTrip.ldst b
  | ark r => exact Laws.RoundTrip.ark r
  | subb => exact Laws.RoundTrip.subb
  | shrow => exact Laws.RoundTrip.shrow
  | mixc => exact Laws.RoundTrip.mixc
  | stst => exact Laws.RoundTrip.stst
  | rotw t => exact Laws.RoundTrip.rotw t
  | subw t => exact Laws.RoundTrip.subw t
  | rcon k => exact Laws.RoundTrip.rcon k
  | kexp => exact Laws.RoundTrip.kexp
  | cipher b => exact Laws.RoundTrip.cipher b
  | mkj0 => exact Laws.RoundTrip.mkj0
  | inc32 => exact Laws.RoundTrip.inc32
  | xor128 a b => exact Laws.RoundTrip.xor128 a b
  | gfstep x => exact Laws.RoundTrip.gfstep x
  | gfmul a b => exact Laws.RoundTrip.gfmul a b
  | lenblk a p => exact Laws.RoundTrip.lenblk a p
  | hsub => exact Laws.RoundTrip.hsub
  | gctr bs => exact Laws.RoundTrip.gctr bs
  | ghash xs => exact Laws.RoundTrip.ghash xs
  | tagenc => exact Laws.RoundTrip.tagenc
  | sbox a => exact Laws.RoundTrip.sbox a
  | xtime b => exact Laws.RoundTrip.xtime b
  | mul3 b => exact Laws.RoundTrip.mul3 b

variable {s : State} {i : Instr}

theorem decode_uop_eq_ok {bytes : List Byte} :
    decode (.uop bytes) = .ok i ↔ ∃ more, decodeUop bytes = .ok (i, more) := by
  unfold decode
  cases hd : decodeUop bytes with
  | error e => simp [hd]
  | ok found => simp [hd, Prod.ext_iff]

theorem decode_encode (h : i.wellFormed = true) : decode (encode i) = .ok i := by
  have hr := roundTrip i h
  cases he : encode i with
  | command w =>
    rw [he] at hr
    exact hr
  | uop bytes =>
    rw [he] at hr
    exact decode_uop_eq_ok.mpr ⟨[], by simpa using hr []⟩

theorem decode_of_decodeTableWord {nbits w : Nat} (h : decodeTableWord nbits w = some i) :
    decode (tableCode nbits w) = .ok i := by
  unfold decodeTableWord at h
  split at h
  · cases h
  next hd => rw [hd, Option.some.inj h]

/-- A turn that presents a code runs the instruction that the code decodes to, the core being idle. -/
theorem step_turnOf (hb : s.busy = false) {c : Code} {rest : List Turn} (ha : s.agenda = turnOf c :: rest)
    (hd : decode c = .ok i) : step s = exec i (s.withAgenda rest) := by
  have hb : (s.withAgenda rest).busy = false := hb
  cases c with
  | command w =>
    have hstep : step s = runCommand w (s.withAgenda rest) := by rw [step, ha]; rfl
    have hw : decodeCommand w = .ok i := hd
    rw [hstep, runCommand, hb, hw]
    rfl
  | uop bytes =>
    have hstep : step s = runUop bytes (s.withAgenda rest) := by rw [step, ha]; rfl
    obtain ⟨more, hw⟩ := decode_uop_eq_ok.mp hd
    rw [hstep, runUop, hb, hw]
    rfl

/-- Settles O11: every way to present a code is a turn whose code decodes (`step_turnOf`). -/
theorem stepRunsDecoded : Obligations.StepRunsDecoded := by
  refine ⟨fun s m rest ha => ?_, fun s rest ha => ?_, fun s ha => step_of_no_turn ha, fun s i hb => ⟨?_, ?_, ?_, ?_⟩⟩
  · rw [step, ha]
    rfl
  · rw [step, ha]
    rfl
  · exact fun w rest ha hw => step_turnOf hb (c := .command w) ha hw
  · exact fun bytes more rest ha hw => step_turnOf hb (c := .uop bytes) ha (decode_uop_eq_ok.mpr ⟨more, hw⟩)
  · exact fun rest hi ha => step_turnOf hb ha (decode_encode hi)
  · exact fun nbits w hw => step_turnOf (s := s.withFetchWord nbits w) hb rfl (decode_of_decodeTableWord hw)

end Sys2Proof.Machine
end

section
/-! SUPPORT. What the core accesses in memory (R30 to R33), and what the host can reach while it runs (R42, R43). -/

namespace Sys2Proof.Machine

variable {s t u v w : State} {r : RegionName}

/-! ## The blocks of a region -/

/-- Block `i` of a region lies in it, if there are more than `i` (R55). -/
theorem inRegion_block {n i k : Nat} (hc : r.count s = some n) (hb : 0 < n → r.base s ≠ none) (hi : i < n)
    (hk : k < 16) : s.InRegion r (r.block i s + k) := by
  obtain ⟨a, ha⟩ := Option.ne_none_iff_exists'.mp (hb (by omega))
  refine ⟨a, n, ha, hc, ?_⟩
  rw [block_of_base ha]
  omega

/-- A block that the core is to access lies in a region of the SEAL in progress. -/
theorem State.Inv.accesses_region (h : s.Inv) {it : SeqItem} (hit : it ∈ s.seq.todo) (hr : it.act.region = some r) :
    s.seq.pos.op = some .sealMessage ∧ ∀ k < 16, s.InRegion r (r.block s.seq.pos.blk s + k) := by
  obtain ⟨hop, n, hc, hlt⟩ := h.blocks it hit r hr
  exact ⟨hop, fun k hk => inRegion_block hc ((h.regions hop).based r n hc) hlt hk⟩

theorem Memory.read_writeBlock_outside {P : Nat → Prop} {m : Memory} {a x : Nat} (b : Block)
    (h : ∀ k < 16, P (a + k)) (hx : ¬ P x) : (m.writeBlock a b).read x = m.read x := by
  rw [Memory.read_writeBlock, if_neg]
  rintro ⟨h1, h2⟩
  have hp := h (x - a) (by omega)
  rw [Nat.add_sub_cancel' h1] at hp
  exact hx hp

/-- A step of the core writes memory in the ciphertext region of a SEAL in progress only. -/
theorem coreStep_read (hi : s.Inv) (h : coreStep s = .next t) {x : Nat}
    (hx : ¬ (s.seq.pos.op = some .sealMessage ∧ s.InRegion .ct x)) : t.MEM.read x = s.MEM.read x := by
  cases coreStep_cases h with
  | idle _ eq => rw [eq]
  | finish d _ eq => rw [eq]; rfl
  | micro it rest u todo unfinished run eq =>
    obtain ⟨q, hq, -⟩ := moveOn_frame rest u
    rw [eq, hq, withSeq_MEM]
    rcases (Micro.run_effect unfinished run).mem with hm | ⟨hstore, hm⟩
    · rw [hm]
    · obtain ⟨hop, hblock⟩ :=
        hi.accesses_region (r := .ct) (by rw [todo]; exact List.mem_cons_self) (by rw [hstore]; rfl)
      rw [hm]
      exact Memory.read_writeBlock_outside _ hblock fun hin => hx ⟨hop, hin⟩

/-! ## Memory under a whole SEAL -/

/-- What every round of a loop keeps, the loop keeps. -/
theorem forBlocks_keeps {f : Nat → State → Result} {P : State → Prop} {n i : Nat}
    (hf : ∀ j u v, j < i + n → P u → f j u = .next v → P v) (hs : P s)
    (h : forBlocks f n i s = .next t) : P t := by
  induction n generalizing i s with
  | zero =>
    cases h
    exact hs
  | succ n ih =>
    obtain ⟨u, hu, h⟩ := andThen_eq_next.mp h
    exact ih (fun j v w hj => hf j v w (by omega)) (hf i s u (by omega) hs hu) h

theorem sealGctrBlock_mem {i : Nat} (h : sealGctrBlock i s = .next t) :
    ∃ b, t.MEM = s.MEM.writeBlock (RegionName.ct.block i s) b := by
  obtain ⟨u, hu, h⟩ := andThen_eq_next.mp h
  obtain ⟨x, -, hx⟩ := reading_eq_next.mp hu
  cases hx
  simp only [keystream_eq, xorKeystream_eq, storeBlock, opInc32_eq, andThen_next] at h
  obtain rfl := Host.Outcome.next.inj h
  exact ⟨_, by simp only [withDp_MEM, deliver_MEM, withMem_MEM]; rfl⟩

theorem sealHashBlock_mem {i : Nat} (h : sealHashBlock r i s = .next t) : t.MEM = s.MEM := by
  obtain ⟨u, hu, h⟩ := andThen_eq_next.mp h
  obtain ⟨x, -, hx⟩ := reading_eq_next.mp hu
  cases hx
  rw [hashBlock_eq] at h
  cases h
  rfl

theorem sealHashLength_mem (h : sealHashLength s = .next t) : t.MEM = s.MEM := by
  unfold sealHashLength opLenblk at h
  split at h
  · rw [andThen_next, hashBlock_eq] at h
    cases h
    rfl
  · cases h

theorem opFinish_mem (h : opFinish s = .next t) : t.MEM = s.MEM := by
  obtain ⟨d, rfl, -⟩ := Micro.run_finish h
  rfl

theorem sealHashBlocks_mem {n i : Nat} (h : forBlocks (sealHashBlock r) n i s = .next t) : t.MEM = s.MEM :=
  forBlocks_keeps (P := fun u => u.MEM = s.MEM) (fun _ _ _ _ hu hw => (sealHashBlock_mem hw).trans hu) rfl h

/-- SEAL's phases write memory in PHASE GCTR only. -/
theorem runSeal_mem (h : runSeal s = .next t) :
    ∃ v w, Carries s v ∧ v.MEM = s.MEM ∧ forBlocks sealGctrBlock v.ptBlocks 0 v = .next w ∧ t.MEM = w.MEM := by
  rw [runSeal_eq] at h
  obtain ⟨v, hv, hcarries, hmem⟩ := sealStart_next s
  rw [hv, andThen_next] at h
  obtain ⟨w, hgctr, h⟩ := andThen_eq_next.mp h
  obtain ⟨u1, hclear, h⟩ := andThen_eq_next.mp h
  obtain ⟨u2, had, h⟩ := andThen_eq_next.mp h
  obtain ⟨u3, hct, h⟩ := andThen_eq_next.mp h
  obtain ⟨u4, hlen, h⟩ := andThen_eq_next.mp h
  obtain ⟨u5, htag, hfinish⟩ := andThen_eq_next.mp h
  refine ⟨v, w, hcarries, hmem, hgctr, ?_⟩
  cases hclear
  rw [opFinish_mem hfinish, (exec_effect (i := .tagenc) (by simp [isCommand]) htag).mem, sealHashLength_mem hlen,
    sealHashBlocks_mem hct, sealHashBlocks_mem had, withDp_MEM]

/-- A SEAL whose checks pass writes memory in its ciphertext region only. -/
theorem execSeal_read (h : execSeal s = .next t) {x : Nat} (hx : ¬ s.InRegion .ct x) :
    t.MEM.read x = s.MEM.read x := by
  have hcheck := (execSeal_next h).1
  obtain ⟨key, iv, p, a, hacc⟩ := sealCheck_eq_none_iff_accepted.mp hcheck
  have hcount : RegionName.ct.count s = some p := Reg.value_eq_some.mpr hacc.ptBlocks
  have hbased : 0 < p → RegionName.ct.base s ≠ none := fun hp => base_ne_none (hacc.ptBased hp).2
  rw [execSeal, hcheck] at h
  obtain ⟨v, w, hv, hmem, hgctr, ht⟩ := runSeal_mem (s := issue .sealMessage s) h
  have hp : v.ptBlocks = p := hv.ptBlocks.trans (blocks_of_count hcount)
  have hw : Carries (issue .sealMessage s) w ∧ w.MEM.read x = s.MEM.read x := by
    refine forBlocks_keeps (P := fun u => Carries (issue .sealMessage s) u ∧ u.MEM.read x = s.MEM.read x) ?_
      ⟨hv, by rw [hmem]; rfl⟩ hgctr
    rintro i u u' hi ⟨hu, hread⟩ hu'
    obtain ⟨b, hm⟩ := sealGctrBlock_mem hu'
    refine ⟨hu.trans (runItems_carries gctrItems_unfinished u u' ((runItems_gctr i u).trans hu')), ?_⟩
    rw [hm, hu.block, ← hread]
    exact Memory.read_writeBlock_outside b (fun k hk => inRegion_block hcount hbased (by omega) hk) hx
  rw [ht, hw.2]

/-- Settles O45: a SEAL by its blocks (`execSeal_read`), another command by its completion, an operation by its effect
(`exec_effect`), a step of the core by the block it accesses (`coreStep_read`). -/
theorem memoryWrittenBySealOnly : Obligations.MemoryWrittenBySealOnly := by
  refine ⟨fun i s t h hi a => ?_, fun s t h x hx => execSeal_read h hx, fun s t hi h x hx => coreStep_read hi h hx⟩
  by_cases hc : isCommand i
  · rcases hc with rfl | rfl | rfl
    · rw [execNop_next h]
    · obtain ⟨-, -, d, rfl⟩ := execEncryptBlock_next h
      rfl
    · exact absurd rfl hi
  · rw [(exec_effect hc h).mem]

/-! ## The operand registers while BUSY (R43, R155) -/

/-- Settles O55: while BUSY a step is the core's, NOP, an access to memory, a read or reset (`step_cases`). -/
theorem operandsStableWhileBusy : Obligations.OperandsStableWhileBusy := by
  intro s t hb hr h
  obtain ⟨rest, hc⟩ := step_cases h
  have not_idle (idle : (s.withAgenda rest).busy = false) : SameOperands s.host t.host := by
    rw [show (s.withAgenda rest).busy = true from hb] at idle
    cases idle
  cases hc with
  | core eq => exact sameOperands_coreStep (s := s.withAgenda rest) eq
  | nop eq => exact eq ▸ .refl _
  | register reg v width idle _ _ _ => exact not_idle idle
  | issue c _ idle _ _ => exact not_idle idle
  | read u r eq => exact eq ▸ .refl _
  | memWrite addr bytes _ eq => exact eq ▸ .refl _
  | encrypt _ idle _ => exact not_idle idle
  | sealing _ idle _ => exact not_idle idle
  | operation i idle _ _ => exact not_idle idle
  | reset turn _ => exact absurd turn hr

/-! ## The host's lock (R42) -/

theorem hostRead_busy {reg : Nat} (hb : s.busy = true) (hr : reg ≠ 11) : hostRead reg s = .refused .rfBusy := by
  rw [hostRead, if_pos (by simp [hb, hr])]

/-- While BUSY a poll of STATUS returns 1 (R21). -/
theorem hostRead_status_busy (hb : s.busy = true) (hd : s.isDone = false) :
    hostRead 11 s = .next (s.reply (.reg 11 1)) := by
  have hvalue : s.readStatus.toNat = 1 := by
    rw [readStatus_toNat, ← State.busy, ← State.isDone, hb, hd]
    rfl
  rw [hostRead_status, hvalue, State.afterRead, if_neg (by simp [hd])]

/-- While BUSY an access to memory is refused if it touches a region of the command, and goes on elsewhere. -/
theorem hostAccess_busy (hi : s.Inv) (hb : s.busy = true) (addr n : Nat) (missing : Refusal) (f : Result) :
    (s.TouchesRunningRegion addr n → hostAccess addr n missing s f = .refused .rfBusy)
      ∧ (¬ s.TouchesRunningRegion addr n → s.AddressesExist addr n → hostAccess addr n missing s f = f) := by
  rw [← inRunningRegion_iff hi.regions]
  rcases hostAccess_cases (s := s) addr n missing f with ⟨-, ht, e⟩ | ⟨ht, hex, e⟩ | ⟨ht, -, e⟩
  · exact ⟨fun _ => e, fun hn => absurd ht hn⟩
  · exact ⟨fun h => absurd ⟨hb, h⟩ ht, fun _ h => absurd h hex⟩
  · exact ⟨fun h => absurd ⟨hb, h⟩ ht, fun _ _ => e⟩

/-- Settles O53, move by move. -/
theorem busyLocksHost : Obligations.BusyLocksHost := by
  intro s hb
  refine ⟨fun reg v => hostWrite_busy reg v hb, fun reg hr => hostRead_busy hb hr,
    fun hd => hostRead_status_busy hb hd, fun hi addr bytes => ⟨(hostAccess_busy hi hb ..).1, fun ht hex => ?_⟩,
    fun hi addr n => ⟨(hostAccess_busy hi hb ..).1, fun ht hex hshown bytes hbytes => ?_⟩⟩
  · exact ⟨_, (hostAccess_busy hi hb ..).2 ht hex, rfl, fun x => Unseen.hides_minus _ x⟩
  · refine ((hostAccess_busy hi hb ..).2 ht hex).trans ?_
    rw [shownBytes_eq_some.mpr ⟨hshown, hbytes⟩]
    rfl

end Sys2Proof.Machine
end

section
/-! SUPPORT. A host access outside the regions and a step of the core, in either order (R42; log 12). -/

namespace Sys2Proof.Machine

variable {s t u v w : State} {r : RegionName} {q : Range}

/-! ## Memory apart from a range -/

theorem Memory.readBlock_congr {m k : Memory} {a : Nat} (h : ∀ i < 16, m.read (a + i) = k.read (a + i)) :
    m.readBlock a = k.readBlock a :=
  Option.ext fun b => by
    simp only [Memory.readBlock_eq_some]
    exact forall₂_congr fun i hi => by rw [h i hi]

theorem Memory.readBytes_congr {m k : Memory} {a n : Nat} (h : ∀ i < n, m.read (a + i) = k.read (a + i)) :
    m.readBytes a n = k.readBytes a n :=
  Option.ext fun bs => by
    simp only [Memory.readBytes_eq_some]
    exact and_congr_right fun _ => forall₂_congr fun i hi => by rw [h i hi]

/-- Bytes written outside a block leave it as it is. -/
theorem Memory.readBlock_writeBytes_other (m : Memory) {a addr : Nat} {bytes : List Byte}
    (h : ∀ i < 16, ¬ (addr ≤ a + i ∧ a + i < addr + bytes.length)) :
    (m.writeBytes addr bytes).readBlock a = m.readBlock a :=
  Memory.readBlock_congr fun i hi => by rw [Memory.read_writeBytes, if_neg (h i hi)]

/-- Bytes and a block that share no address can be written in either order. -/
theorem Memory.writeBytes_writeBlock {m : Memory} (hm : m.wf) {a addr : Nat} (b : Block) {bytes : List Byte}
    (h : ∀ i < 16, ¬ (addr ≤ a + i ∧ a + i < addr + bytes.length)) :
    (m.writeBlock a b).writeBytes addr bytes = (m.writeBytes addr bytes).writeBlock a b := by
  refine Memory.ext (Memory.wf_writeBytes (Memory.wf_writeBlock hm a b) _ _)
    (Memory.wf_writeBlock (Memory.wf_writeBytes hm _ _) a b) fun x => ?_
  simp only [Memory.read_writeBytes, Memory.read_writeBlock]
  by_cases hx : a ≤ x ∧ x < a + 16
  · have hout := h (x - a) (by omega)
    rw [Nat.add_sub_cancel' hx.1] at hout
    simp only [if_pos hx, if_neg hout]
  · simp only [if_neg hx]

/-- A range that is apart from another stays whole when the other is taken out. -/
theorem Range.minus_apart {p : Range} (h : q.meets p = false) : p.minus q = [p] := by
  have hn : ¬ p.meets q = true := by
    intro hm
    obtain ⟨x, hp, hq⟩ := (Range.meets_iff _ _).mp hm
    rw [(Range.meets_iff _ _).mpr ⟨x, hq, hp⟩] at h
    cases h
  rw [Range.minus, if_neg hn]

/-! ## What a host access does -/

/-- What a host access to memory does where it is allowed: to memory, to what the host has not been shown and to the
replies. -/
structure HostEffect where
  mem : Memory → Memory
  unseen : Unseen → Unseen
  replies : List Reply → List Reply

/-- The state after it. -/
def HostEffect.on (e : HostEffect) (s : State) : State :=
  { s with MEM := e.mem s.MEM, unseen := e.unseen s.unseen, replies := e.replies s.replies }

section
variable (e : HostEffect) (s : State)
@[simp] theorem HostEffect.on_seq : (e.on s).seq = s.seq := rfl
@[simp] theorem HostEffect.on_ptBlocks : (e.on s).ptBlocks = s.ptBlocks := rfl
@[simp] theorem HostEffect.on_adBlocks : (e.on s).adBlocks = s.adBlocks := rfl

theorem HostEffect.on_block (r : RegionName) (i : Nat) : r.block i (e.on s) = r.block i s := by cases r <;> rfl
end

/-- It commutes with the core's block accesses and completions that leave the range `q` alone. -/
structure HostEffect.Within (e : HostEffect) (q : Range) : Prop where
  load : ∀ m a, (∀ i < 16, ¬ q.has (a + i)) → (e.mem m).readBlock a = m.readBlock a
  store : ∀ m a b, m.wf → (∀ i < 16, ¬ q.has (a + i)) → e.mem (m.writeBlock a b) = (e.mem m).writeBlock a b
  results : ∀ u : Unseen, e.unseen { u with results := true } = { e.unseen u with results := true }
  ciphertext : ∀ (u : Unseen) (p : Range), q.meets p = false →
    e.unseen { results := true, bytes := p :: u.bytes } = { results := true, bytes := p :: (e.unseen u).bytes }

/-- HostMemWrite. -/
def HostEffect.write (addr : Nat) (bytes : List Byte) : HostEffect where
  mem m := m.writeBytes addr bytes
  unseen u := u.minus { base := addr, size := bytes.length }
  replies rs := rs

/-- HostMemRead that returns `bytes`. -/
def HostEffect.read (addr : Nat) (bytes : List Byte) : HostEffect where
  mem m := m
  unseen u := u
  replies rs := .mem addr bytes :: rs

theorem HostEffect.write_within (addr : Nat) (bytes : List Byte) :
    (HostEffect.write addr bytes).Within { base := addr, size := bytes.length } where
  load m _ h := Memory.readBlock_writeBytes_other m h
  store _ _ b hm h := Memory.writeBytes_writeBlock hm b h
  results _ := rfl
  ciphertext u p h := by
    simp only [HostEffect.write, Unseen.minus, List.flatMap_cons, Range.minus_apart h, List.singleton_append]

theorem HostEffect.read_within (addr : Nat) (bytes : List Byte) (q : Range) : (HostEffect.read addr bytes).Within q :=
  ⟨fun _ _ _ => rfl, fun _ _ _ _ _ => rfl, fun _ => rfl, fun _ _ _ => rfl⟩

variable {e : HostEffect}

/-! ## It commutes with the core -/

/-- Where the position goes does not depend on it. -/
theorem HostEffect.moveOn_on (rest : List SeqItem) (s : State) : moveOn rest (e.on s) = e.on (moveOn rest s) := by
  have hseq := e.on_seq s
  have hpt := e.on_ptBlocks s
  have had := e.on_adBlocks s
  simp only [moveOn, advance, enterGctr, enterHashAd, enterHashCt, enterHashLength, hseq, hpt, had]
  repeat' split
  all_goals rfl

/-- It commutes with what a completion leaves the host to be shown. -/
theorem HostEffect.Within.unseenAtCompletion_on (he : e.Within q) (hq : s.inRunningRegion q = false) :
    (e.on s).unseenAtCompletion = e.unseen s.unseenAtCompletion := by
  unfold State.unseenAtCompletion
  rw [on_seq, on_ptBlocks]
  split
  next hop =>
    have hct : q.meets (RegionName.ct.range s) = false := by
      simp only [State.inRunningRegion, hop, Bool.or_eq_false_iff] at hq
      exact hq.1.2
    split
    · exact (he.results s.unseen).symm
    · exact (he.ciphertext s.unseen _ hct).symm
  · exact (he.results s.unseen).symm

theorem HostEffect.Within.complete_on (he : e.Within q) (hq : s.inRunningRegion q = false) :
    complete (e.on s) = e.on (complete s) := by
  rw [complete, he.unseenAtCompletion_on hq]
  rfl

/-- A micro-operation commutes with it, if the block accessed and the regions are apart from its range. -/
theorem HostEffect.Within.run_on (he : e.Within q) (hm : s.MEM.wf) (hq : s.inRunningRegion q = false) {m : Micro}
    (hblock : ∀ r, m.region = some r → ∀ i < 16, ¬ q.has (r.block s.seq.pos.blk s + i)) :
    m.run (e.on s) = andThen (m.run s) fun t => .next (e.on t) := by
  cases m with
  | load r =>
    have hload : (e.on s).MEM.readBlock (r.block s.seq.pos.blk s) = s.MEM.readBlock (r.block s.seq.pos.blk s) :=
      he.load _ _ (hblock r rfl)
    show loadBlock r s.seq.pos.blk (e.on s) = andThen (loadBlock r s.seq.pos.blk s) _
    rw [loadBlock, loadBlock, on_block, hload, andThen_reading]
    rfl
  | store =>
    have hstore : e.mem (s.MEM.writeBlock (RegionName.ct.block s.seq.pos.blk s) s.portBlock)
        = (e.mem s.MEM).writeBlock (RegionName.ct.block s.seq.pos.blk s) s.portBlock :=
      he.store _ _ _ hm (hblock .ct rfl)
    exact congrArg (fun m => Host.Outcome.next ((e.on s).withMem m)) hstore.symm
  | finish =>
    show opFinish (e.on s) = andThen (opFinish s) _
    unfold opFinish
    rw [on_seq]
    split
    · exact congrArg Host.Outcome.next
        (he.complete_on (s := s.withHost (s.host.setDOUT (.holding s.dp.KS.val))) hq)
    · exact congrArg Host.Outcome.next (he.complete_on hq)
  | ark r =>
    simp only [Micro.run, opArk]
    split <;> rfl
  | lenblk =>
    show opLenblk s.adBlocks s.ptBlocks (e.on s) = andThen (opLenblk s.adBlocks s.ptBlocks s) _
    unfold opLenblk
    split <;> rfl
  | move d => cases d <;> rfl
  | _ => rfl

/-- A block that the core is to access is apart from a range that is apart from the regions. -/
theorem State.Inv.accesses_apart (hi : s.Inv) (hq : s.inRunningRegion q = false) {it : SeqItem}
    (hit : it ∈ s.seq.todo) (hr : it.act.region = some r) (i : Nat) (hlt : i < 16) :
    ¬ q.has (r.block s.seq.pos.blk s + i) := by
  intro hhas
  obtain ⟨hop, hin⟩ := hi.accesses_region hit hr
  have htouch : s.TouchesRunningRegion q.base q.size := by
    refine ⟨hop, r, r.block s.seq.pos.blk s + i - q.base, by omega, ?_⟩
    rw [Nat.add_sub_cancel' hhas.1]
    exact hin i hlt
  rw [(inRunningRegion_iff hi.regions _ _).mpr htouch] at hq
  cases hq

/-- A step of the core commutes with it, if its range is apart from the regions of the command in progress. -/
theorem HostEffect.Within.coreStep_on (he : e.Within q) (hi : s.Inv) (hq : s.inRunningRegion q = false) :
    coreStep (e.on s) = andThen (coreStep s) fun t => .next (e.on t) := by
  unfold coreStep
  rw [on_seq]
  split
  · rfl
  next it rest htodo =>
  have hit : it ∈ s.seq.todo := by
    rw [htodo]
    exact List.mem_cons_self
  have hblock (r : RegionName) (hr : it.act.region = some r) := hi.accesses_apart hq hit hr
  rw [he.run_on hi.mem hq hblock, andThen_assoc, andThen_assoc]
  exact andThen_congr fun u => congrArg Host.Outcome.next (HostEffect.moveOn_on rest u)

/-! ## The access after the step -/

theorem SameOperands.range {s t : State} (h : SameOperands s.host t.host) (r : RegionName) : r.range t = r.range s := by
  have hbase : r.base t = r.base s := by
    cases r <;> simp only [RegionName.base, RegionName.baseReg, h.ptAddr, h.ctAddr, h.adAddr]
  have hblocks : r.blocks t = r.blocks s := by
    cases r <;> simp only [RegionName.blocks, State.ptBlocks, State.adBlocks, h.ptBlocks, h.adBlocks]
  rw [RegionName.range, hbase, hblocks, RegionName.range]

/-- A step of the core leaves the platform and the command in progress, or completes the command. -/
theorem coreStep_frame (h : coreStep s = .next t) :
    t.plat = s.plat ∧ (t.seq.pos.op = s.seq.pos.op ∨ t.seq.pos.op = none) := by
  cases coreStep_cases h with
  | idle _ eq => exact eq ▸ ⟨rfl, .inl rfl⟩
  | finish d _ eq => exact eq ▸ ⟨rfl, .inr rfl⟩
  | micro it rest u _ unfinished run eq =>
    obtain ⟨p, hp, hop⟩ := moveOn_frame rest u
    have hc := (Micro.run_effect unfinished run).carries
    rw [eq, hp]
    exact ⟨hc.plat, .inl (hop.trans (by rw [hc.seq]))⟩

/-- A step of the core leaves a range that is apart from the regions apart from them. -/
theorem coreStep_inRunningRegion (h : coreStep s = .next t) (hq : s.inRunningRegion q = false) :
    t.inRunningRegion q = false := by
  have hrange := (sameOperands_coreStep h).range
  unfold State.inRunningRegion at hq ⊢
  rcases (coreStep_frame h).2 with hop | hop
  · rwa [hop, hrange, hrange, hrange]
  · rw [hop]

/-- The host is shown the same bytes outside the regions before and after a step of the core. -/
theorem coreStep_shownBytes (hi : s.Inv) (h : coreStep s = .next t) {addr n : Nat} {bytes : List Byte}
    (hq : s.inRunningRegion { base := addr, size := n } = false) (hshown : s.shownBytes addr n = some bytes) :
    t.shownBytes addr n = some bytes := by
  have hout (k : Nat) (hk : k < n) : ¬ (s.seq.pos.op = some .sealMessage ∧ s.InRegion .ct (addr + k)) := by
    rintro ⟨hop, hin⟩
    rw [(inRunningRegion_iff hi.regions _ _).mpr ⟨hop, .ct, k, hk, hin⟩] at hq
    cases hq
  obtain ⟨hhides, hread⟩ := shownBytes_eq_some.mp hshown
  refine shownBytes_eq_some.mpr ⟨fun k hk => ?_, ?_⟩
  · rcases coreStep_unseen h with ⟨hu, -⟩ | ⟨hu, -⟩ <;> rw [hu]
    · exact hhides k hk
    · rw [unseenAtCompletion_hides]
      rintro (⟨hop, hhas⟩ | hh)
      · have hr := hi.regions hop
        obtain ⟨m, hm⟩ := Option.ne_none_iff_exists'.mp (hr.counted .ct)
        exact hout k hk ⟨hop, (range_has_iff hm (hr.based .ct m hm) _).mp hhas⟩
      · exact hhides k hk hh
  · rw [← hread]
    exact Memory.readBytes_congr fun k hk => coreStep_read hi h (hout k hk)

/-- A host access that goes on in `s`: its range is apart from the regions while BUSY, and exists. -/
theorem hostAccess_next {addr n : Nat} {missing : Refusal} {f : Result} (h : hostAccess addr n missing s f = .next t) :
    ¬ (s.busy = true ∧ s.inRunningRegion { base := addr, size := n } = true) ∧ s.AddressesExist addr n
      ∧ f = .next t := by
  rcases hostAccess_cases (s := s) addr n missing f with ⟨-, -, he⟩ | ⟨-, -, he⟩ | ⟨hq, hex, he⟩
  all_goals rw [he] at h
  · cases h
  · cases h
  · exact ⟨hq, hex, h⟩

theorem hostAccess_of_apart {addr n : Nat} (hq : s.inRunningRegion { base := addr, size := n } = false)
    (hex : s.AddressesExist addr n) (missing : Refusal) (f : Result) : hostAccess addr n missing s f = f := by
  rcases hostAccess_cases (s := s) addr n missing f with ⟨-, h, -⟩ | ⟨-, h, -⟩ | ⟨-, -, e⟩
  · rw [hq] at h
    cases h
  · exact absurd hex h
  · exact e

/-- A host access to memory that is allowed while BUSY has an effect apart from the regions, and the same one after a
step of the core. -/
theorem hostMove_effect {m : HostMove}
    (hm : (∃ addr bytes, m = .memWrite addr bytes) ∨ ∃ addr n, m = .memRead addr n) (hi : s.Inv) (hb : s.busy = true)
    (h : hostMove m s = .next t) (hstep : coreStep s = .next u) :
    ∃ (e : HostEffect) (q : Range), e.Within q ∧ s.inRunningRegion q = false ∧ t = e.on s
      ∧ hostMove m u = .next (e.on u) := by
  have apart {q : Range} (hq : ¬ (s.busy = true ∧ s.inRunningRegion q = true)) : s.inRunningRegion q = false :=
    Bool.eq_false_iff.mpr fun h => hq ⟨hb, h⟩
  have exist {addr n : Nat} (hex : s.AddressesExist addr n) : u.AddressesExist addr n := by
    rw [addressesExist_iff, (coreStep_frame hstep).1, ← addressesExist_iff]
    exact hex
  rcases hm with ⟨addr, bytes, rfl⟩ | ⟨addr, n, rfl⟩
  · obtain ⟨hq, hex, hf⟩ := hostAccess_next h
    exact ⟨.write addr bytes, _, HostEffect.write_within addr bytes, apart hq, (Host.Outcome.next.inj hf).symm,
      hostAccess_of_apart (coreStep_inRunningRegion hstep (apart hq)) (exist hex) _ _⟩
  · obtain ⟨hq, hex, hf⟩ := hostAccess_next h
    obtain ⟨bytes, hshown, hf⟩ := reading_eq_next.mp hf
    refine ⟨.read addr bytes, _, HostEffect.read_within addr bytes _, apart hq, (Host.Outcome.next.inj hf).symm,
      (hostAccess_of_apart (coreStep_inRunningRegion hstep (apart hq)) (exist hex) _ _).trans ?_⟩
    rw [coreStep_shownBytes hi hstep (apart hq) hshown]
    rfl

/-- Settles O54: the effect of the access is the same after the step (`hostMove_effect`), and the step is the same after
the access (`HostEffect.Within.coreStep_on`). -/
theorem hostAccessDoesNotDisturb : Obligations.HostAccessDoesNotDisturb := by
  intro s t u m hi hb hm ht hu
  obtain ⟨e, q, he, hq, rfl, hmove⟩ := hostMove_effect hm hi hb ht hu
  refine ⟨e.on u, ?_, hmove⟩
  rw [he.coreStep_on hi hq, hu, andThen_next]

end Sys2Proof.Machine
end

section
/-! SUPPORT. The codes (R45 to R47, R58; log 7): what decodes is what the encoder writes, and which codes are
refused. -/

namespace Sys2Proof

open Sys2Proof.Machine

/-! ## Operand bytes -/

/-- The bytes of the word of 4 bytes are the bytes. -/
theorem wordBytes_wordOfBytes (l : List Byte) (h : l.length = 4) : wordBytes (wordOfBytes l) = l := by
  apply List.ext_getElem (by simp [h])
  intro i h1 h2
  have hi : i < 4 := by omega
  simp only [wordBytes, List.getElem_map, List.getElem_range, wordOfBytes, wordByte_wordOf _ _ _ _ _ hi]
  interval_cases i <;> simp [List.getD, h]

theorem be_lt (l : List Byte) : be l < 256 ^ l.length := by
  induction l with
  | nil => simp [be]
  | cons b l ih =>
    have hb : (b.toNat + 1) * 256 ^ l.length ≤ 256 * 256 ^ l.length := Nat.mul_le_mul_right _ b.isLt
    rw [be, List.length_cons, pow_succ]
    linarith

/-- The low `n` bytes of a number do not depend on what stands above them. -/
theorem tobe_mul_add (a v n : Nat) : tobe (a * 256 ^ n + v) n = tobe v n := by
  induction n generalizing a with
  | zero => rfl
  | succ n ih =>
    have hsplit : a * 256 ^ (n + 1) + v = (a * 256) * 256 ^ n + v := by ring
    have hbyte : BitVec.ofNat 8 (a * 256 + v / 256 ^ n) = BitVec.ofNat 8 (v / 256 ^ n) :=
      BitVec.eq_of_toNat_eq (by simp)
    have htop : (a * 256 * 256 ^ n + v) / 256 ^ n = a * 256 + v / 256 ^ n := by
      rw [Nat.mul_comm, Nat.mul_add_div (by positivity)]
    rw [tobe, tobe, hsplit, ih, htop, hbyte]

/-- `be` is the inverse of `tobe` (R8). -/
theorem tobe_be (l : List Byte) : tobe (be l) l.length = l := by
  induction l with
  | nil => rfl
  | cons b l ih =>
    have htop : (b.toNat * 256 ^ l.length + be l) / 256 ^ l.length = b.toNat := by
      rw [Nat.mul_comm, Nat.mul_add_div (by positivity), Nat.div_eq_of_lt (be_lt l), Nat.add_zero]
    rw [List.length_cons, tobe, be, htop, tobe_mul_add, ih, BitVec.ofNat_toNat, BitVec.setWidth_eq]

/-! ## What decodes -/

/-- With the bytes `before` read and the bytes `bs` to come, the decoder's answer is an instruction that is well-formed,
whose code is `before` and the bytes it takes from `bs`, if it is one. -/
def Decoded.Encodes (before bs : List Byte) (d : Decoded) : Prop :=
  ∀ i rest, d = .ok (i, rest) → i.wellFormed = true ∧ ∃ own, encode i = .uop (before ++ own) ∧ bs = own ++ rest

section Encodes

variable {before bs : List Byte}

theorem Decoded.encodes_ok {i : Instr} (he : encode i = .uop before := by rfl)
    (hw : i.wellFormed = true := by rfl) :
    Decoded.Encodes before bs (.ok (i, bs)) := by
  intro j rest h
  cases h
  exact ⟨hw, [], by rw [he, List.append_nil], rfl⟩

theorem Decoded.encodes_error (e : DecodeError) : Decoded.Encodes before bs (.error e) := nofun

/-- An operand read is part of the instruction's code. -/
theorem Decoded.Encodes.read {own rest : List Byte} {d : Decoded} (h : Decoded.Encodes (before ++ own) rest d) :
    Decoded.Encodes before (own ++ rest) d := by
  intro i more hd
  obtain ⟨hw, tail, he, rfl⟩ := h i more hd
  exact ⟨hw, own ++ tail, by rw [he, List.append_assoc], (List.append_assoc _ _ _).symm⟩

theorem encodes_accept {ok : Bool} {i : Instr} (h : ok = true → Decoded.Encodes before bs (.ok (i, bs))) :
    Decoded.Encodes before bs (accept ok i bs) := by
  cases ok with
  | false => exact Decoded.encodes_error _
  | true => exact h rfl

theorem encodes_onByte {f : Byte → List Byte → Decoded} (h : ∀ b r, Decoded.Encodes (before ++ [b]) r (f b r)) :
    Decoded.Encodes before bs (onByte bs f) := by
  cases bs with
  | nil => exact Decoded.encodes_error _
  | cons b r => exact (h b r).read (own := [b])

theorem encodes_onBytes {n : Nat} {f : List Byte → List Byte → Decoded}
    (h : ∀ l r, l.length = n → Decoded.Encodes (before ++ l) r (f l r)) : Decoded.Encodes before bs (onBytes n bs f) := by
  unfold onBytes
  split
  · exact Decoded.encodes_error _
  next hn =>
    have htake : (bs.take n).length = n := by simpa using hn
    simpa only [List.take_append_drop] using (h (bs.take n) (bs.drop n) htake).read

theorem encodes_onWord {f : Word → List Byte → Decoded}
    (h : ∀ t r, Decoded.Encodes (before ++ wordBytes t) r (f t r)) : Decoded.Encodes before bs (onWord bs f) :=
  encodes_onBytes fun l r hl => by simpa only [wordBytes_wordOfBytes l hl] using h (wordOfBytes l) r

theorem encodes_onBlock {f : Block → List Byte → Decoded}
    (h : ∀ b r, Decoded.Encodes (before ++ blockBytes b) r (f b r)) : Decoded.Encodes before bs (onBlock bs f) :=
  encodes_onBytes fun l r hl => by simpa only [blockBytes_blockOfBytes l hl] using h (blockOfBytes l) r

theorem encodes_onCount {f : Nat → List Byte → Decoded}
    (h : ∀ n r, n < 2 ^ 64 → Decoded.Encodes (before ++ tobe n 8) r (f n r)) :
    Decoded.Encodes before bs (onCount bs f) :=
  encodes_onBytes fun l r hl => by
    have hcount := h (be l) r (by simpa [hl] using be_lt l)
    rwa [← hl, tobe_be] at hcount

theorem encodes_onBlocks {n : Nat} {f : List Block → List Byte → Decoded}
    (h : ∀ xs r, xs.length = n → Decoded.Encodes (before ++ xs.flatMap blockBytes) r (f xs r)) :
    Decoded.Encodes before bs (onBlocks n bs f) := by
  induction n generalizing before bs f with
  | zero => simpa [onBlocks] using h [] bs rfl
  | succ n ih =>
    refine encodes_onBlock fun b r => ih fun xs r' hx => ?_
    simpa using h (b :: xs) r' (by simp [hx])

/-- The operand of GCTR and GHASH: a count and as many blocks. -/
theorem encodes_onSequence {f : List Block → List Byte → Decoded}
    (h : ∀ xs r, xs.length < 2 ^ 64 → Decoded.Encodes (before ++ sequenceBytes xs) r (f xs r)) :
    Decoded.Encodes before bs (onCount bs fun n r => onBlocks n r f) :=
  encodes_onCount fun n r hn => encodes_onBlocks fun xs r' hx => by
    subst hx
    simpa only [sequenceBytes, List.append_assoc] using h xs r' hn

end Encodes

theorem byte_eq_ofNat {c : Byte} {n : Nat} (h : c.toNat = n) : c = BitVec.ofNat 8 n := by
  rw [← h, BitVec.ofNat_toNat, BitVec.setWidth_eq]

/-- Operation by operation of the table of R58. -/
theorem decodeUop_encodes (bs : List Byte) : Decoded.Encodes [] bs (decodeUop bs) := by
  unfold decodeUop
  split
  · exact Decoded.encodes_error _
  next c rest =>
  refine Decoded.Encodes.read (own := [c]) ?_
  split
  case h_25 => exact Decoded.encodes_error _
  all_goals
    rename_i hc
    obtain rfl := byte_eq_ofNat hc
  -- LDST, CIPHER
  case h_1 | h_11 => exact encodes_onBlock fun _ _ => Decoded.encodes_ok
  -- ARK
  case h_2 => exact encodes_onByte fun k _ => encodes_accept fun hk => Decoded.encodes_ok (by simp [encode]) hk
  -- ROTW, SUBW
  case h_7 | h_8 => exact encodes_onWord fun _ _ => Decoded.encodes_ok
  -- RCON
  case h_9 =>
    refine encodes_onByte fun k _ => encodes_accept fun hk => Decoded.encodes_ok (by simp [encode]) (decide_eq_true ?_)
    have hk : k.toNat ≤ 9 := of_decide_eq_true hk
    omega
  -- XOR128, GFMUL
  case h_14 | h_16 => exact encodes_onBlock fun _ _ => encodes_onBlock fun _ _ => Decoded.encodes_ok
  -- GFSTEP
  case h_15 =>
    refine encodes_onByte fun x _ => encodes_accept fun hx => Decoded.encodes_ok ?_
    obtain h | h := Nat.le_one_iff_eq_zero_or_eq_one.mp (of_decide_eq_true hx)
    · rw [byte_eq_ofNat h]
      rfl
    · rw [byte_eq_ofNat h]
      rfl
  -- LENBLK
  case h_17 =>
    exact encodes_onCount fun _ _ _ => encodes_onCount fun _ _ _ => encodes_accept fun h => Decoded.encodes_ok rfl h
  -- GCTR, GHASH
  case h_19 | h_20 => exact encodes_onSequence fun _ _ hx => Decoded.encodes_ok rfl (decide_eq_true hx)
  -- SBOX, XTIME, MUL3
  case h_22 | h_23 | h_24 => exact encodes_onByte fun _ _ => Decoded.encodes_ok
  -- the operations without operands
  all_goals exact Decoded.encodes_ok

/-! ## Codes without a meaning -/

/-- R46's words, and no others. -/
theorem decodeCommand_eq_ok_iff {w : Word} {i : Instr} :
    decodeCommand w = .ok i ↔ (w = 0 ∧ i = .nop) ∨ (w = 1 ∧ i = .encryptBlock) ∨ (w = 2 ∧ i = .sealMessage) := by
  refine ⟨decodeCommand_eq_ok, ?_⟩
  rintro (⟨rfl, rfl⟩ | ⟨rfl, rfl⟩ | ⟨rfl, rfl⟩) <;> rfl

/-- A reserved command word does not decode (R47). -/
theorem decodeCommand_reserved {w : Word} (h : opcField w = 3 ∨ zeroField w ≠ 0) : ∃ e, decodeCommand w = .error e := by
  cases hd : decodeCommand w with
  | error e => exact ⟨e, rfl⟩
  | ok i => rcases decodeCommand_eq_ok hd with ⟨rfl, -⟩ | ⟨rfl, -⟩ | ⟨rfl, -⟩ <;> exact absurd h (by decide)

/-- An operation code outside the table of R58 does not decode. -/
theorem decodeUop_unassigned {c : Byte} (bytes : List Byte)
    (hc : c.toNat ∉ [0x01, 0x02, 0x03, 0x04, 0x05, 0x06, 0x08, 0x09, 0x0a, 0x0b, 0x0c, 0x10, 0x11, 0x12, 0x13, 0x14,
      0x15, 0x16, 0x17, 0x18, 0x19, 0x20, 0x21, 0x22]) :
    decodeUop (c :: bytes) = .error .unassignedUop := by
  simp only [decodeUop]
  split
  case h_25 => rfl
  all_goals next hk => exact absurd (by rw [hk]; decide) hc

/-! ## The statements -/

/-- Settles O5, by the round trip of each instruction (`roundTrip`). -/
theorem decodeOfEncode : Obligations.DecodeOfEncode := by
  intro i hi
  refine ⟨decode_encode hi, fun bytes rest he => ?_⟩
  have hround := roundTrip i hi
  rw [he] at hround
  exact hround rest

/-- Settles O6: three words decode (`decodeCommand_eq_ok`), and the decoder of operations reads back what the encoder
writes (`decodeUop_encodes`). -/
theorem encodeOfDecode : Obligations.EncodeOfDecode := by
  refine ⟨fun w i hd => ?_, decodeUop_encodes⟩
  rcases decodeCommand_eq_ok hd with ⟨rfl, rfl⟩ | ⟨rfl, rfl⟩ | ⟨rfl, rfl⟩ <;> exact ⟨rfl, rfl⟩

/-- Settles O7, row by row. -/
theorem tableWordsDecode : Obligations.TableWordsDecode := by
  unfold Obligations.TableWordsDecode
  and_intros <;> rfl

/-- Settles O8: no other word decodes (`decodeCommand_eq_ok_iff`), and one with OPC = 3 is reserved. -/
theorem commandWords : Obligations.CommandWords := by
  refine fun w => ⟨by simp [decodeCommand_eq_ok_iff], by simp [decodeCommand_eq_ok_iff],
    by simp [decodeCommand_eq_ok_iff], fun h i hi => ?_⟩
  obtain ⟨e, he⟩ := decodeCommand_reserved (.inl h)
  cases he.symm.trans hi

/-- Settles O9: such a word does not decode (`decodeCommand_reserved`). -/
theorem reservedWordsRefused : Obligations.ReservedWordsRefused := by
  intro s w hb hw
  obtain ⟨e, he⟩ := decodeCommand_reserved hw
  constructor
  · rw [hostWrite_command _ hb, if_pos w.isLt, BitVec.ofNat_toNat, BitVec.setWidth_eq, issueCommand, he]
  · rw [runCommand, hb, he]
    rfl

/-- Settles O10: the decoder has no row for such a code (`decodeUop_unassigned`), and the operations check their
operands. -/
theorem unassignedCodesRefused : Obligations.UnassignedCodesRefused := by
  refine ⟨fun s c bytes rest ha hb hc => ?_, fun s r hr => if_neg (by omega), fun s k hk => if_neg (by omega),
    fun s a p h => if_neg (by omega)⟩
  have hstep : step s = runUop (c :: bytes) (s.withAgenda rest) := by rw [step, ha]; rfl
  rw [hstep, runUop, withAgenda_busy, hb, decodeUop_unassigned bytes hc]
  rfl

end Sys2Proof
end

section
/-! SUPPORT. The script of `encrypt_block` (R59, R60): its lines as steps of the machine, and what it returns. -/

namespace Sys2Proof.Machine

variable {s t : State} {rest : List Turn}

/-! ## What a reply leaves -/

@[simp] theorem reply_host (r : Reply) : (s.reply r).host = s.host := rfl
@[simp] theorem reply_MEM (r : Reply) : (s.reply r).MEM = s.MEM := rfl
@[simp] theorem reply_unseen (r : Reply) : (s.reply r).unseen = s.unseen := rfl
@[simp] theorem reply_agenda (r : Reply) : (s.reply r).agenda = s.agenda := rfl
@[simp] theorem reply_replies (r : Reply) : (s.reply r).replies = r :: s.replies := rfl
@[simp] theorem reply_busy (r : Reply) : (s.reply r).busy = s.busy := rfl
@[simp] theorem reply_isDone (r : Reply) : (s.reply r).isDone = s.isDone := rfl

/-! ## Lines of a script -/

theorem runSteps_host (n : Nat) {m : HostMove} (ha : s.agenda = .host m :: rest)
    (h : hostMove m (s.withAgenda rest) = .next t) : runSteps (n + 1) s = runSteps n t :=
  runSteps_succ n (by rw [step, ha]; exact h)

/-- A line that writes a block to a register. -/
theorem runSteps_writeBlock (n : Nat) {reg : Nat} {v : Block} (hb : s.busy = false)
    (hw : operandWidth s.plat reg = some 128) (ha : s.agenda = .host (.write reg v.toNat) :: rest) :
    runSteps (n + 1) s = runSteps n ((s.withAgenda rest).withHost (s.host.put reg v.toNat)) :=
  runSteps_host n ha ((hostWrite_operand (s := s.withAgenda rest) _ hb hw).trans (if_pos v.isLt))

/-- A line that issues a command whose checks pass. -/
theorem runSteps_issue (n : Nat) {c : Command} (hb : s.busy = false) (hc : c.check (s.withAgenda rest) = none)
    (ha : s.agenda = cmdLine c.word :: rest) : runSteps (n + 1) s = runSteps n (issue c (s.withAgenda rest)) :=
  runSteps_host n ha ((hostWrite_word (s := s.withAgenda rest) c hb).trans (by rw [hc]; rfl))

/-- While DONE is 0 the core takes its steps under a WAIT (log 15). -/
theorem runSteps_wait {m : Nat} (h : CoreRun m s t) (ha : s.agenda = .wait :: rest) (n : Nat) :
    runSteps (m + n) s = runSteps n t := by
  induction h with
  | refl s => rw [Nat.zero_add]
  | step _ hd hs _ ih =>
    rw [Nat.add_right_comm, runSteps_succ _ ?_, ih (by rw [coreStep_agenda hs, ha])]
    rw [step, ha, ← hs]
    exact if_neg (by rw [hd]; decide)

theorem readStatus_done (hb : s.busy = false) (hd : s.isDone = true) : s.readStatus.toNat = 2 := by
  rw [readStatus_toNat, ← State.busy, ← State.isDone, hb, hd]
  rfl

/-- The last poll of a WAIT returns DONE = 1 and shows the results (R59, R156). -/
theorem runSteps_poll (n : Nat) (hb : s.busy = false) (hd : s.isDone = true) (ha : s.agenda = .wait :: rest) :
    runSteps (n + 1) s = runSteps n (((s.withAgenda rest).withUnseen .nothing).reply (.reg 11 2)) := by
  refine runSteps_succ n ?_
  rw [step, ha]
  refine (if_pos hd).trans ?_
  rw [hostRead_status, readStatus_done (s := s.withAgenda rest) hb hd, State.afterRead, if_pos ⟨rfl, hd⟩]

/-- A line that reads a register of a value that has been shown. -/
theorem runSteps_read (n : Nat) {reg v : Nat} (hb : s.busy = false) (hr : reg ≠ 11)
    (hv : regValue reg s = some (some v)) (ha : s.agenda = .host (.read reg) :: rest) :
    runSteps (n + 1) s = runSteps n ((s.withAgenda rest).reply (.reg reg v)) := by
  refine runSteps_host n ha ((hostRead_idle (s := s.withAgenda rest) hb hv).trans ?_)
  rw [reading_some, State.afterRead, if_neg fun h => hr h.1]

/-! ## The script of `encrypt_block` -/

/-- The state once the host has written KEY and DIN. -/
def State.loaded (s : State) (key input : Block) (turns : List Turn) : State :=
  (s.withAgenda turns).withHost ((s.host.setKEY (.holding key)).setDIN (.holding input))

/-- The two lines that write the operands. -/
theorem runSteps_load (n : Nat) {key input : Block} (hb : s.busy = false)
    (ha : s.agenda = .host (.write 0 key.toNat) :: .host (.write 2 input.toNat) :: rest) :
    runSteps (n + 2) s = runSteps n (s.loaded key input rest) := by
  have hput (h : HostRegs) :
      (h.put 0 key.toNat).put 2 input.toNat = (h.setKEY (.holding key)).setDIN (.holding input) := by
    simp [HostRegs.put]
  calc
    runSteps (n + 2) s
    _ = _ := runSteps_writeBlock (n + 1) hb rfl ha
    _ = _ := runSteps_writeBlock n hb rfl rfl
    _ = _ := by rw [withHost_host, hput]; rfl

/-- What the host is left with once an ENCRYPT_BLOCK issued in `s` and the WAIT after it are over. -/
structure State.Encrypted (s t : State) (rest : List Turn) : Prop where
  agenda : t.agenda = rest
  replies : t.replies = .reg 11 2 :: s.replies
  host : t.host =
    { s.host with
      DOUT := .holding (cipherBlock (expandKey s.host.KEY.val) s.host.DIN.val), TAG := s.host.TAG.drop }
  mem : t.MEM = s.MEM
  busy : t.busy = false
  done : t.isDone = true
  unseen : t.unseen = .nothing

/-- The lines that issue ENCRYPT_BLOCK and wait for it: the core runs it while the host polls. -/
theorem runSteps_encrypt (n : Nat) (hb : s.busy = false)
    (hc : Command.encryptBlock.check (s.withAgenda (.wait :: rest)) = none)
    (ha : s.agenda = cmdLine Command.encryptBlock.word :: .wait :: rest) :
    ∃ t, runSteps (encryptSteps + (n + 1) + 1) s = runSteps n t ∧ s.Encrypted t rest := by
  have hrun := calc
    runSteps (encryptSteps + (n + 1) + 1) s
    _ = _ := runSteps_issue _ hb hc ha
    _ = _ := runSteps_wait (coreRun_encrypt (runEncrypt_eq rfl)) rfl (n + 1)
    _ = _ := runSteps_poll n (busy_complete _) (isDone_complete _) rfl
  exact ⟨_, hrun,
    { agenda := by simp
      replies := by simp [complete, issue]
      host := by simp [complete, issue, HostRegs.setDOUT, HostRegs.setTAG]
      mem := by simp [complete, issue]
      busy := by simp
      done := by simp
      unseen := by simp }⟩

/-- Settles O60, line by line: the operands are written, the command is issued, the core runs it while the host waits
and the last poll shows the result (`runSteps_encrypt`), and the host reads it. -/
theorem encryptScriptReturns : Obligations.EncryptScriptReturns := by
  intro s key input rest hb ha
  have hcheck : Command.encryptBlock.check (s.loaded key input (.wait :: .host (.read 3) :: rest)) = none :=
    encryptCheck_eq_none_iff.mpr ⟨hb, rfl, rfl⟩
  obtain ⟨t, ht, e⟩ := runSteps_encrypt 1 (s := s.loaded key input (cmdLine 1 :: .wait :: .host (.read 3) :: rest))
    hb hcheck rfl
  have hhost : t.host =
      { s.host with
        KEY := .holding key, DIN := .holding input, DOUT := .holding (cipherBlock (expandKey key) input)
        TAG := s.host.TAG.drop } := e.host
  have hread : regValue 3 t = some (some (cipherBlock (expandKey key) input).toNat) := by
    simp [regValue, State.shown, e.unseen, hhost, Unseen.nothing]
  have hrun := calc
    runSteps (encryptSteps + 5) s
    _ = _ := runSteps_load (encryptSteps + 3) hb ha
    _ = _ := ht
    _ = _ := runSteps_read 0 e.busy (by decide) hread e.agenda
  exact ⟨_, hrun, by simp [e.replies, State.loaded], by simp, by simp [hhost], by simp [hhost],
    by simp [e.mem, State.loaded], by simp [e.busy], by simp [e.done], by simp [e.unseen]⟩

end Sys2Proof.Machine
end

section
/-! SUPPORT. The byte functions of R65 to R67 in GF(2^8): doubling, products with 2 and 3, and the inverse and the
affine step behind the S-box. -/

namespace Sys2Proof.Machine

/-! ## XTIME and MUL3 (R66, R67) -/

/-- XTIME on unsigned values: twice the byte, with bit 8 replaced by 0x1b. -/
theorem xtimeByte_toNat (b : Byte) :
    (xtimeByte b).toNat = if b.toNat < 128 then 2 * b.toNat else (2 * b.toNat - 256) ^^^ 0x1b := by
  have hb := b.isLt
  have htop : b.getLsbD 7 = decide (128 ≤ b.toNat) := BitVec.msb_eq_decide b
  have hshift : (b <<< 1).toNat = 2 * b.toNat % 256 := by
    rw [BitVec.toNat_shiftLeft, Nat.shiftLeft_eq]
    omega
  rw [xtimeByte, BitVec.toNat_xor, htop, hshift]
  by_cases h : b.toNat < 128
  · rw [if_pos h, decide_eq_false (by omega), Nat.mod_eq_of_lt (by omega)]
    simp
  · rw [if_neg h, decide_eq_true (by omega), show 2 * b.toNat % 256 = 2 * b.toNat - 256 by omega]
    rfl

/-- Bit 0 of XTIME(b) is the bit that was shifted out. -/
theorem xtimeByte_getLsbD_zero (b : Byte) : (xtimeByte b).getLsbD 0 = b.getLsbD 7 := by
  rw [xtimeByte, BitVec.getLsbD_xor, BitVec.getLsbD_shiftLeft]
  cases b.getLsbD 7 <;> rfl

/-- XTIME(b) shows by its bit 0 whether it was reduced, and then the other bits. -/
theorem xtimeByte_injective : Function.Injective xtimeByte := by
  intro a b h
  have htop : a.getLsbD 7 = b.getLsbD 7 := by rw [← xtimeByte_getLsbD_zero, h, xtimeByte_getLsbD_zero]
  have hshift : a <<< 1 = b <<< 1 := by
    rw [xtimeByte, xtimeByte, htop] at h
    exact (BitVec.xor_left_inj _).mp h
  apply BitVec.eq_of_getElem_eq
  intro i hi
  rcases Nat.lt_or_eq_of_le (Nat.le_of_lt_succ hi) with hlow | rfl
  · simpa [show i + 1 < 8 by omega] using congrArg (·.getLsbD (i + 1)) hshift
  · exact htop

/-- The product with 2 is XTIME. -/
theorem byteMul_two (a : Byte) : byteMul a 2 = xtimeByte a := by
  simp [byteMul, List.range_succ]

/-- The product with 3 is MUL3. -/
theorem byteMul_three (a : Byte) : byteMul a 3 = mul3Byte a := by
  simp [byteMul, List.range_succ, mul3Byte, BitVec.xor_comm]

/-! ## The S-box (R65) -/

/-- The affine step of R65. -/
def sboxAffine (b : Byte) : Byte :=
  b ^^^ b.rotateLeft 1 ^^^ b.rotateLeft 2 ^^^ b.rotateLeft 3 ^^^ b.rotateLeft 4 ^^^ 0x63

/-- The affine step backwards. -/
def sboxAffineInv (b : Byte) : Byte := b.rotateLeft 1 ^^^ b.rotateLeft 3 ^^^ b.rotateLeft 6 ^^^ 0x05

/-- The byte that the affine step takes to SBOX(a). -/
def sboxInverse (a : Byte) : Byte := sboxAffineInv (sboxByte a)

theorem sboxAffine_sboxAffineInv : ∀ b, sboxAffine (sboxAffineInv b) = b := by decide

/-- The table is made of multiplicative inverses, 0 going with itself. -/
theorem byteMul_sboxInverse : ∀ a, a = 0 ∧ sboxInverse a = 0 ∨ byteMul a (sboxInverse a) = 1 := by decide

theorem sboxInverse_involutive : Function.Involutive sboxInverse := by
  unfold Function.Involutive
  decide

theorem sboxByte_eq_sboxAffine (a : Byte) : sboxByte a = sboxAffine (sboxInverse a) :=
  (sboxAffine_sboxAffineInv _).symm

/-- The affine step and the inverse, both undone, give the byte back. -/
theorem sboxByte_injective : Function.Injective sboxByte :=
  Function.LeftInverse.injective (g := fun b => sboxInverse (sboxAffineInv b)) sboxInverse_involutive

/-- The row is the upper half of the byte, the column the lower. -/
theorem sboxByte_append (hi lo : BitVec 4) :
    sboxByte (hi ++ lo) = byteAt (sboxRows.getD hi.toNat 0) lo.toNat := by
  have hrow : (hi ++ lo).extractLsb' 4 4 = hi := BitVec.extractLsb'_append_eq_left
  have hcol : (hi ++ lo).extractLsb' 0 4 = lo := BitVec.extractLsb'_append_eq_right
  rw [sboxByte, hrow, hcol]

theorem sboxByte_ne : ∀ a, sboxByte a ≠ a ∧ sboxByte a ≠ a ^^^ 0xff := by decide

/-! ## The statements -/

/-- Settles O12: the affine step undone leaves the inverse (`byteMul_sboxInverse`), and both can be undone
(`sboxByte_injective`). -/
theorem sboxResult : Obligations.SboxResult :=
  ⟨fun _ _ => rfl, sboxByte_append, rfl,
    fun a => ⟨sboxInverse a, byteMul_sboxInverse a, sboxByte_eq_sboxAffine a⟩,
    Finite.injective_iff_bijective.mp sboxByte_injective, sboxByte_ne⟩

/-- Settles O13: XTIME by its value (`xtimeByte_toNat`), and as a bijection because it is injective on finitely many
bytes. -/
theorem xtimeMul3Results : Obligations.XtimeMul3Results :=
  ⟨xtimeByte_toNat, Finite.injective_iff_bijective.mp xtimeByte_injective, fun _ _ => ⟨rfl, rfl⟩⟩

end Sys2Proof.Machine
end

section
/-! SUPPORT. The State byte by byte: what its load, its store and the round operations put at `S[r][c]` (R68 to R73). -/

namespace Sys2Proof.Machine

variable {m : Matrix} {r c : Nat}

/-! ## The State as its bytes -/

theorem matrixAt_matrixOf (f : Nat → Nat → Byte) (hr : r < 4) (hc : c < 4) : matrixAt (matrixOf f) r c = f r c := by
  interval_cases r <;> interval_cases c <;> rfl

theorem matrixOf_matrixAt (m : Matrix) : matrixOf (matrixAt m) = m := rfl

/-- States with equal bytes are equal. -/
theorem matrix_ext {a b : Matrix} (h : ∀ r < 4, ∀ c < 4, matrixAt a r c = matrixAt b r c) : a = b := by
  rw [← matrixOf_matrixAt a, ← matrixOf_matrixAt b]
  simp (disch := decide) only [matrixOf, rowOf, h]

/-! ## Load and store (R68, R73) -/

theorem matrixAt_loadState (b : Block) (hr : r < 4) (hc : c < 4) : matrixAt (loadState b) r c = byteAt b (4 * c + r) :=
  matrixAt_matrixOf _ hr hc

theorem byteAt_storeState (m : Matrix) {i : Nat} (hi : i < 16) :
    byteAt (storeState m) i = matrixAt m (i % 4) (i / 4) := byteAt_blockOf _ i hi

/-- Byte `4c + r` of the block lies at `S[r][c]`. -/
theorem byteAt_storeState_column (m : Matrix) (hr : r < 4) (hc : c < 4) :
    byteAt (storeState m) (4 * c + r) = matrixAt m r c := by
  rw [byteAt_storeState m (by omega), show (4 * c + r) % 4 = r by omega, show (4 * c + r) / 4 = c by omega]

/-- Byte `i` of the block lies at `S[i mod 4][i div 4]`. -/
theorem matrixAt_loadState_position (b : Block) {i : Nat} (hi : i < 16) :
    matrixAt (loadState b) (i % 4) (i / 4) = byteAt b i := by
  rw [matrixAt_loadState b (by omega) (by omega), Nat.div_add_mod]

@[simp] theorem storeState_loadState (b : Block) : storeState (loadState b) = b :=
  block_ext fun i hi => by rw [byteAt_storeState _ hi, matrixAt_loadState_position b hi]

/-! ## ARK (R69) -/

theorem matrixAt_addRoundKey (k : Block) (m : Matrix) (hr : r < 4) (hc : c < 4) :
    matrixAt (addRoundKey k m) r c = matrixAt m r c ^^^ byteAt k (4 * c + r) := matrixAt_matrixOf _ hr hc

/-- ARK with the same key twice leaves the State as it was. -/
@[simp] theorem addRoundKey_addRoundKey (k : Block) (m : Matrix) : addRoundKey k (addRoundKey k m) = m :=
  matrix_ext fun r hr c hc => by
    simp [matrixAt_addRoundKey _ _ hr hc]

/-- A round key of zero bytes leaves the State as it was. -/
theorem addRoundKey_of_zero {k : Block} (h : ∀ j < 16, byteAt k j = 0) (m : Matrix) : addRoundKey k m = m :=
  matrix_ext fun r hr c hc => by simp [matrixAt_addRoundKey _ _ hr hc, h (4 * c + r) (by omega)]

/-- Byte `j` of round key `n` is byte `16n + j` of the schedule (R50). -/
theorem scheduleByte_roundKey (rk : Schedule) (n : Nat) {j : Nat} (hj : j < 16) :
    scheduleByte rk (16 * n + j) = byteAt (roundKey rk n) j := by
  rw [scheduleByte, show (16 * n + j) / 16 = n by omega, show (16 * n + j) % 16 = j by omega]

/-! ## SUBB (R70) -/

theorem matrixAt_subBytes (m : Matrix) (hr : r < 4) (hc : c < 4) :
    matrixAt (subBytes m) r c = sboxByte (matrixAt m r c) := matrixAt_matrixOf _ hr hc

/-! ## SHROW (R71) -/

theorem matrixAt_shiftRows (m : Matrix) (hr : r < 4) (hc : c < 4) :
    matrixAt (shiftRows m) r c = matrixAt m r ((c + r) % 4) := matrixAt_matrixOf _ hr hc

/-- Four rotations of row `r` by `r` places are one by `4r` places. -/
theorem shiftRows_four (m : Matrix) : shiftRows (shiftRows (shiftRows (shiftRows m))) = m :=
  matrix_ext fun r hr c hc => by
    have hmod (n : Nat) : n % 4 < 4 := Nat.mod_lt n (by decide)
    rw [matrixAt_shiftRows _ hr hc, matrixAt_shiftRows _ hr (hmod _), matrixAt_shiftRows _ hr (hmod _),
      matrixAt_shiftRows _ hr (hmod _)]
    congr 1
    omega

/-- Rows of four equal bytes are not changed by rotation. -/
theorem shiftRows_of_equal_columns (h : ∀ r < 4, ∀ c < 4, matrixAt m r c = matrixAt m r 0) : shiftRows m = m :=
  matrix_ext fun r hr c hc => by rw [matrixAt_shiftRows m hr hc, h r hr _ (by omega), h r hr c hc]

/-! ## MIXC (R72) -/

theorem matrixAt_mixColumns (m : Matrix) (hr : r < 4) (hc : c < 4) :
    matrixAt (mixColumns m) r c =
      mixColumn (matrixAt m 0 c) (matrixAt m 1 c) (matrixAt m 2 c) (matrixAt m 3 c) r := matrixAt_matrixOf _ hr hc

/-- The coefficients of each row add up to 1, so equal bytes stay. -/
theorem mixColumn_equal (a : Byte) (k : Nat) : mixColumn a a a a k = a := by
  unfold mixColumn mul3Byte
  split <;> simp [BitVec.xor_comm (xtimeByte a)]

theorem mixColumns_equal_column (hc : c < 4) (h : ∀ r < 4, matrixAt m r c = matrixAt m 0 c) (hr : r < 4) :
    matrixAt (mixColumns m) r c = matrixAt m r c := by
  rw [matrixAt_mixColumns m hr hc, h 1 (by decide), h 2 (by decide), h 3 (by decide), mixColumn_equal, h r hr]

end Sys2Proof.Machine
end

section
/-! SUPPORT. The instructions on the State, LDST to STST (R68 to R73): each as the function of S that it is. -/

namespace Sys2Proof.Machine

/-! ## One equation per instruction -/

theorem exec_ldst (b : Block) (s : State) : exec (.ldst b) s = .next (s.withDp (s.dp.setS (.holding (loadState b)))) :=
  opLdst_eq b s

theorem exec_stst (s : State) : exec .stst s = .next (s.deliver (.block (storeState s.dp.S.val))) := opStst_eq s

theorem exec_ark {r : Nat} (hr : r ≤ 10) (s : State) :
    exec (.ark r) s = .next (s.withDp (s.dp.setS (.holding (addRoundKey (roundKey s.dp.RK.val r) s.dp.S.val)))) :=
  opArk_eq hr s

theorem exec_subb (s : State) : exec .subb s = .next (s.withDp (s.dp.setS (.holding (subBytes s.dp.S.val)))) :=
  onState_eq subBytes s

theorem exec_shrow (s : State) : exec .shrow s = .next (s.withDp (s.dp.setS (.holding (shiftRows s.dp.S.val)))) :=
  onState_eq shiftRows s

theorem exec_mixc (s : State) : exec .mixc s = .next (s.withDp (s.dp.setS (.holding (mixColumns s.dp.S.val)))) :=
  onState_eq mixColumns s

@[simp] theorem execAll_nil (s : State) : execAll [] s = .next s := rfl

theorem execAll_cons (i : Instr) (is : List Instr) (s : State) :
    execAll (i :: is) s = andThen (exec i s) (execAll is) := rfl

/-! ## The statements -/

/-- Settles O14, byte by byte, and by `storeState_loadState`. -/
theorem stateLoadAndStore : Obligations.StateLoadAndStore := by
  refine ⟨fun s b => ⟨loadState b, exec_ldst b s, fun i hi => matrixAt_loadState_position b hi⟩,
    fun s m hS => ⟨storeState m, ?_, fun i hi => byteAt_storeState m hi⟩, fun s b => ?_⟩
  · rw [exec_stst, hS, Reg.holding_val]
    rfl
  · have hexec : execAll [.ldst b, .stst] s
        = .next ((s.withDp (s.dp.setS (.holding (loadState b)))).deliver (.block b)) := by
      simp [execAll_cons, exec_ldst, exec_stst]
    exact ⟨_, hexec, deliver_out _ _⟩

/-- Settles O15, byte by byte; the key is XORed away (`addRoundKey_addRoundKey`) or is zero (`addRoundKey_of_zero`). -/
theorem addRoundKeyResult : Obligations.AddRoundKeyResult := by
  intro s m rk r hr hS hRK
  have hexec : exec (.ark r) s = .next (s.withDp (s.dp.setS (.holding (addRoundKey (roundKey rk r) m)))) := by
    rw [exec_ark hr, hS, hRK, Reg.holding_val, Reg.holding_val]
  refine ⟨⟨_, hexec, fun j hj => ?_⟩, ?_, fun h => ?_⟩
  · rw [matrixAt_addRoundKey _ _ (by omega) (by omega), Nat.div_add_mod, scheduleByte_roundKey rk r hj]
  · simp [execAll_cons, hexec, exec_ark hr, hRK, setS_of_eq hS]
  · rw [hexec, addRoundKey_of_zero (fun j hj => by rw [← scheduleByte_roundKey rk r hj, h j hj]), setS_of_eq hS]

/-- Settles O16, byte by byte. -/
theorem subBytesResult : Obligations.SubBytesResult := by
  intro s m hS
  refine ⟨subBytes m, ?_, fun r hr c hc => matrixAt_subBytes m hr hc, fun h r hr c hc => ?_⟩
  · rw [exec_subb, hS, Reg.holding_val]
    rfl
  · rw [matrixAt_subBytes m hr hc, h r hr c hc]
    decide

/-- Settles O17, byte by byte; four rotations by `shiftRows_four`, equal columns by `shiftRows_of_equal_columns`. -/
theorem shiftRowsResult : Obligations.ShiftRowsResult := by
  intro s m hS
  have hexec : exec .shrow s = .next (s.withDp (s.dp.setS (.holding (shiftRows m)))) := by
    rw [exec_shrow, hS, Reg.holding_val]
  refine ⟨⟨_, hexec, fun r hr c hc => matrixAt_shiftRows m hr hc, fun r hr c hc => ?_⟩, ?_, fun h => ?_⟩
  · rw [byteAt_storeState_column _ hr hc, matrixAt_shiftRows m hr hc, byteAt_storeState_column m hr (by omega)]
  · simp [execAll_cons, hexec, exec_shrow, shiftRows_four, setS_of_eq hS]
  · rw [hexec, shiftRows_of_equal_columns h, setS_of_eq hS]

/-- Settles O18, row by row of the matrix, its coefficients 2 and 3 being XTIME and MUL3 (`byteMul_two`,
`byteMul_three`). -/
theorem mixColumnsResult : Obligations.MixColumnsResult := by
  intro s m hS
  refine ⟨mixColumns m, ?_, fun c hc => ?_⟩
  · rw [exec_mixc, hS, Reg.holding_val]
    rfl
  have hrow (r : Nat) (hr : r < 4) := matrixAt_mixColumns m hr hc
  simp only [byteMul_two, byteMul_three]
  exact ⟨hrow 0 (by decide), hrow 1 (by decide), hrow 2 (by decide), hrow 3 (by decide),
    fun h r hr => mixColumns_equal_column hc h hr⟩

end Sys2Proof.Machine
end

section
/-! SUPPORT. The key schedule (R80 to R83): the word functions byte by byte, the round constants, and the words of the
schedule that KEXP makes. -/

namespace Sys2Proof.Machine

/-! ## Word functions and round constants (R80, R81, R82) -/

theorem wordByte_rotWord (t : Word) {i : Nat} (hi : i < 4) : wordByte (rotWord t) i = wordByte t ((i + 1) % 4) := by
  rw [rotWord, wordByte_wordOf _ _ _ _ i hi]
  interval_cases i <;> rfl

theorem wordByte_subWord (t : Word) {i : Nat} (hi : i < 4) : wordByte (subWord t) i = sboxByte (wordByte t i) := by
  rw [subWord, wordByte_wordOf _ _ _ _ i hi]
  interval_cases i <;> rfl

theorem roundConstant_succ {k : Nat} (hk : 1 ≤ k) : roundConstant (k + 1) = xtimeByte (roundConstant k) := by
  obtain ⟨n, rfl⟩ := Nat.exists_eq_add_of_le' hk
  rfl

/-- The ten round constants (R82). -/
theorem roundConstant_table {k : Nat} (hlow : 1 ≤ k) (hhigh : k ≤ 10) :
    roundConstant k = [0x01, 0x02, 0x04, 0x08, 0x10, 0x20, 0x40, 0x80, 0x1b, 0x36].getD (k - 1) 0 := by
  interval_cases k <;> decide

/-! ## Round keys as their words (R83) -/

/-- Word `j` of round key `k` is word `4k + j` of the schedule (R50). -/
theorem scheduleWord_roundKey (rk : Schedule) (k : Nat) {j : Nat} (hj : j < 4) :
    scheduleWord rk (4 * k + j) = wordAt (roundKey rk k) j := by
  have hbyte (i : Nat) (hi : i < 4) :
      scheduleByte rk (4 * (4 * k + j) + i) = wordByte (wordAt (roundKey rk k) j) i := by
    rw [show 4 * (4 * k + j) + i = 16 * k + (4 * j + i) by omega, scheduleByte_roundKey rk k (by omega),
      byteAt_eq_wordByte _ _ (by omega), show (4 * j + i) / 4 = j by omega, show (4 * j + i) % 4 = i by omega]
  refine word_ext fun i hi => ?_
  rw [scheduleWord, wordByte_wordOf _ _ _ _ i hi, ← hbyte i hi]
  interval_cases i <;> rfl

/-- The first word of a round key comes from the boundary word. -/
theorem wordAt_nextRoundKey_zero (k : Nat) (b : Block) :
    wordAt (nextRoundKey k b) 0 = wordAt b 0 ^^^ boundaryWord k (wordAt b 3) := wordAt_blockOfWords_0 _ _ _ _

/-- Every other word of a round key comes from the word before it, as it is. -/
theorem wordAt_nextRoundKey_succ (k : Nat) (b : Block) {j : Nat} (hj : j < 3) :
    wordAt (nextRoundKey k b) (j + 1) = wordAt b (j + 1) ^^^ wordAt (nextRoundKey k b) j := by
  interval_cases j <;> simp [nextRoundKey]

theorem roundKey_expandKey_zero (key : Block) : roundKey (expandKey key) 0 = key := rfl

theorem roundKey_expandKey_succ (key : Block) {k : Nat} (hk : k < 10) :
    roundKey (expandKey key) (k + 1) = nextRoundKey (k + 1) (roundKey (expandKey key) k) := by
  interval_cases k <;> rfl

/-! ## The recurrence of the schedule (R83) -/

/-- A boundary word of the schedule. -/
theorem scheduleWord_boundary (key : Block) {k : Nat} (hk : k < 10) :
    scheduleWord (expandKey key) (4 * (k + 1)) =
      scheduleWord (expandKey key) (4 * k) ^^^ boundaryWord (k + 1) (scheduleWord (expandKey key) (4 * k + 3)) := by
  have hfirst (r : Nat) : scheduleWord (expandKey key) (4 * r) = wordAt (roundKey (expandKey key) r) 0 :=
    scheduleWord_roundKey (expandKey key) r (j := 0) (by decide)
  rw [hfirst, hfirst, scheduleWord_roundKey _ _ (by decide), roundKey_expandKey_succ key hk, wordAt_nextRoundKey_zero]

/-- A word of the schedule that is not a boundary word. -/
theorem scheduleWord_inner (key : Block) {k j : Nat} (hk : k < 10) (hj : j < 3) :
    scheduleWord (expandKey key) (4 * (k + 1) + (j + 1)) =
      scheduleWord (expandKey key) (4 * k + (j + 1)) ^^^ scheduleWord (expandKey key) (4 * (k + 1) + j) := by
  rw [scheduleWord_roundKey _ _ (by omega), scheduleWord_roundKey _ _ (by omega), scheduleWord_roundKey _ _ (by omega),
    roundKey_expandKey_succ key hk, wordAt_nextRoundKey_succ _ _ hj]

/-! ## The instructions -/

theorem exec_rotw (t : Word) (s : State) : exec (.rotw t) s = .next (s.deliver (.word (rotWord t))) := rfl

theorem exec_subw (t : Word) (s : State) : exec (.subw t) s = .next (s.deliver (.word (subWord t))) := rfl

theorem exec_rcon {k : Nat} (hlow : 1 ≤ k) (hhigh : k ≤ 10) (s : State) :
    exec (.rcon k) s = .next (s.deliver (.byte (roundConstant k))) := if_pos ⟨hlow, hhigh⟩

theorem exec_kexp (s : State) : exec .kexp s = .next (s.withDp (s.dp.setRK (.holding (expandKey s.host.KEY.val)))) :=
  opKexp_eq s

/-! ## The statements -/

/-- Settles O19: ROTW and SUBW byte by byte, RCON by its table and its recurrence. -/
theorem wordOperationResults : Obligations.WordOperationResults :=
  ⟨fun s t => ⟨rotWord t, exec_rotw t s, fun _ hi => wordByte_rotWord t hi⟩,
    fun s t => ⟨subWord t, exec_subw t s, fun _ hi => wordByte_subWord t hi⟩,
    fun s _ hlow hhigh => ⟨exec_rcon hlow hhigh s, roundConstant_table hlow hhigh⟩,
    fun _ hk => roundConstant_succ hk⟩

/-- Settles O20: word `n` is word `j` of round key `k + 1`, a boundary word (`scheduleWord_boundary`) when `j` is 0
and not one (`scheduleWord_inner`) otherwise. -/
theorem keyExpansionResult : Obligations.KeyExpansionResult := by
  intro s key hKEY
  refine ⟨?_, fun i hi => ?_, fun n hlow hhigh => ?_⟩
  · rw [exec_kexp, hKEY, Reg.holding_val]
    rfl
  · simpa [roundKey_expandKey_zero] using scheduleByte_roundKey (expandKey key) 0 hi
  obtain ⟨k, j, hj, rfl⟩ : ∃ k j, j < 4 ∧ n = 4 * (k + 1) + j := ⟨n / 4 - 1, n % 4, by omega, by omega⟩
  have hk : k < 10 := by omega
  rw [show 4 * (k + 1) + j - 4 = 4 * k + j by omega]
  cases j with
  | zero =>
    rw [Nat.add_zero, Nat.add_zero, if_pos (by omega), show 4 * (k + 1) - 1 = 4 * k + 3 by omega,
      show 4 * (k + 1) / 4 = k + 1 by omega]
    exact scheduleWord_boundary key hk
  | succ j =>
    rw [if_neg (by omega)]
    exact scheduleWord_inner key hk (by omega)

end Sys2Proof.Machine
end

section
/-! SUPPORT. CIPHER as a function of its block (R90): every operation of its rounds can be undone, MIXC because four of
them in a row leave the State as it was. -/

namespace Sys2Proof.Machine

variable {r c : Nat}

/-! ## XTIME over sums of bytes -/

/-- XTIME is linear: both the shift and the conditional mask of R66 are. -/
theorem xtimeByte_xor (a b : Byte) : xtimeByte (a ^^^ b) = xtimeByte a ^^^ xtimeByte b := by
  have hmask : (if (a ^^^ b).getLsbD 7 then 0x1b else 0x00 : Byte)
      = (if a.getLsbD 7 then 0x1b else 0x00) ^^^ (if b.getLsbD 7 then 0x1b else 0x00) := by
    rw [BitVec.getLsbD_xor]
    cases a.getLsbD 7 <;> cases b.getLsbD 7 <;> rfl
  rw [xtimeByte, hmask, BitVec.shiftLeft_xor_distrib, xtimeByte, xtimeByte]
  ac_rfl

theorem byte_xor_left_comm (a b c : Byte) : a ^^^ (b ^^^ c) = b ^^^ (a ^^^ c) := by ac_rfl

/-! ## Powers of MIXC (R72) -/

/-- The sum of the four bytes of a column. -/
def columnSum (m : Matrix) (c : Nat) : Byte := matrixAt m 0 c ^^^ matrixAt m 1 c ^^^ matrixAt m 2 c ^^^ matrixAt m 3 c

/-- MIXC adds to each byte the sum of its column, and XTIME of its sum with the byte below it. -/
theorem matrixAt_mixColumns_eq_sum (m : Matrix) (hr : r < 4) (hc : c < 4) :
    matrixAt (mixColumns m) r c
      = matrixAt m r c ^^^ columnSum m c ^^^ xtimeByte (matrixAt m r c ^^^ matrixAt m ((r + 1) % 4) c) := by
  rw [matrixAt_mixColumns m hr hc]
  interval_cases r <;>
    simp [mixColumn, mul3Byte, columnSum, xtimeByte_xor, BitVec.xor_assoc, BitVec.xor_comm, byte_xor_left_comm]

/-- The coefficients of each column of the matrix add up to 1. -/
theorem columnSum_mixColumns (m : Matrix) (hc : c < 4) : columnSum (mixColumns m) c = columnSum m c := by
  have hrow (k : Nat) (hk : k < 4) := matrixAt_mixColumns m hk hc
  rw [columnSum, hrow 0 (by decide), hrow 1 (by decide), hrow 2 (by decide), hrow 3 (by decide)]
  simp [mixColumn, mul3Byte, columnSum, BitVec.xor_assoc, BitVec.xor_comm, byte_xor_left_comm]

/-- Two MIXC add to each byte four times its sum with the byte two rows from it. -/
theorem matrixAt_mixColumns_twice (m : Matrix) (hr : r < 4) (hc : c < 4) :
    matrixAt (mixColumns (mixColumns m)) r c
      = matrixAt m r c ^^^ xtimeByte (xtimeByte (matrixAt m r c ^^^ matrixAt m ((r + 2) % 4) c)) := by
  have hbelow : (r + 1) % 4 < 4 := Nat.mod_lt _ (by decide)
  have hnext : ((r + 1) % 4 + 1) % 4 = (r + 2) % 4 := by omega
  rw [matrixAt_mixColumns_eq_sum _ hr hc, columnSum_mixColumns m hc, matrixAt_mixColumns_eq_sum m hr hc,
    matrixAt_mixColumns_eq_sum m hbelow hc, hnext]
  simp [xtimeByte_xor, BitVec.xor_assoc, BitVec.xor_comm, byte_xor_left_comm]

/-- Two MIXC keep the sum of two bytes two rows apart, so two more add the same again. -/
theorem mixColumns_four (m : Matrix) : mixColumns (mixColumns (mixColumns (mixColumns m))) = m :=
  matrix_ext fun r hr c hc => by
    have hpair : (r + 2) % 4 < 4 := Nat.mod_lt _ (by decide)
    have hback : ((r + 2) % 4 + 2) % 4 = r := by omega
    rw [matrixAt_mixColumns_twice _ hr hc, matrixAt_mixColumns_twice m hr hc, matrixAt_mixColumns_twice m hpair hc,
      hback]
    simp [xtimeByte_xor, BitVec.xor_assoc, BitVec.xor_comm]

/-! ## Every operation is injective -/

theorem loadState_storeState (m : Matrix) : loadState (storeState m) = m :=
  matrix_ext fun r hr c hc => by rw [matrixAt_loadState _ hr hc, byteAt_storeState_column m hr hc]

theorem loadState_injective : Function.Injective loadState := Function.LeftInverse.injective storeState_loadState

theorem storeState_injective : Function.Injective storeState := Function.LeftInverse.injective loadState_storeState

theorem addRoundKey_injective (k : Block) : Function.Injective (addRoundKey k) :=
  Function.LeftInverse.injective (addRoundKey_addRoundKey k)

theorem subBytes_injective : Function.Injective subBytes := fun a b h =>
  matrix_ext fun r hr c hc => sboxByte_injective <| by
    rw [← matrixAt_subBytes a hr hc, h, matrixAt_subBytes b hr hc]

theorem shiftRows_injective : Function.Injective shiftRows := fun a b h => by
  rw [← shiftRows_four a, h, shiftRows_four]

theorem mixColumns_injective : Function.Injective mixColumns := fun a b h => by
  rw [← mixColumns_four a, h, mixColumns_four]

theorem middleRound_injective (rk : Schedule) (r : Nat) : Function.Injective (middleRound rk · r) :=
  (addRoundKey_injective _).comp (mixColumns_injective.comp (shiftRows_injective.comp subBytes_injective))

theorem middleRounds_injective (rk : Schedule) (rs : List Nat) : Function.Injective (rs.foldl (middleRound rk) ·) := by
  induction rs with
  | nil => exact Function.injective_id
  | cons r rs ih => exact ih.comp (middleRound_injective rk r)

theorem cipherState_injective (rk : Schedule) : Function.Injective (cipherState rk) := fun a b h => by
  have hrounds := subBytes_injective (shiftRows_injective (addRoundKey_injective _ h))
  exact loadState_injective (addRoundKey_injective _ (middleRounds_injective rk _ hrounds))

/-! ## The statement -/

/-- Settles O22: CIPHER is injective, operation by operation (`cipherState_injective`), and there are finitely many
blocks. -/
theorem cipherIsBijective : Obligations.CipherIsBijective := fun rk =>
  Finite.injective_iff_bijective.mp (storeState_injective.comp (cipherState_injective rk))

end Sys2Proof.Machine
end

section
/-! SUPPORT. The instruction CIPHER and the instructions that make it up (R90). -/

namespace Sys2Proof.Machine

theorem exec_cipher (b : Block) (s : State) :
    exec (.cipher b) s = .next ((s.withDp (s.dp.setS (.holding (cipherState s.dp.RK.val b)))).deliver
      (.block (cipherBlock s.dp.RK.val b))) := opCipher_eq b s

theorem execAll_append (xs ys : List Instr) (s : State) :
    execAll (xs ++ ys) s = andThen (execAll xs s) (execAll ys) := by
  induction xs generalizing s with
  | nil => rfl
  | cons x xs ih =>
    rw [List.cons_append, execAll_cons, execAll_cons, andThen_assoc]
    exact andThen_congr ih

/-- The instructions of rounds with MIXC do what the sequencer's micro-operations of these rounds do. -/
theorem execAll_middleRounds (rs : List Nat) (s : State) :
    execAll (rs.flatMap fun r => [.subb, .shrow, .mixc, .ark r]) s = runItems 0 (rs.flatMap middleRoundItems) s := by
  induction rs generalizing s with
  | nil => rfl
  | cons r rs ih =>
    rw [List.flatMap_cons, List.flatMap_cons, execAll_append, runItems_append, andThen_congr ih]
    rfl

/-- Round 10, without MIXC, and the block out. -/
theorem execAll_lastRound (s : State) :
    execAll [.subb, .shrow, .ark 10, .stst] s = .next
      ((s.withDp (s.dp.setS
        (.holding (addRoundKey (roundKey s.dp.RK.val 10) (shiftRows (subBytes s.dp.S.val)))))).deliver
          (.block (storeState (addRoundKey (roundKey s.dp.RK.val 10) (shiftRows (subBytes s.dp.S.val)))))) := by
  rw [execAll_cons, exec_subb, andThen_next, execAll_cons, exec_shrow, andThen_next, execAll_cons,
    exec_ark (by decide), andThen_next, execAll_cons, exec_stst, andThen_next, execAll_nil]
  simp only [withDp_dp, withDp_withDp, Datapath.setS_S, Datapath.setS_setS, Datapath.setS_RK, Reg.holding_val]

/-- The 42 instructions of R90 are CIPHER. -/
theorem execAll_cipherProgram (b : Block) (s : State) : execAll (cipherProgram b) s = exec (.cipher b) s := by
  have hrounds : ∀ r ∈ List.range' 1 9, r ≤ 10 := by decide
  have hfirst : execAll [.ldst b, .ark 0] s
      = .next (s.withDp (s.dp.setS (.holding (addRoundKey (roundKey s.dp.RK.val 0) (loadState b))))) := by
    simp [execAll_cons, exec_ldst, exec_ark]
  rw [cipherProgram, execAll_append, execAll_append, hfirst, andThen_next, execAll_middleRounds,
    runItems_rounds 0 hrounds rfl, andThen_next, execAll_lastRound, exec_cipher, cipherBlock, cipherState]
  simp only [withDp_dp, withDp_withDp, Datapath.setS_S, Datapath.setS_setS, Datapath.setS_RK, Reg.holding_val]

/-! ## The statement -/

/-- Settles O21: load and round 0, rounds 1 to 9, round 10 and store (`execAll_cipherProgram`); the block comes from the
schedule and the input only (`exec_cipher`). -/
theorem cipherIsItsMicroOperations : Obligations.CipherIsItsMicroOperations := by
  intro s b rk hRK
  refine ⟨rfl, execAll_cipherProgram b s, cipherState rk b, ?_⟩
  rw [exec_cipher, hRK, Reg.holding_val]
  rfl

end Sys2Proof.Machine
end

section
/-! SUPPORT. The command ENCRYPT_BLOCK as an instruction (R92): refused by its check, or issued and completed. -/

namespace Sys2Proof.Machine

variable {s : State}

theorem encryptCheck_busy (hb : s.busy = true) : encryptCheck s = some .rfBusy := if_pos hb

theorem exec_encryptBlock_refused {reason : Refusal} (h : encryptCheck s = some reason) :
    exec .encryptBlock s = .refused reason := by
  show execEncryptBlock s = _
  rw [execEncryptBlock, h]

theorem exec_encryptBlock_completes (h : encryptCheck s = none) :
    exec .encryptBlock s = .next (complete ((issue .encryptBlock s).withHost
      ((issue .encryptBlock s).host.setDOUT (.holding (cipherBlock (expandKey s.host.KEY.val) s.host.DIN.val))))) :=
  (execEncryptBlock_eq h).trans (runEncrypt_eq rfl)

/-- STATUS after a whole command: BUSY 0, DONE 1, the reserved bits as they were (R21). -/
theorem statusAtCompletion_statusAtIssue (w : Word) :
    statusAtCompletion (statusAtIssue w) = (w &&& ~~~3#32) ||| 2#32 := by
  apply BitVec.eq_of_getLsbD_eq
  intro i hi
  interval_cases i <;> simp [statusAtCompletion, statusAtIssue]

/-! ## The statement -/

/-- Settles O23: BUSY is checked first, a missing operand is refused as O58 says (`noValueIsRefused`), an accepted CMD
write is the issue of O48 (`commandWriteIssues`), and the whole command completes (`exec_encryptBlock_completes`). -/
theorem encryptBlockResult : Obligations.EncryptBlockResult := by
  obtain ⟨-, -, hnoValue, -⟩ := noValueIsRefused
  obtain ⟨-, hissue⟩ := commandWriteIssues
  refine ⟨fun s hb => ⟨exec_encryptBlock_refused (encryptCheck_busy hb), hostWrite_busy 10 1 hb⟩, hnoValue,
    fun s key d hb hKEY hDIN => ?_⟩
  have hkey : s.host.KEY.held = true := by rw [hKEY, Reg.holding_held]
  have hdin : s.host.DIN.held = true := by rw [hDIN, Reg.holding_held]
  constructor
  · obtain ⟨q, x, y, hwrite, hop, hphase⟩ := hissue s 1 .encryptBlock hb (.inl ⟨rfl, rfl, hkey, hdin⟩)
    exact ⟨q, x, y, hop, hphase, hwrite⟩
  · refine ⟨s.host.TAG.val, .leftBy s.drawn, s.drawn + 1, rfl, ?_⟩
    rw [exec_encryptBlock_completes (encryptCheck_eq_none_iff.mpr ⟨hb, hkey, hdin⟩), hKEY, hDIN,
      ← statusAtCompletion_statusAtIssue]
    rfl

end Sys2Proof.Machine
end

section
/-! SUPPORT. Big-endian bytes and values of words and blocks (R8), and the counter block field by field (R51, R100,
R101). -/

namespace Sys2Proof.Machine

/-! ## Big-endian values -/

/-- The bytes of a number put together from two are the bytes of both. -/
theorem tobe_append (v w m n : Nat) (hw : w < 256 ^ n) : tobe (v * 256 ^ n + w) (m + n) = tobe v m ++ tobe w n := by
  induction m with
  | zero => rw [Nat.zero_add, tobe_mul_add, tobe, List.nil_append]
  | succ m ih =>
    have htop : (v * 256 ^ n + w) / 256 ^ (m + n) = v / 256 ^ m := by
      rw [pow_add, Nat.mul_comm (256 ^ m), ← Nat.div_div_eq_div_mul, Nat.mul_comm v, Nat.mul_add_div (by positivity),
        Nat.div_eq_of_lt hw, Nat.add_zero]
    rw [Nat.add_right_comm, tobe, htop, ih, tobe, List.cons_append]

/-- The bytes of a word are those of its value, the most significant first. -/
theorem wordBytes_eq_tobe (t : Word) : wordBytes t = tobe t.toNat 4 := by
  simp [wordBytes, wordByte, tobe, List.range_succ, BitVec.extractLsb', Nat.shiftRight_eq_div_pow]

theorem be_wordBytes (t : Word) : be (wordBytes t) = t.toNat := by
  rw [wordBytes_eq_tobe, be_tobe _ _ t.isLt]

theorem blockBytes_eq_tobe (b : Block) : blockBytes b = tobe b.toNat 16 := by
  simp [blockBytes, byteAt, tobe, List.range_succ, BitVec.extractLsb', Nat.shiftRight_eq_div_pow]

/-! ## The fields of a counter block -/

theorem counterField_append (iv : Nonce) (n : BitVec 32) : counterField (iv ++ n) = n :=
  BitVec.extractLsb'_append_eq_right

theorem counterNonce_append_counterField (cb : Block) : counterNonce cb ++ counterField cb = cb :=
  (BitVec.extractLsb'_append_extractLsb'_eq_extractLsb' rfl).trans BitVec.extractLsb'_eq_self

theorem counterField_incrementCounter (cb : Block) : counterField (incrementCounter cb) = counterField cb + 1 :=
  counterField_append _ _

/-- Bytes 0 to 11 of a counter block are those of its IV. -/
theorem byteAt_eq_nonceByte (cb : Block) {i : Nat} (hi : i < 12) : byteAt cb i = nonceByte (counterNonce cb) i := by
  apply BitVec.eq_of_getLsbD_eq
  intro j hj
  simp only [byteAt, nonceByte, counterNonce, BitVec.getLsbD_extractLsb', hj, decide_true, Bool.true_and]
  rw [decide_eq_true (by omega), Bool.true_and]
  congr 1
  omega

/-- Bytes 12 to 15 of a counter block are those of its counter. -/
theorem byteAt_eq_counterByte (cb : Block) {j : Nat} (hj : j < 4) :
    byteAt cb (12 + j) = wordByte (counterField cb) j := by
  rw [byteAt_eq_wordByte cb _ (by omega), show (12 + j) / 4 = 3 by omega, show (12 + j) % 4 = j by omega]
  rfl

theorem be_counterBytes (cb : Block) :
    be [byteAt cb 12, byteAt cb 13, byteAt cb 14, byteAt cb 15] = (counterField cb).toNat := by
  have hbyte (j : Nat) (hj : j < 4) := byteAt_eq_counterByte cb hj
  rw [← be_wordBytes, hbyte 0 (by decide), hbyte 1 (by decide), hbyte 2 (by decide), hbyte 3 (by decide)]
  rfl

/-! ## Many increments -/

theorem iterate_incrementCounter (cb : Block) (n : Nat) :
    incrementCounter^[n] cb = counterNonce cb ++ (counterField cb + BitVec.ofNat 32 n) := by
  induction n with
  | zero => rw [Function.iterate_zero_apply, BitVec.add_zero, counterNonce_append_counterField]
  | succ n ih =>
    rw [Function.iterate_succ_apply', ih, incrementCounter, counterNonce_append, counterField_append, BitVec.add_assoc,
      BitVec.ofNat_add]
    rfl

theorem iterate_incrementCounter_initialCounter (iv : Nonce) (n : Nat) :
    incrementCounter^[n] (initialCounter iv) = counterBlock iv n := by
  rw [iterate_incrementCounter, counterNonce_initialCounter, initialCounter, counterField_append, counterBlock,
    BitVec.ofNat_add]

theorem counterField_counterBlock (iv : Nonce) (n : Nat) :
    (counterField (counterBlock iv n)).toNat = (1 + n) % 2 ^ 32 := by
  rw [counterBlock, counterField_append, BitVec.toNat_ofNat]

/-- Equal counter blocks of one IV are a multiple of 2^32 increments apart. -/
theorem counterBlock_eq_iff {iv : Nonce} {m n : Nat} :
    counterBlock iv m = counterBlock iv n ↔ (1 + m) % 2 ^ 32 = (1 + n) % 2 ^ 32 := by
  constructor
  · intro h
    rw [← counterField_counterBlock iv m, h, counterField_counterBlock]
  · intro h
    exact congrArg (iv ++ ·) (BitVec.eq_of_toNat_eq (by rwa [BitVec.toNat_ofNat, BitVec.toNat_ofNat]))

/-! ## MKJ0 and INC32 -/

theorem exec_mkj0 (s : State) :
    exec .mkj0 s = .next (s.withDp (s.dp.setCB (.holding (initialCounter s.host.IV.val)))) :=
  opMkj0_eq s

theorem exec_inc32 (s : State) :
    exec .inc32 s = .next (s.withDp (s.dp.setCB (.holding (incrementCounter s.dp.CB.val)))) :=
  opInc32_eq s

theorem setCB_of_eq {s : State} {cb : Block} (h : s.dp.CB = .holding cb) : s.withDp (s.dp.setCB (.holding cb)) = s := by
  rw [← h]
  rfl

theorem execAll_replicate_inc32 {s : State} {cb : Block} (h : s.dp.CB = .holding cb) (n : Nat) :
    execAll (List.replicate n .inc32) s = .next (s.withDp (s.dp.setCB (.holding (incrementCounter^[n] cb)))) := by
  induction n generalizing s cb with
  | zero => rw [List.replicate_zero, execAll_nil, Function.iterate_zero_apply, setCB_of_eq h]
  | succ n ih =>
    rw [List.replicate_succ, execAll_cons, exec_inc32, andThen_next, ih rfl, h, Reg.holding_val,
      Function.iterate_succ_apply, withDp_withDp, withDp_dp, Datapath.setCB_setCB]

/-! ## The statements -/

/-- Settles O24, byte by byte: bytes 0 to 11 by the IV in the block (`byteAt_eq_nonceByte`), bytes 12 to 15 by its
counter (`byteAt_eq_counterByte`, `be_counterBytes`). -/
theorem counterBlockResults : Obligations.CounterBlockResults := by
  refine ⟨fun s iv hIV => ⟨initialCounter iv, ?_, fun i hi => ?_, ?_⟩,
    fun s cb hCB => ⟨incrementCounter cb, ?_, fun i hi => ?_, ?_⟩⟩
  · rw [exec_mkj0, hIV, Reg.holding_val]
    rfl
  · rw [byteAt_eq_nonceByte _ hi, counterNonce_initialCounter]
  · have hbyte (j : Nat) (hj : j < 4) : byteAt (initialCounter iv) (12 + j) = wordByte 1 j := by
      rw [byteAt_eq_counterByte _ hj, initialCounter, counterField_append]
      rfl
    exact ⟨hbyte 0 (by decide), hbyte 1 (by decide), hbyte 2 (by decide), hbyte 3 (by decide)⟩
  · rw [exec_inc32, hCB, Reg.holding_val]
    rfl
  · rw [byteAt_eq_nonceByte _ hi, byteAt_eq_nonceByte _ hi, counterNonce_incrementCounter]
  · rw [be_counterBytes, be_counterBytes, counterField_incrementCounter, BitVec.toNat_add]
    rfl

/-- Settles O25: many INC32 are one addition to the counter (`iterate_incrementCounter`), and the counter blocks of a
message are told apart by it (`counterBlock_eq_iff`). -/
theorem counterPeriodAndMessageFields : Obligations.CounterPeriodAndMessageFields := by
  refine ⟨fun s cb n hCB => ⟨?_, fun hn => ?_⟩, fun iv => ?_⟩
  · rw [execAll_replicate_inc32 hCB, iterate_incrementCounter]
    rfl
  · have hzero : BitVec.ofNat 32 n = 0#32 := BitVec.eq_of_toNat_eq hn
    rw [execAll_replicate_inc32 hCB, iterate_incrementCounter, hzero, BitVec.add_zero, counterNonce_append_counterField,
      setCB_of_eq hCB]
  · have hinitial : initialCounter iv = counterBlock iv 0 := rfl
    refine ⟨hinitial, fun i => ⟨iterate_incrementCounter_initialCounter iv _, counterNonce_append _ _, ?_⟩,
      fun i j hi hj h => ?_, fun i hi h => ?_, ?_⟩
    · rw [counterField_counterBlock, show 1 + (i + 1) = 2 + i by omega]
    · rw [counterBlock_eq_iff] at h
      omega
    · rw [hinitial, counterBlock_eq_iff] at h
      omega
    · rw [hinitial, counterBlock_eq_iff]
      rfl

end Sys2Proof.Machine
end

section
/-! SUPPORT. The multiplier of R103 and R104 as linear algebra: GFSTEP and GFMUL over XOR, multiplication by the
identity block, and commutativity. -/

namespace Sys2Proof.Machine

/-! ## GFSTEP over XOR -/

/-- The block `v` if the bit is 1, otherwise 0. -/
def gated (x : Bool) (v : Block) : Block := if x then v else 0

theorem gated_xor_bit (x y : Bool) (v : Block) : gated (x ^^ y) v = gated x v ^^^ gated y v := by
  cases x <;> cases y <;> simp [gated]

theorem gated_xor (x : Bool) (v w : Block) : gated x (v ^^^ w) = gated x v ^^^ gated x w := by
  cases x <;> simp [gated]

theorem gfNextZ_eq_xor (x : Bool) (z v : Block) : gfNextZ x z v = z ^^^ gated x v := by
  cases x <;> simp [gfNextZ, gated]

theorem gfNextV_eq_xor (v : Block) : gfNextV v = v >>> 1 ^^^ gated (v.getLsbD 0) (0xE1#8 ++ 0#120) := by
  rw [gfNextV, gated]
  split
  · rfl
  · exact BitVec.xor_zero.symm

theorem gfNextV_of_even {v : Block} (h : v.getLsbD 0 = false) : gfNextV v = v >>> 1 := by
  rw [gfNextV, h, if_neg Bool.false_ne_true]

/-- The shift is linear, and so is the reduction in the bit shifted out. -/
theorem gfNextV_xor (v w : Block) : gfNextV (v ^^^ w) = gfNextV v ^^^ gfNextV w := by
  simp only [gfNextV_eq_xor, BitVec.ushiftRight_xor_distrib, BitVec.getLsbD_xor, gated_xor_bit]
  ac_rfl

theorem gfNextZ_map {f : Block → Block} (hf : ∀ v w, f (v ^^^ w) = f v ^^^ f w) (x : Bool) (z v : Block) :
    gfNextZ x (f z) (f v) = f (gfNextZ x z v) := by
  cases x
  · rfl
  · exact (hf z v).symm

theorem gfNextZ_xor (x : Bool) (z v z' v' : Block) :
    gfNextZ x (z ^^^ z') (v ^^^ v') = gfNextZ x z v ^^^ gfNextZ x z' v' := by
  simp only [gfNextZ_eq_xor, gated_xor]
  ac_rfl

theorem gfNextZ_xor_bit (x y : Bool) (z z' v : Block) :
    gfNextZ (x ^^ y) (z ^^^ z') v = gfNextZ x z v ^^^ gfNextZ y z' v := by
  simp only [gfNextZ_eq_xor, gated_xor_bit]
  ac_rfl

/-! ## The loop of R104 -/

theorem gfSteps_cons (a : Block) (i : Nat) (is : List Nat) (z v : Block) :
    gfSteps a (i :: is) (z, v) = gfSteps a is (gfNextZ (gbit a i) z v, gfNextV v) := rfl

theorem gfSteps_range_succ (a : Block) (n : Nat) (zv : Block × Block) :
    gfSteps a (List.range (n + 1)) zv =
      (gfNextZ (gbit a n) (gfSteps a (List.range n) zv).1 (gfSteps a (List.range n) zv).2,
        gfNextV (gfSteps a (List.range n) zv).2) := by
  simp [gfSteps, List.range_succ]

/-- V takes one shift a step, whatever the bits. -/
theorem gfSteps_snd (a : Block) (is : List Nat) (z v : Block) : (gfSteps a is (z, v)).2 = gfNextV^[is.length] v := by
  induction is generalizing z v with
  | nil => rfl
  | cons i is ih => rw [gfSteps_cons, ih, List.length_cons, Function.iterate_succ_apply]

/-- A function that keeps XOR and GFSTEP's shift passes through the loop. -/
theorem gfSteps_map {f : Block → Block} (hxor : ∀ v w, f (v ^^^ w) = f v ^^^ f w)
    (hshift : ∀ v, f (gfNextV v) = gfNextV (f v)) (a : Block) (is : List Nat) (z v : Block) :
    gfSteps a is (f z, f v) = (f (gfSteps a is (z, v)).1, f (gfSteps a is (z, v)).2) := by
  induction is generalizing z v with
  | nil => rfl
  | cons i is ih => rw [gfSteps_cons, gfSteps_cons, gfNextZ_map hxor, ← hshift, ih]

/-- The loop is linear in Z and V. -/
theorem gfSteps_xor (a : Block) (is : List Nat) (z v z' v' : Block) :
    gfSteps a is (z ^^^ z', v ^^^ v') =
      ((gfSteps a is (z, v)).1 ^^^ (gfSteps a is (z', v')).1,
        (gfSteps a is (z, v)).2 ^^^ (gfSteps a is (z', v')).2) := by
  induction is generalizing z v z' v' with
  | nil => rfl
  | cons i is ih =>
    rw [gfSteps_cons, gfSteps_cons, gfSteps_cons, gfNextZ_xor, gfNextV_xor, ih]

theorem gbit_xor (a b : Block) (i : Nat) : gbit (a ^^^ b) i = (gbit a i ^^ gbit b i) := BitVec.getMsbD_xor

/-- Z is linear in the bits. -/
theorem gfSteps_xor_left (a b : Block) (is : List Nat) (z z' v : Block) :
    (gfSteps (a ^^^ b) is (z ^^^ z', v)).1 = (gfSteps a is (z, v)).1 ^^^ (gfSteps b is (z', v)).1 := by
  induction is generalizing z z' v with
  | nil => rfl
  | cons i is ih =>
    rw [gfSteps_cons, gfSteps_cons, gfSteps_cons, gbit_xor, gfNextZ_xor_bit, ih]

/-! ## GFMUL is bilinear -/

theorem gfMul_xor_right (a b c : Block) : gfMul a (b ^^^ c) = gfMul a b ^^^ gfMul a c :=
  congrArg Prod.fst (gfSteps_xor a (List.range 128) 0 b 0 c)

theorem gfMul_xor_left (a b c : Block) : gfMul (a ^^^ b) c = gfMul a c ^^^ gfMul b c :=
  gfSteps_xor_left a b (List.range 128) 0 0 c

/-- A function that keeps XOR is 0 at 0. -/
theorem eq_zero_of_xor {f : Block → Block} (hf : ∀ v w, f (v ^^^ w) = f v ^^^ f w) : f 0 = 0 := by
  simpa using hf 0 0

/-- A function that keeps XOR and GFSTEP's shift passes through the second factor. -/
theorem gfMul_map {f : Block → Block} (hxor : ∀ v w, f (v ^^^ w) = f v ^^^ f w)
    (hshift : ∀ v, f (gfNextV v) = gfNextV (f v)) (a b : Block) : gfMul a (f b) = f (gfMul a b) := by
  have h := congrArg Prod.fst (gfSteps_map hxor hshift a (List.range 128) 0 b)
  rwa [eq_zero_of_xor hxor] at h

/-- GFSTEP's shift of the second factor shifts the product. -/
theorem gfMul_gfNextV (a b : Block) : gfMul a (gfNextV b) = gfNextV (gfMul a b) :=
  gfMul_map gfNextV_xor (fun _ => rfl) a b

/-- Multiplications by two blocks can be exchanged. -/
theorem gfMul_left_comm (a b c : Block) : gfMul a (gfMul b c) = gfMul b (gfMul a c) :=
  gfMul_map (gfMul_xor_right b) (gfMul_gfNextV b) a c

/-! ## The identity block -/

/-- The field element 1: bit index 0 only (R53, R104). -/
def gfOne : Block := 0x80000000000000000000000000000000

theorem gbit_gated (x : Bool) (v : Block) (i : Nat) : gbit (gated x v) i = (x && gbit v i) := by
  cases x <;> simp [gated, gbit]

theorem gbit_gfOne_shift {n j : Nat} (hj : j < 128) : gbit (gfOne >>> n) j = decide (j = n) := by
  have hone : gfOne = BitVec.twoPow 128 127 := by decide
  rw [gbit, hone, BitVec.getMsbD_ushiftRight, BitVec.getMsbD_twoPow]
  by_cases h : j < n
  · simp [h, Nat.ne_of_lt h]
  · simp [h, hj]
    omega

/-- Up to 127 shifts of 1 shift no bit out. -/
theorem gfNextV_iterate_gfOne {n : Nat} (hn : n < 128) : gfNextV^[n] gfOne = gfOne >>> n := by
  induction n with
  | zero => rfl
  | succ n ih =>
    have heven : (gfOne >>> n).getLsbD 0 = false := by
      have h := gbit_gfOne_shift (n := n) (j := 127) (by decide)
      rw [decide_eq_false (by omega)] at h
      exact h
    rw [Function.iterate_succ_apply', ih (by omega), gfNextV_of_even heven, BitVec.shiftRight_add]

/-- From V = 1, each step puts its bit of the first factor into Z. -/
theorem gbit_gfSteps_gfOne (a : Block) {n j : Nat} (hn : n ≤ 128) (hj : j < 128) :
    gbit (gfSteps a (List.range n) (0, gfOne)).1 j = (decide (j < n) && gbit a j) := by
  induction n with
  | zero => simp [gfSteps, gbit]
  | succ n ih =>
    have hv : (gfSteps a (List.range n) (0, gfOne)).2 = gfOne >>> n := by
      rw [gfSteps_snd, List.length_range, gfNextV_iterate_gfOne hn]
    have hbit := gbit_gfOne_shift (n := n) hj
    rw [gfSteps_range_succ, hv, gfNextZ_eq_xor, gbit_xor, ih (by omega), gbit_gated, hbit]
    rcases Nat.lt_trichotomy j n with h | rfl | h
    · simp [h, Nat.lt_succ_of_lt h, Nat.ne_of_lt h]
    · simp
    · simp [show ¬ j < n by omega, show ¬ j < n + 1 by omega, Nat.ne_of_gt h]

theorem gfMul_gfOne (a : Block) : gfMul a gfOne = a := by
  apply BitVec.eq_of_getMsbD_eq
  intro j hj
  have h := gbit_gfSteps_gfOne a (Nat.le_refl 128) hj
  rw [decide_eq_true hj, Bool.true_and] at h
  exact h

theorem gfMul_comm (a b : Block) : gfMul a b = gfMul b a :=
  calc gfMul a b = gfMul a (gfMul b gfOne) := by rw [gfMul_gfOne]
    _ = gfMul b (gfMul a gfOne) := gfMul_left_comm a b gfOne
    _ = gfMul b a := by rw [gfMul_gfOne]

theorem gfOne_gfMul (b : Block) : gfMul gfOne b = b := (gfMul_comm gfOne b).trans (gfMul_gfOne b)

/-- The block `40 00 .. 00` is 1 shifted once, the field element x. -/
theorem gfMul_x (b : Block) : gfMul (gfNextV gfOne) b = gfNextV b := by
  rw [gfMul_comm, gfMul_gfNextV, gfMul_gfOne]

/-! ## The statements -/

/-- Settles O29: GFMUL is linear in both factors (`gfMul_xor_left`, `gfMul_xor_right`), and the other laws are those of
the identity block (`gfMul_gfOne`, `gfMul_x`). -/
theorem gfmulLaws : Obligations.GfmulLaws :=
  ⟨fun b => eq_zero_of_xor (f := (gfMul · b)) fun v w => gfMul_xor_left v w b,
    fun a => eq_zero_of_xor (gfMul_xor_right a), gfOne_gfMul, gfMul_gfOne, gfMul_x, gfMul_xor_right, gfMul_xor_left⟩

/-- Settles O30: each factor times 1 is itself, and multiplications can be exchanged (`gfMul_comm`). -/
theorem gfmulCommutes : Obligations.GfmulCommutes := fun a b =>
  ⟨gfMul_comm a b, fun s => ⟨_, _, opGfmul_eq a b s, opGfmul_eq b a s, by simp [gfMul_comm a b]⟩⟩

end Sys2Proof.Machine
end

section
/-! SUPPORT. XOR128, GFSTEP, GFMUL and LENBLK as instructions (R102 to R104, R110): the bytes they write, and GFMUL as
the instructions that make it up. -/

namespace Sys2Proof.Machine

/-! ## GFSTEP byte by byte (R103) -/

theorem byteAt_gfNextZ (x : Bool) (z v : Block) (k : Nat) :
    byteAt (gfNextZ x z v) k = if x then byteAt z k ^^^ byteAt v k else byteAt z k := by
  cases x
  · rfl
  · exact byteAt_xor z v k

theorem getLsbD_byteAt (b : Block) (k : Nat) {j : Nat} (hj : j < 8) :
    (byteAt b k).getLsbD j = b.getLsbD (8 * (15 - k) + j) := by
  rw [byteAt, BitVec.getLsbD_extractLsb', decide_eq_true hj, Bool.true_and]

/-- A shift by one bit moves bits 7 to 1 of a byte within it. -/
theorem byteAt_ushiftRight_one_inner (v : Block) (k : Nat) {j : Nat} (hj : j < 7) :
    (byteAt (v >>> 1) k).getLsbD j = (byteAt v k >>> 1).getLsbD j := by
  rw [getLsbD_byteAt _ _ (by omega), BitVec.getLsbD_ushiftRight, BitVec.getLsbD_ushiftRight,
    getLsbD_byteAt _ _ (by omega), Nat.add_left_comm]

/-- A shift by one bit takes the top bit of a byte from the bit above the byte. -/
theorem byteAt_ushiftRight_one_top (v : Block) (k : Nat) :
    (byteAt (v >>> 1) k).getLsbD 7 = v.getLsbD (8 * (15 - k) + 8) := by
  rw [getLsbD_byteAt _ _ (by decide), BitVec.getLsbD_ushiftRight, Nat.add_left_comm]

/-- The shift byte by byte: bit 0 of the byte before comes in on top. -/
theorem byteAt_ushiftRight_one (v : Block) {k : Nat} (hlow : 1 ≤ k) (hhigh : k ≤ 15) :
    byteAt (v >>> 1) k = (byteAt v k >>> 1) ||| ((byteAt v (k - 1) &&& 1) <<< 7) := by
  apply BitVec.eq_of_getLsbD_eq
  intro j hj
  rw [BitVec.getLsbD_or, BitVec.getLsbD_shiftLeft]
  rcases Nat.lt_or_eq_of_le (Nat.le_of_lt_succ hj) with hinner | rfl
  · simp [byteAt_ushiftRight_one_inner v k hinner, hinner]
  · have hbefore : (byteAt v (k - 1)).getLsbD 0 = v.getLsbD (8 * (15 - k) + 8) := by
      rw [getLsbD_byteAt _ _ (by decide), show 8 * (15 - (k - 1)) + 0 = 8 * (15 - k) + 8 by omega]
    rw [byteAt_ushiftRight_one_top, ← hbefore]
    simp

/-- In byte 0, 0 comes in on top. -/
theorem byteAt_ushiftRight_one_zero (v : Block) : byteAt (v >>> 1) 0 = byteAt v 0 >>> 1 := by
  apply BitVec.eq_of_getLsbD_eq
  intro j hj
  rcases Nat.lt_or_eq_of_le (Nat.le_of_lt_succ hj) with hinner | rfl
  · exact byteAt_ushiftRight_one_inner v 0 hinner
  · rw [byteAt_ushiftRight_one_top, BitVec.getLsbD_ushiftRight, BitVec.getLsbD_of_ge _ _ (by decide),
      BitVec.getLsbD_of_ge _ _ (by decide)]

/-- The reduction is 0xE1 in byte 0. -/
theorem byteAt_gated_reduction (x : Bool) {k : Nat} (hk : k < 16) :
    byteAt (gated x (0xE1#8 ++ 0#120)) k = if k = 0 ∧ x then 0xE1 else 0x00 := by
  revert x
  interval_cases k <;> decide

/-! ## GFMUL (R104) -/

theorem exec_gfstep (x : Bool) (s : State) :
    exec (.gfstep x) s = .next (s.withDp
      ((s.dp.setZ (.holding (gfNextZ x s.dp.Z.val s.dp.V.val))).setV (.holding (gfNextV s.dp.V.val)))) :=
  opGfstep_eq x s

/-- The loop of R104 as instructions, from what Z and V hold. -/
theorem execAll_gfsteps (a : Block) (is : List Nat) {s : State} {z v : Block} (hZ : s.dp.Z = .holding z)
    (hV : s.dp.V = .holding v) :
    execAll (is.map fun i => .gfstep (gbit a i)) s
      = .next (s.withDp ((s.dp.setZ (.holding (gfSteps a is (z, v)).1)).setV (.holding (gfSteps a is (z, v)).2))) := by
  induction is generalizing s z v with
  | nil =>
    simp only [gfSteps, List.foldl_nil, List.map_nil, execAll_nil, ← hZ, ← hV]
    rfl
  | cons i is ih =>
    rw [List.map_cons, execAll_cons, exec_gfstep, hZ, hV, andThen_next, ih rfl rfl]
    rfl

/-! ## The length block (R110) -/

theorem toNat_lengthBlock {a p : Nat} (ha : a < 2 ^ 57) (hp : p < 2 ^ 57) :
    (lengthBlock a p).toNat = 128 * a * 256 ^ 8 + 128 * p := by
  have hbits {n : Nat} (hn : n < 2 ^ 57) : (BitVec.ofNat 64 (128 * n)).toNat = 128 * n := by
    rw [BitVec.toNat_ofNat, Nat.mod_eq_of_lt (by omega)]
  rw [lengthBlock, BitVec.toNat_append, hbits ha, hbits hp, ← Nat.shiftLeft_add_eq_or_of_lt (by omega),
    Nat.shiftLeft_eq]
  norm_num

/-! ## The statements -/

/-- Settles O26, byte by byte (`byteAt_xor`), with the laws of XOR. -/
theorem xor128Result : Obligations.Xor128Result := by
  intro s a b
  refine ⟨a ^^^ b, opXor128_eq a b s, fun k _ => byteAt_xor a b k, ?_, ?_, ?_⟩
  · rintro rfl
    exact BitVec.xor_self
  · rintro rfl
    exact BitVec.xor_zero
  · have h := opXor128_eq (a ^^^ b) b s
    rwa [BitVec.xor_assoc, BitVec.xor_self, BitVec.xor_zero] at h

/-- Settles O27, byte by byte: Z by `byteAt_gfNextZ`; V as its shift (`byteAt_ushiftRight_one`), with the reduction in
byte 0 (`byteAt_gated_reduction`). -/
theorem gfstepResult : Obligations.GfstepResult := by
  intro s x z v hZ hV
  refine ⟨gfNextZ x z v, gfNextV v, ?_, fun k _ => byteAt_gfNextZ x z v k, fun k hlow hhigh => ?_, ?_⟩
  · rw [exec_gfstep, hZ, hV, Reg.holding_val, Reg.holding_val]
    rfl
  · rw [gfNextV_eq_xor, byteAt_xor, byteAt_gated_reduction _ (by omega), byteAt_ushiftRight_one v hlow hhigh,
      if_neg fun h => by omega]
    exact BitVec.xor_zero
  · rw [gfNextV_eq_xor, byteAt_xor, byteAt_gated_reduction _ (by decide), byteAt_ushiftRight_one_zero,
      getLsbD_byteAt v 15 (by decide)]
    simp

/-- Settles O28, by the loop from Z = 0 and V the second factor (`execAll_gfsteps`). -/
theorem gfmulIsItsSteps : Obligations.GfmulIsItsSteps := fun s a b =>
  ⟨(gfLoop a b).1, (gfLoop a b).2, execAll_gfsteps a (List.range 128) rfl rfl, opGfmul_eq a b s, rfl⟩

/-- Settles O31: the block is the big-endian bytes of its value (`blockBytes_eq_tobe`), which is the two bit lengths put
together (`toNat_lengthBlock`). -/
theorem lengthBlockResult : Obligations.LengthBlockResult := by
  intro s a p ha hp
  have hbytes : blockBytes (lengthBlock a p) = tobe (128 * a) 8 ++ tobe (128 * p) 8 := by
    rw [blockBytes_eq_tobe, toNat_lengthBlock ha hp]
    exact tobe_append (128 * a) (128 * p) 8 8 (by omega)
  refine ⟨lengthBlock a p, opLenblk_eq ⟨ha, hp⟩ s, hbytes, ?_, ?_⟩
  · rw [hbytes, List.take_left' (length_tobe _ 8), be_tobe _ 8 (by omega)]
  · rw [hbytes, List.drop_left' (length_tobe _ 8), be_tobe _ 8 (by omega)]

end Sys2Proof.Machine
end

section
/-! SUPPORT. The composite operations HSUB, GCTR, GHASH and TAGENC as instructions (R115 to R119). -/

namespace Sys2Proof.Machine

/-! ## HSUB (R115) -/

theorem exec_hsub (s : State) :
    exec .hsub s = .next ((s.withDp
      ((s.dp.setS (.holding (cipherState s.dp.RK.val 0))).setH (.holding (cipherBlock s.dp.RK.val 0)))).deliver
        (.block (cipherBlock s.dp.RK.val 0))) :=
  opHsub_eq s

/-- Settles O32: HSUB is CIPHER of the zero block with the block moved to H, and KEXP leaves the schedule of KEY in
RK. -/
theorem hashSubkeyResult : Obligations.HashSubkeyResult := by
  refine ⟨fun s rk hRK => ⟨cipherState rk 0, ?_, ?_⟩, fun s key hKEY => ?_⟩
  · rw [exec_cipher, hRK]
    rfl
  · rw [exec_hsub, hRK]
    rfl
  · rw [execAll_cons, exec_kexp, hKEY, andThen_next, execAll_cons, exec_hsub, andThen_next]
    exact ⟨_, rfl, rfl⟩

/-! ## GCTR (R116) -/

/-- The datapath after one block of GCTR, whatever the block is. -/
def Datapath.gctrRound (d : Datapath) : Datapath :=
  ((d.setS (.holding (cipherState d.RK.val d.CB.val))).setKS (.holding (cipherBlock d.RK.val d.CB.val))).setCB
    (.holding (incrementCounter d.CB.val))

/-- GCTR's loop does one round for each block, and delivers the blocks out. -/
theorem gctrLoop_eq (bs done : List Block) (s : State) :
    gctrLoop bs done s = .next ((s.withDp (Datapath.gctrRound^[bs.length] s.dp)).deliver
      (.blocks (done.reverse ++ gctrBlocks s.dp.RK.val s.dp.CB.val bs))) := by
  induction bs generalizing done s with
  | nil => simp [gctrLoop, gctrBlocks]
  | cons b bs ih =>
    simp only [gctrLoop, keystream_eq, xorKeystream_eq, opInc32_eq, andThen_next]
    rw [ih, List.length_cons, Function.iterate_succ_apply, gctrBlocks, List.reverse_cons, List.append_assoc]
    rfl

theorem exec_gctr (bs : List Block) (s : State) :
    exec (.gctr bs) s = .next ((s.withDp (Datapath.gctrRound^[bs.length] s.dp)).deliver
      (.blocks (gctrBlocks s.dp.RK.val s.dp.CB.val bs))) :=
  gctrLoop_eq bs [] s

/-- GCTR's rounds write S, CB and KS only. -/
theorem gctrRounds_frame (n : Nat) (d : Datapath) :
    ∃ S CB KS, Datapath.gctrRound^[n] d = { d with S := S, CB := CB, KS := KS } := by
  induction n with
  | zero => exact ⟨d.S, d.CB, d.KS, rfl⟩
  | succ n ih =>
    obtain ⟨S, CB, KS, h⟩ := ih
    rw [Function.iterate_succ_apply', h]
    exact ⟨_, _, _, rfl⟩

/-- GCTR increments CB once a block. -/
theorem gctrRounds_CB {d : Datapath} {cb : Block} (h : d.CB = .holding cb) (n : Nat) :
    (Datapath.gctrRound^[n] d).CB = .holding (incrementCounter^[n] cb) := by
  induction n with
  | zero => exact h
  | succ n ih =>
    rw [Function.iterate_succ_apply', Function.iterate_succ_apply', Datapath.gctrRound, Datapath.setCB_CB, ih,
      Reg.holding_val]

/-- KS ends as the keystream block of the last block. -/
theorem gctrRounds_KS {d : Datapath} {cb : Block} (h : d.CB = .holding cb) (n : Nat) :
    (Datapath.gctrRound^[n + 1] d).KS = .holding (cipherBlock d.RK.val (incrementCounter^[n] cb)) := by
  have hRK : (Datapath.gctrRound^[n] d).RK = d.RK := by
    obtain ⟨S, CB, KS, hd⟩ := gctrRounds_frame n d
    rw [hd]
  rw [Function.iterate_succ_apply', Datapath.gctrRound, Datapath.setCB_KS, Datapath.setKS_KS, gctrRounds_CB h, hRK,
    Reg.holding_val]

@[simp] theorem length_gctrBlocks (rk : Schedule) (cb : Block) (bs : List Block) :
    (gctrBlocks rk cb bs).length = bs.length := by
  induction bs generalizing cb with
  | nil => rfl
  | cons b bs ih => rw [gctrBlocks, List.length_cons, ih, List.length_cons]

/-- Block `i` of GCTR's output. -/
theorem getElem_gctrBlocks (rk : Schedule) (cb : Block) (bs : List Block) {i : Nat} (hi : i < bs.length) :
    (gctrBlocks rk cb bs)[i]'(by simpa using hi) = bs[i] ^^^ cipherBlock rk (incrementCounter^[i] cb) := by
  induction bs generalizing cb i with
  | nil => exact absurd hi (Nat.not_lt_zero i)
  | cons b bs ih =>
    cases i with
    | zero => rfl
    | succ i => exact ih (incrementCounter cb) (Nat.lt_of_succ_lt_succ hi)

/-- GCTR is its own inverse: the keystream cancels. -/
theorem gctrBlocks_gctrBlocks (rk : Schedule) (cb : Block) (bs : List Block) :
    gctrBlocks rk cb (gctrBlocks rk cb bs) = bs := by
  induction bs generalizing cb with
  | nil => rfl
  | cons b bs ih => rw [gctrBlocks, gctrBlocks, ih, BitVec.xor_assoc, BitVec.xor_self, BitVec.xor_zero]

/-- Settles O33, by GCTR's rounds (`exec_gctr`) and its blocks one by one (`getElem_gctrBlocks`). -/
theorem gctrResult : Obligations.GctrResult := by
  refine ⟨fun s => exec_gctr [] s, fun s rk cb bs hRK hCB => ?_⟩
  have hrun (xs : List Block) := exec_gctr xs s
  rw [hRK, hCB, Reg.holding_val, Reg.holding_val] at hrun
  refine ⟨Datapath.gctrRound^[bs.length] s.dp, gctrBlocks rk cb bs, hrun bs, ?_, length_gctrBlocks rk cb bs,
    fun i hi => ?_, ?_, fun n hn => ?_, _, hrun _, by rw [gctrBlocks_gctrBlocks]; rfl⟩
  · obtain ⟨S, CB, KS, hd⟩ := gctrRounds_frame bs.length s.dp
    rw [hd]
  · rw [← iterate_incrementCounter, List.getD_eq_getElem _ _ (by simpa using hi), List.getD_eq_getElem _ _ hi,
      getElem_gctrBlocks rk cb bs hi]
  · rw [gctrRounds_CB hCB, iterate_incrementCounter]
  · rw [hn, gctrRounds_KS hCB, iterate_incrementCounter, hRK, Reg.holding_val]

/-! ## GHASH (R117) -/

/-- GHASH's loop takes Y on, and writes Z and V beside it. -/
theorem hashLoop_eq (xs : List Block) {s : State} {y : Block} (hY : s.dp.Y = .holding y) :
    ∃ Z V o, hashLoop xs s = .next
      { s with dp := { s.dp with Y := .holding (ghashFrom s.dp.H.val y xs), Z := Z, V := V }, out := o } := by
  induction xs generalizing s y with
  | nil => exact ⟨s.dp.Z, s.dp.V, s.out, by rw [ghashFrom, List.foldl_nil, ← hY]; rfl⟩
  | cons x xs ih =>
    have hcons : ghashFrom s.dp.H.val y (x :: xs) = ghashFrom s.dp.H.val (gfMul s.dp.H.val (y ^^^ x)) xs := rfl
    rw [hashLoop, hashBlock_eq, andThen_next, hY, Reg.holding_val, hcons]
    generalize gfLoop s.dp.H.val (y ^^^ x) = zv
    generalize gfMul s.dp.H.val (y ^^^ x) = y'
    obtain ⟨Z, V, o, h⟩ := ih (s := (s.withDp
      (((s.dp.setZ (.holding zv.1)).setV (.holding zv.2)).setY (.holding y'))).deliver (.block y')) rfl
    exact ⟨Z, V, o, h⟩

theorem ghashFrom_take_succ (h y : Block) (xs : List Block) {i : Nat} (hi : i < xs.length) :
    ghashFrom h y (xs.take (i + 1)) = gfMul h (ghashFrom h y (xs.take i) ^^^ xs[i]) := by
  rw [List.take_succ_eq_append_getElem hi, ghashFrom, List.foldl_concat, ghashFrom]

theorem gfMul_zero (a : Block) : gfMul a 0 = 0 := eq_zero_of_xor (gfMul_xor_right a)

theorem ghashFrom_zeros (h : Block) {xs : List Block} (hxs : ∀ x ∈ xs, x = 0) : ghashFrom h 0 xs = 0 := by
  induction xs with
  | nil => rfl
  | cons x xs ih =>
    have hfirst : gfMul h (0 ^^^ x) = 0 := by
      rw [hxs x List.mem_cons_self]
      exact gfMul_zero h
    rw [ghashFrom, List.foldl_cons, hfirst]
    exact ih fun z hz => hxs z (List.mem_cons_of_mem x hz)

/-- Settles O34: Y after `i` blocks is the accumulator over the first `i` of them. -/
theorem ghashResult : Obligations.GhashResult := by
  refine ⟨fun s => rfl, fun s h xs hH => ?_⟩
  obtain ⟨Z, V, o, hrun⟩ := hashLoop_eq xs (s := s.withDp (s.dp.setY (.holding 0))) rfl
  rw [withDp_dp, Datapath.setY_H, hH, Reg.holding_val] at hrun
  refine ⟨_, o, fun i => ghashFrom h 0 (xs.take i), hrun, ?_, rfl, fun i hi => ?_, fun hxs => ?_⟩
  · beta_reduce
    rw [List.take_length]
    rfl
  · rw [List.getD_eq_getElem _ _ hi]
    exact ghashFrom_take_succ h 0 xs hi
  · rw [ghashFrom_zeros h hxs]

/-! ## TAGENC (R119) -/

theorem incrementCounter_counterBlock (iv : Nonce) (n : Nat) :
    incrementCounter (counterBlock iv n) = counterBlock iv (n + 1) := by
  rw [← iterate_incrementCounter_initialCounter, ← iterate_incrementCounter_initialCounter,
    Function.iterate_succ_apply']

/-- Settles O35, by TAGENC's equation (`opTagenc_eq`) and GCTR's for one block. -/
theorem tagResult : Obligations.TagResult := by
  intro s iv rk y hIV hRK hY ks
  have hJ0 : initialCounter s.host.IV.val = counterBlock iv 0 := by rw [hIV]; rfl
  have hKS : cipherBlock s.dp.RK.val (counterBlock iv 0) = ks := by rw [hRK]; rfl
  refine ⟨⟨cipherState rk (counterBlock iv 0), ?_⟩, _, exec_gctr _ _, ?_⟩
  · refine (opTagenc_eq hJ0 hKS).trans ?_
    rw [incrementCounter_counterBlock, hRK, hY]
    rfl
  · rw [← hKS]
    rfl

end Sys2Proof.Machine
end

section
/-! SUPPORT. NOP (R123) and the issue checks of SEAL (R122): the first check that fails decides the reason, and a SEAL
that passes them all completes. -/

namespace Sys2Proof.Machine

variable {s : State}

/-! ## NOP -/

theorem execNop_idle (hb : s.busy = false) : execNop s = .next s := by
  rw [execNop, nopCheck, hb, if_neg Bool.false_ne_true]

theorem execNop_busy (hb : s.busy = true) : execNop s = .refused .rfBusy := by
  rw [execNop, nopCheck, if_pos hb]

/-- Settles O36: a CMD write of NOP's word is NOP once the core is idle. -/
theorem nopResult : Obligations.NopResult := by
  refine fun s => ⟨fun hb => ⟨execNop_busy hb, hostWrite_busy 10 0 hb⟩, fun hb => ⟨execNop_idle hb, ?_⟩⟩
  rw [hostWrite_command 0 hb, if_pos (by decide)]
  exact execNop_idle hb

/-! ## Regions and the checks before theirs -/

theorem hasRegion_of_inRegion {r : RegionName} {x : Nat} (h : s.InRegion r x) :
    ∃ base n, s.HasRegion r base n ∧ base ≤ x ∧ x < base + 16 * n := by
  obtain ⟨base, n, hbase, hcount, hlow, hhigh⟩ := h
  exact ⟨base, n, ⟨hbase, hcount, by omega⟩, hlow, hhigh⟩

theorem range_has_of_inRegion {r : RegionName} {x : Nat} (h : s.InRegion r x) : (r.range s).has x := by
  obtain ⟨base, n, hr, hx⟩ := hasRegion_of_inRegion h
  rwa [range_of_hasRegion hr]

/-- A count that is not zero is the value of its register. -/
theorem Reg.holding_of_pos {r : Reg Nat} (h : 0 < r.value.getD 0) : r = .holding (r.value.getD 0) := by
  cases hv : r.value with
  | none => simp [hv] at h
  | some n => exact Reg.value_eq_some.mp hv

section Held

variable (h2 : ¬ s.SealFails 2) (h3 : ¬ s.SealFails 3)
include h2 h3

/-- What checks (2) and (3) make sure of: every region has a block count, and a base if it is not empty. -/
theorem region_held (r : RegionName) : ∃ n, r.count s = some n ∧ (0 < n → r.base s ≠ none) := by
  simp only [State.SealFails, not_or, Bool.not_eq_false, not_exists, not_and] at h2 h3
  obtain ⟨-, -, hp, ha⟩ := h2
  obtain ⟨p, hp⟩ := Reg.held_iff.mp hp
  obtain ⟨a, ha⟩ := Reg.held_iff.mp ha
  obtain ⟨hpt, had⟩ := h3
  cases r with
  | pt => exact ⟨p, Reg.value_eq_some.mpr hp, fun h0 => base_ne_none (hpt p hp h0).1⟩
  | ct => exact ⟨p, Reg.value_eq_some.mpr hp, fun h0 => base_ne_none (hpt p hp h0).2⟩
  | ad => exact ⟨a, Reg.value_eq_some.mpr ha, fun h0 => base_ne_none (had a ha h0)⟩

theorem range_has_iff_of_held (r : RegionName) (x : Nat) : (r.range s).has x ↔ s.InRegion r x := by
  obtain ⟨n, hcount, hbase⟩ := region_held h2 h3 r
  exact range_has_iff hcount hbase x

/-- Check (4) passes: every region lies in the buffer memory. -/
theorem inMemory_of_passes (h4 : ¬ s.SealFails 4) (r : RegionName) : (r.range s).inMemory s.plat = true := by
  obtain ⟨n, hcount, hbase⟩ := region_held h2 h3 r
  rcases Nat.eq_zero_or_pos n with rfl | hpos
  · simp [RegionName.range, blocks_of_count hcount, Range.inMemory_iff, Range.has]
  obtain ⟨base, hbase⟩ := Option.ne_none_iff_exists'.mp (hbase hpos)
  have hr : s.HasRegion r base n := ⟨hbase, hcount, hpos⟩
  rw [range_of_hasRegion hr, Range.inMemory_iff]
  refine ⟨.inr ?_, fun x hx => ?_⟩
  · by_contra htop
    exact h4 ⟨r, base, n, hr, .inl (Nat.not_le.mp htop)⟩
  · by_contra hpop
    exact h4 ⟨r, base, n, hr, .inr ⟨x, hx.1, hx.2, Bool.not_eq_true _ ▸ hpop⟩⟩

/-- Check (5) passes: the ciphertext region shares no address with another. -/
theorem meets_of_passes (h5 : ¬ s.SealFails 5) :
    ((RegionName.ct.range s).meets (RegionName.pt.range s)
      || (RegionName.ct.range s).meets (RegionName.ad.range s)) = false := by
  rw [Bool.eq_false_iff, ne_eq, Bool.or_eq_true, Range.meets_iff, Range.meets_iff]
  simp only [range_has_iff_of_held h2 h3]
  rintro (⟨x, hct, hpt⟩ | ⟨x, hct, had⟩)
  · exact h5 ⟨x, hct, .inl hpt⟩
  · exact h5 ⟨x, hct, .inr had⟩

end Held

/-! ## The checks in order -/

/-- Once checks (1) to (3) pass, the regions decide. -/
theorem sealCheck_of_held (hb : s.busy = false) (h2 : ¬ s.SealFails 2) (h3 : ¬ s.SealFails 3) :
    sealCheck s =
      if !((RegionName.pt.range s).inMemory s.plat && (RegionName.ct.range s).inMemory s.plat
          && (RegionName.ad.range s).inMemory s.plat) then
        some .rfRegion
      else if (RegionName.ct.range s).meets (RegionName.pt.range s)
          || (RegionName.ct.range s).meets (RegionName.ad.range s) then
        some .rfOverlap
      else if !((RegionName.pt.range s).written s.MEM && (RegionName.ad.range s).written s.MEM) then
        some .rfNoValue
      else none := by
  have hheld : ¬ (!s.host.KEY.held || !s.host.IV.held || !s.host.PT_BLOCKS.held || !s.host.AD_BLOCKS.held) = true := by
    simpa [State.SealFails, and_assoc] using h2
  have hbased : ¬ ((decide (0 < s.ptBlocks) && (!s.host.PT_ADDR.held || !s.host.CT_ADDR.held))
      || (decide (0 < s.adBlocks) && !s.host.AD_ADDR.held)) = true := by
    simp only [Bool.or_eq_true, Bool.and_eq_true, decide_eq_true_eq, Bool.not_eq_true']
    rintro (⟨hpos, hnot⟩ | ⟨hpos, hnot⟩)
    · exact h3 (.inl ⟨_, Reg.holding_of_pos hpos, hpos, hnot⟩)
    · exact h3 (.inr ⟨_, Reg.holding_of_pos hpos, hpos, hnot⟩)
  rw [sealCheck, hb, if_neg Bool.false_ne_true, if_neg hheld, if_neg hbased]

/-- The first check of R122 that fails decides the reason. -/
theorem sealCheck_of_first_failure {k : Nat} (hk : s.SealFails k) (hpass : ∀ j < k, ¬ s.SealFails j) :
    sealCheck s = some (sealReason k) := by
  have idle (h : 1 < k) : s.busy = false := Bool.not_eq_true _ ▸ hpass 1 h
  match k with
  | 1 => exact if_pos hk
  | 2 => exact sealCheck_noValue (idle (by decide)) (.inl hk)
  | 3 => exact sealCheck_noValue (idle (by decide)) (.inr hk)
  | 4 =>
    rw [sealCheck_of_held (idle (by decide)) (hpass 2 (by decide)) (hpass 3 (by decide))]
    obtain ⟨r, base, n, hr, hout⟩ := hk
    have hmem : (r.range s).inMemory s.plat ≠ true := by
      rw [range_of_hasRegion hr, ne_eq, Range.inMemory_iff]
      rintro ⟨htop, hpop⟩
      obtain ⟨-, -, hpos⟩ := hr
      rcases hout with hout | ⟨x, hlow, hhigh, hx⟩
      · simp only at htop
        omega
      · rw [hpop x ⟨hlow, hhigh⟩] at hx
        cases hx
    refine if_pos ?_
    cases r <;> simp [Bool.eq_false_iff.mpr hmem]
  | 5 =>
    have h2 := hpass 2 (by decide)
    have h3 := hpass 3 (by decide)
    have hmem := inMemory_of_passes h2 h3 (hpass 4 (by decide))
    rw [sealCheck_of_held (idle (by decide)) h2 h3, if_neg (by simp [hmem])]
    obtain ⟨x, hct, hother⟩ := hk
    have hmeets {r : RegionName} (hr : s.InRegion r x) : (RegionName.ct.range s).meets (r.range s) = true :=
      (Range.meets_iff _ _).mpr ⟨x, range_has_of_inRegion hct, range_has_of_inRegion hr⟩
    refine if_pos ?_
    rcases hother with hpt | had
    · rw [hmeets hpt, Bool.true_or]
    · rw [hmeets had, Bool.or_true]
  | 6 =>
    have h2 := hpass 2 (by decide)
    have h3 := hpass 3 (by decide)
    have hmem := inMemory_of_passes h2 h3 (hpass 4 (by decide))
    rw [sealCheck_of_held (idle (by decide)) h2 h3, if_neg (by simp [hmem]),
      meets_of_passes h2 h3 (hpass 5 (by decide)), if_neg Bool.false_ne_true]
    obtain ⟨x, hother, hx⟩ := hk
    have hwritten {r : RegionName} (hr : s.InRegion r x) : (r.range s).written s.MEM = false := by
      rw [Bool.eq_false_iff, ne_eq, Range.written_iff]
      intro h
      have hsome := h x (range_has_of_inRegion hr)
      rw [hx] at hsome
      cases hsome
    refine if_pos ?_
    rcases hother with hpt | had
    · simp [hwritten hpt]
    · simp [hwritten had]
  | 0 | _ + 7 => exact hk.elim

theorem execSeal_refused {reason : Refusal} (h : sealCheck s = some reason) : execSeal s = .refused reason := by
  rw [execSeal, h]

theorem hostWrite_seal_refused {reason : Refusal} (h : sealCheck s = some reason) :
    hostWrite 10 2 s = .refused reason := by
  cases hb : s.busy with
  | true =>
    have hbusy : sealCheck s = some .rfBusy := if_pos hb
    rw [hostWrite_busy 10 2 hb, Option.some.inj (h.symm.trans hbusy)]
  | false =>
    refine (hostWrite_word .sealMessage hb).trans ?_
    rw [Command.check, h, Option.elim_some]

/-- CW is at most 57, so the counts that the invariant allows are below 2^57 (R6). -/
theorem State.Inv.count_small (h : s.Inv) {v : Nat} (hv : v < 2 ^ s.plat.CW) : v < 2 ^ 57 :=
  hv.trans_le (Nat.pow_le_pow_right (by decide) h.plat.2)

/-- Settles O38: the reason by the first check that fails (`sealCheck_of_first_failure`), the completion by
`execSeal_completes`. -/
theorem sealChecksInOrder : Obligations.SealChecksInOrder := by
  refine fun s => ⟨fun k hk hpass => ?_, fun hi hpass => ?_⟩
  · have hcheck := sealCheck_of_first_failure hk hpass
    exact ⟨execSeal_refused hcheck, hostWrite_seal_refused hcheck⟩
  · obtain ⟨key, iv, p, a, hacc⟩ := accepted_of_passes hpass
    obtain ⟨t, ht⟩ := execSeal_completes hacc
      (hi.count_small (hi.host.ptBlocks p (Reg.value_eq_some.mpr hacc.ptBlocks)))
      (hi.count_small (hi.host.adBlocks a (Reg.value_eq_some.mpr hacc.adBlocks)))
    obtain ⟨-, v, -, rfl⟩ := execSeal_next ht
    exact ⟨_, ht, busy_complete v, isDone_complete v⟩

end Sys2Proof.Machine
end

section
/-! SUPPORT. The blocks of a region in memory: read and written one after another (R31, R55). -/

namespace Sys2Proof.Machine

/-- Blocks written one after another from `a` on. -/
def Memory.writeBlocks (m : Memory) (a : Nat) : List Block → Memory
  | [] => m
  | b :: bs => Memory.writeBlocks (m.writeBlock a b) (a + 16) bs

@[simp] theorem Memory.writeBlocks_nil (m : Memory) (a : Nat) : m.writeBlocks a [] = m := rfl

theorem Memory.writeBlocks_concat (m : Memory) (a : Nat) (bs : List Block) (b : Block) :
    m.writeBlocks a (bs ++ [b]) = (m.writeBlocks a bs).writeBlock (a + 16 * bs.length) b := by
  induction bs generalizing m a with
  | nil => rfl
  | cons c bs ih =>
    rw [List.cons_append, writeBlocks, ih, writeBlocks, List.length_cons]
    congr 1
    omega

theorem Memory.read_writeBlocks_outside (m : Memory) {a x : Nat} {bs : List Block}
    (h : ¬ (a ≤ x ∧ x < a + 16 * bs.length)) : (m.writeBlocks a bs).read x = m.read x := by
  induction bs generalizing m a with
  | nil => rfl
  | cons b bs ih =>
    rw [List.length_cons] at h
    rw [writeBlocks, ih _ (by omega), read_writeBlock, if_neg (by omega)]

theorem Memory.readBlock_writeBlocks (m : Memory) (a : Nat) (bs : List Block) {i : Nat} (hi : i < bs.length) :
    (m.writeBlocks a bs).readBlock (a + 16 * i) = some bs[i] := by
  induction bs generalizing m a i with
  | nil => exact absurd hi (Nat.not_lt_zero i)
  | cons b bs ih =>
    rw [writeBlocks]
    cases i with
    | zero =>
      rw [List.getElem_cons_zero, ← readBlock_writeBlock_same m a b]
      exact readBlock_congr fun k hk => read_writeBlocks_outside _ (by omega)
    | succ i =>
      rw [List.getElem_cons_succ, ← ih (m.writeBlock a b) (a + 16) (Nat.lt_of_succ_lt_succ hi)]
      congr 1
      omega

/-- Blocks are read exactly when each of them is. -/
theorem Memory.readBlocks_eq_some {m : Memory} {a n : Nat} {bs : List Block} :
    m.readBlocks a n = some bs ↔ bs.length = n ∧ ∀ i (hi : i < bs.length), m.readBlock (a + 16 * i) = some bs[i] := by
  induction n generalizing a bs with
  | zero =>
    rw [readBlocks, Option.some.injEq, List.length_eq_zero_iff, eq_comm]
    exact ⟨fun h => ⟨h, by simp [h]⟩, And.left⟩
  | succ n ih =>
    have hnext (i : Nat) : a + 16 + 16 * i = a + 16 * (i + 1) := by omega
    rw [readBlocks]
    constructor
    · intro h
      split at h
      next b bs' hb hbs =>
        cases h
        obtain ⟨hlen, hall⟩ := ih.mp hbs
        refine ⟨congrArg (· + 1) hlen, fun i hi => ?_⟩
        cases i with
        | zero => exact hb
        | succ i =>
          rw [← hnext]
          exact hall i (Nat.lt_of_succ_lt_succ hi)
      · cases h
    · rintro ⟨hlen, hall⟩
      cases bs with
      | nil => cases hlen
      | cons b bs =>
        have hb : m.readBlock a = some b := hall 0 (Nat.zero_lt_succ _)
        have hbs : m.readBlocks (a + 16) n = some bs :=
          ih.mpr ⟨Nat.succ.inj hlen, fun i hi => by
            rw [hnext]
            exact hall (i + 1) (Nat.succ_lt_succ hi)⟩
        rw [hb, hbs]

theorem Memory.readBlocks_of_readBlock {m : Memory} {a n : Nat} (h : ∀ i < n, ∃ b, m.readBlock (a + 16 * i) = some b) :
    ∃ bs, m.readBlocks a n = some bs := by
  choose f hf using h
  refine ⟨List.ofFn fun i : Fin n => f i i.isLt, readBlocks_eq_some.mpr ⟨List.length_ofFn, fun i hi => ?_⟩⟩
  rw [List.getElem_ofFn]
  exact hf i _

/-- Blocks written from an address on are the blocks read there. -/
theorem Memory.readBlocks_writeBlocks (m : Memory) (a : Nat) (bs : List Block) :
    (m.writeBlocks a bs).readBlocks a bs.length = some bs :=
  readBlocks_eq_some.mpr ⟨rfl, fun _ => readBlock_writeBlocks m a bs⟩

end Sys2Proof.Machine
end

section
/-! SUPPORT. SEAL from its issue to its completion, phase by phase: what each phase computes (R120), and so the state
that an accepted SEAL leaves. -/

namespace Sys2Proof.Machine

variable {s v : State} {key : Block} {iv : Nonce} {rk : Schedule} {m : Memory}

/-! ## The ciphertext and the hash -/

@[simp] theorem length_sealCiphertext (rk : Schedule) (iv : Nonce) (pts : List Block) :
    (sealCiphertext rk iv pts).length = pts.length := List.length_mapIdx

/-- SEAL's ciphertext is GCTR from the counter block after J0 (R116, R120). -/
theorem sealCiphertext_eq_gctrBlocks (rk : Schedule) (iv : Nonce) (pts : List Block) :
    sealCiphertext rk iv pts = gctrBlocks rk (counterBlock iv 1) pts := by
  refine List.ext_getElem (by simp) fun i hi _ => ?_
  rw [length_sealCiphertext] at hi
  rw [getElem_gctrBlocks _ _ _ hi, ← iterate_incrementCounter_initialCounter, ← Function.iterate_add_apply,
    iterate_incrementCounter_initialCounter]
  exact List.getElem_mapIdx

theorem sealCiphertext_take_succ (rk : Schedule) (iv : Nonce) (pts : List Block) {i : Nat} (hi : i < pts.length) :
    (sealCiphertext rk iv pts).take (i + 1)
      = (sealCiphertext rk iv pts).take i ++ [pts[i] ^^^ cipherBlock rk (counterBlock iv (i + 1))] := by
  rw [List.take_succ_eq_append_getElem (by simpa using hi)]
  congr 2
  exact List.getElem_mapIdx

theorem ghashFrom_append (h y : Block) (xs zs : List Block) :
    ghashFrom h y (xs ++ zs) = ghashFrom h (ghashFrom h y xs) zs := List.foldl_append

/-! ## The phases -/

/-- `v` is a state of the SEAL issued in `s`, with the memory `m`, between HSUB and the completion: RK holds the
schedule `rk`, and H its hash subkey. -/
structure Sealing (s v : State) (rk : Schedule) (m : Memory) : Prop where
  carries : Carries s v
  mem : v.MEM = m
  schedule : v.dp.RK.val = rk
  subkey : v.dp.H.val = cipherBlock rk 0

/-- Other scratch registers than RK and H do not matter. -/
theorem Sealing.withDp (h : Sealing s v rk m) {d : Datapath} (hRK : d.RK = v.dp.RK) (hH : d.H = v.dp.H) :
    Sealing s (v.withDp d) rk m :=
  ⟨h.carries.trans (.of_scratch v d v.out), h.mem, (congrArg Reg.val hRK).trans h.schedule,
    (congrArg Reg.val hH).trans h.subkey⟩

theorem Sealing.deliver (h : Sealing s v rk m) (o : OpOut) : Sealing s (v.deliver o) rk m :=
  ⟨h.carries.trans (.of_scratch v v.dp _), h.mem, h.schedule, h.subkey⟩

/-- KEXP, HSUB and the counter block for the first block. -/
theorem sealStart_sealing (hKEY : s.host.KEY = .holding key) (hIV : s.host.IV = .holding iv) :
    ∃ v, sealStart s = .next v ∧ Sealing s v (expandKey key) s.MEM ∧ v.dp.CB.val = counterBlock iv 1 := by
  have hCB : incrementCounter (initialCounter iv) = counterBlock iv 1 := incrementCounter_counterBlock iv 0
  simp only [sealStart, opKexp_eq, opHsub_eq, opMkj0_eq, opInc32_eq, andThen_next]
  refine ⟨_, rfl, ⟨.of_scratch s _ _, rfl, ?_, ?_⟩, ?_⟩
  · simp [hKEY]
  · simp [hKEY]
  · simp [hIV, hCB]

/-- Block `i` of PHASE GCTR (R120). -/
theorem sealGctrBlock_eq {i : Nat} {x : Block} (hx : v.MEM.readBlock (RegionName.pt.block i v) = some x) :
    sealGctrBlock i v = .next
      ((((v.withDp (v.dp.setX (.holding x)).gctrRound).withMem
        (v.MEM.writeBlock (RegionName.ct.block i v) (x ^^^ cipherBlock v.dp.RK.val v.dp.CB.val))).deliver
          (.block (x ^^^ cipherBlock v.dp.RK.val v.dp.CB.val)))) := by
  have hload : loadBlock .pt i v = .next (v.withDp (v.dp.setX (.holding x))) := by rw [loadBlock, hx, reading_some]
  simp only [sealGctrBlock, hload, keystream_eq, xorKeystream_eq, storeBlock, opInc32_eq, andThen_next, withMem_dp,
    deliver_MEM, deliver_block_portBlock, deliver_dp, withDp_dp, Datapath.setKS_X, Datapath.setS_X, Datapath.setKS_KS,
    Reg.holding_val, withDp_MEM, Datapath.setKS_CB, Datapath.setS_CB, Datapath.setX_RK, Datapath.setX_CB,
    withDp_withDp, Datapath.setX_X, Datapath.gctrRound]
  rfl

theorem sealGctrBlock_sealing (h : Sealing s v rk m) {i : Nat} {x : Block}
    (hx : m.readBlock (RegionName.pt.block i s) = some x) :
    ∃ w, sealGctrBlock i v = .next w
      ∧ Sealing s w rk (m.writeBlock (RegionName.ct.block i s) (x ^^^ cipherBlock rk v.dp.CB.val))
      ∧ w.dp.CB.val = incrementCounter v.dp.CB.val := by
  rw [← h.carries.block, ← h.mem] at hx
  rw [← h.carries.block .ct, ← h.mem]
  refine ⟨_, sealGctrBlock_eq hx, ⟨h.carries.trans ⟨rfl, rfl, rfl, rfl, rfl, rfl, rfl, rfl⟩, ?_, ?_, ?_⟩, ?_⟩
  · simp [h.schedule]
  · simp [Datapath.gctrRound, h.schedule]
  · simp [Datapath.gctrRound, h.subkey]
  · simp [Datapath.gctrRound]

/-- PHASE GCTR, its loads being there and its stores going where they must. -/
theorem gctrPhase_sealing {Ac : Nat} {pts : List Block} (h : Sealing s v rk m)
    (hCB : v.dp.CB.val = counterBlock iv 1)
    (hload : ∀ i (hi : i < pts.length),
      (m.writeBlocks Ac ((sealCiphertext rk iv pts).take i)).readBlock (RegionName.pt.block i s) = some pts[i])
    (hstore : ∀ i < pts.length, RegionName.ct.block i s = Ac + 16 * i) :
    ∃ w, forBlocks sealGctrBlock pts.length 0 v = .next w
      ∧ Sealing s w rk (m.writeBlocks Ac (sealCiphertext rk iv pts)) := by
  obtain ⟨w, hw, hs, -⟩ := forBlocks_next
    (P := fun i u => Sealing s u rk (m.writeBlocks Ac ((sealCiphertext rk iv pts).take i))
      ∧ u.dp.CB.val = counterBlock iv (i + 1))
    pts.length 0 v ⟨h, hCB⟩ fun i u _ hi ⟨hu, hc⟩ => by
      rw [Nat.zero_add] at hi
      obtain ⟨w, hw, hs, hcw⟩ := sealGctrBlock_sealing hu (hload i hi)
      refine ⟨w, hw, ?_, by rw [hcw, hc, incrementCounter_counterBlock]⟩
      have hlen : ((sealCiphertext rk iv pts).take i).length = i := by simpa using Nat.le_of_lt hi
      rw [sealCiphertext_take_succ rk iv pts hi, Memory.writeBlocks_concat, hlen, ← hstore i hi, ← hc]
      exact hs
  refine ⟨w, hw, ?_⟩
  rwa [Nat.zero_add, List.take_of_length_le (by simp)] at hs

/-- A block hashed. -/
theorem hashBlock_sealing (h : Sealing s v rk m) (x : Block) :
    ∃ w, hashBlock x v = .next w ∧ Sealing s w rk m
      ∧ w.dp.Y.val = gfMul (cipherBlock rk 0) (v.dp.Y.val ^^^ x) := by
  rw [hashBlock_eq, ← h.subkey]
  refine ⟨_, rfl, (h.withDp ?_ ?_).deliver _, ?_⟩ <;> simp

theorem sealHashBlock_eq {r : RegionName} {i : Nat} {x : Block} (hx : v.MEM.readBlock (r.block i v) = some x) :
    sealHashBlock r i v = hashBlock x (v.withDp (v.dp.setX (.holding x))) := by
  rw [sealHashBlock, loadBlock, hx, reading_some, andThen_next, withDp_dp, Datapath.setX_X, Reg.holding_val]

/-- PHASE GHASH_AD or GHASH_CT, its loads being there. -/
theorem hashPhase_sealing {r : RegionName} {xs : List Block} (h : Sealing s v rk m)
    (hload : ∀ i (hi : i < xs.length), m.readBlock (r.block i s) = some xs[i]) :
    ∃ w, forBlocks (sealHashBlock r) xs.length 0 v = .next w ∧ Sealing s w rk m
      ∧ w.dp.Y.val = ghashFrom (cipherBlock rk 0) v.dp.Y.val xs := by
  obtain ⟨w, hw, hs, hY⟩ := forBlocks_next (f := sealHashBlock r)
    (P := fun i u => Sealing s u rk m ∧ u.dp.Y.val = ghashFrom (cipherBlock rk 0) v.dp.Y.val (xs.take i))
    xs.length 0 v ⟨h, rfl⟩ fun i u _ hi ⟨hu, hY⟩ => by
      rw [Nat.zero_add] at hi
      have hx : u.MEM.readBlock (r.block i u) = some xs[i] := by rw [hu.carries.block, hu.mem, hload i hi]
      obtain ⟨w, hw, hs, hYw⟩ := hashBlock_sealing (hu.withDp (d := u.dp.setX (.holding xs[i])) rfl rfl) xs[i]
      rw [withDp_dp, Datapath.setX_Y, hY, ← ghashFrom_take_succ _ _ _ hi] at hYw
      exact ⟨w, (sealHashBlock_eq hx).trans hw, hs, hYw⟩
  refine ⟨w, hw, hs, ?_⟩
  rwa [Nat.zero_add, List.take_length] at hY

/-- PHASE GHASH_LEN. -/
theorem lengthPhase_sealing (h : Sealing s v rk m) (hlen : s.adBlocks < 2 ^ 57 ∧ s.ptBlocks < 2 ^ 57) :
    ∃ w, sealHashLength v = .next w ∧ Sealing s w rk m
      ∧ w.dp.Y.val = gfMul (cipherBlock rk 0) (v.dp.Y.val ^^^ lengthBlock s.adBlocks s.ptBlocks) := by
  rw [sealHashLength, h.carries.adBlocks, h.carries.ptBlocks, opLenblk_eq hlen, andThen_next]
  exact hashBlock_sealing (h.withDp (d := v.dp.setLB (.holding (lengthBlock s.adBlocks s.ptBlocks))) rfl rfl) _

/-- PHASE TAGENC. -/
theorem tagPhase_sealing (h : Sealing s v rk m) (hIV : s.host.IV = .holding iv) :
    ∃ w, opTagenc v = .next w ∧ Sealing s w rk m
      ∧ w.host.TAG = .holding (v.dp.Y.val ^^^ cipherBlock rk (counterBlock iv 0)) := by
  have hJ0 : initialCounter v.host.IV.val = counterBlock iv 0 := by
    rw [h.carries.operands.iv, hIV]
    rfl
  refine ⟨_, opTagenc_eq hJ0 rfl,
    ⟨h.carries.trans ⟨rfl, rfl, rfl, rfl, rfl, rfl, rfl, rfl⟩, h.mem, h.schedule, h.subkey⟩, ?_⟩
  rw [← h.schedule]
  rfl

/-! ## The whole command -/

/-- A completion keeps of a state what `Carries` does not speak of: memory and TAG. -/
theorem complete_of_carries (h : Carries s v) :
    complete v = complete ((s.withHost (s.host.setTAG v.host.TAG)).withMem v.MEM) := by
  have hv : v = { (s.withHost (s.host.setTAG v.host.TAG)).withMem v.MEM with dp := v.dp, out := v.out } :=
    (State.mk.injEq ..).mpr
      ⟨h.plat, h.host, h.status, h.seq, rfl, rfl, h.unseen, rfl, h.agenda, h.replies, h.drawn⟩
  rw [hv]
  rfl

/-- What a SEAL leaves whose tag is `tag` and which leaves the memory `m`. -/
def sealed (s : State) (tag : Block) (m : Memory) : State :=
  complete (((issue .sealMessage s).withHost ((issue .sealMessage s).host.setTAG (.holding tag))).withMem m)

/-- What the phases of a SEAL need of the state `s` that its issue leaves: operands, counts, the blocks it loads from
memory as its stores leave it, and where its stores go. -/
structure SealReady (s : State) (key : Block) (iv : Nonce) (Ac : Nat) (pts ads : List Block) : Prop where
  holdsKey : s.host.KEY = .holding key
  holdsIV : s.host.IV = .holding iv
  ptBlocks : s.ptBlocks = pts.length
  adBlocks : s.adBlocks = ads.length
  small : pts.length < 2 ^ 57 ∧ ads.length < 2 ^ 57
  plaintext : ∀ i (hi : i < pts.length),
    (s.MEM.writeBlocks Ac ((sealCiphertext (expandKey key) iv pts).take i)).readBlock (RegionName.pt.block i s)
      = some pts[i]
  stores : ∀ i < pts.length, RegionName.ct.block i s = Ac + 16 * i
  associated : ∀ i (hi : i < ads.length),
    (s.MEM.writeBlocks Ac (sealCiphertext (expandKey key) iv pts)).readBlock (RegionName.ad.block i s) = some ads[i]

/-- SEAL from its issue on, up to its completion: the phases one after another. -/
theorem runSeal_of_ready {Ac : Nat} {pts ads : List Block} (h : SealReady s key iv Ac pts ads) :
    ∃ v, runSeal s = opFinish v ∧ Carries s v
      ∧ v.MEM = s.MEM.writeBlocks Ac (sealCiphertext (expandKey key) iv pts)
      ∧ v.host.TAG = .holding (sealTag (expandKey key) iv ads (sealCiphertext (expandKey key) iv pts)) := by
  obtain ⟨v1, h1, s1, hCB⟩ := sealStart_sealing h.holdsKey h.holdsIV
  obtain ⟨v2, h2, s2⟩ := gctrPhase_sealing s1 hCB h.plaintext h.stores
  obtain ⟨v3, h3, s3, hY3⟩ : ∃ v3, opClearY v2 = .next v3 ∧ Sealing s v3 (expandKey key) _ ∧ v3.dp.Y.val = 0 :=
    ⟨_, rfl, s2.withDp (d := v2.dp.setY (.holding 0)) rfl rfl, rfl⟩
  obtain ⟨v4, h4, s4, hY4⟩ := hashPhase_sealing s3 h.associated
  obtain ⟨v5, h5, s5, hY5⟩ := hashPhase_sealing (r := .ct) (xs := sealCiphertext (expandKey key) iv pts) s4
    fun i hi => by
      rw [h.stores i (by simpa using hi)]
      exact Memory.readBlock_writeBlocks _ _ _ hi
  obtain ⟨v6, h6, s6, hY6⟩ := lengthPhase_sealing s5 (by rw [h.adBlocks, h.ptBlocks]; exact h.small.symm)
  obtain ⟨v7, h7, s7, hTAG⟩ := tagPhase_sealing s6 h.holdsIV
  rw [length_sealCiphertext] at h5
  refine ⟨v7, ?_, s7.carries, s7.mem, ?_⟩
  · rw [runSeal_eq, h1, andThen_next, s1.carries.ptBlocks, h.ptBlocks, h2, andThen_next, h3, andThen_next,
      s3.carries.adBlocks, h.adBlocks, h4, andThen_next, s4.carries.ptBlocks, h.ptBlocks, h5, andThen_next, h6,
      andThen_next, h7, andThen_next]
  · rw [hTAG, sealTag, hY6, hY5, hY4, hY3, ghashFrom_append, ghashFrom_append, length_sealCiphertext, h.adBlocks,
      h.ptBlocks]
    rfl

section Accepted

variable {Ap Ac Aa : Nat} {pts ads : List Block} (h : SealOperands s key iv Ap Ac Aa pts ads)
include h

theorem SealOperands.ptBlocks_eq : s.ptBlocks = pts.length := by rw [State.ptBlocks, h.ptBlocks]; rfl

theorem SealOperands.adBlocks_eq : s.adBlocks = ads.length := by rw [State.adBlocks, h.adBlocks]; rfl

/-- The blocks of the regions, by the operands (R55). -/
theorem SealOperands.block_eq :
    (∀ i < pts.length, RegionName.pt.block i s = Ap + 16 * i ∧ RegionName.ct.block i s = Ac + 16 * i)
      ∧ ∀ i < ads.length, RegionName.ad.block i s = Aa + 16 * i := by
  refine ⟨fun i hi => ⟨?_, ?_⟩, fun i hi => ?_⟩
  · exact block_of_base (Reg.value_eq_some.mpr (h.ptAddr (by omega)))
  · exact block_of_base (Reg.value_eq_some.mpr (h.ctAddr (by omega)))
  · exact block_of_base (Reg.value_eq_some.mpr (h.adAddr (by omega)))

/-- The ciphertext region, by the operands (R31). -/
theorem SealOperands.inRegion_ct {x : Nat} : s.InRegion .ct x ↔ Ac ≤ x ∧ x < Ac + 16 * pts.length := by
  have hcount : RegionName.ct.count s = some pts.length := Reg.value_eq_some.mpr h.ptBlocks
  constructor
  · rintro ⟨base, n, hbase, hn, hx⟩
    obtain rfl : pts.length = n := Option.some.inj (hcount.symm.trans hn)
    obtain rfl : Ac = base := Option.some.inj
      ((Reg.value_eq_some.mpr (h.ctAddr (by omega))).symm.trans hbase)
    exact hx
  · exact fun hx => ⟨Ac, pts.length, Reg.value_eq_some.mpr (h.ctAddr (by omega)), hcount, hx⟩

/-- Blocks stored in the ciphertext region leave the blocks of the other regions as they are (R38). -/
theorem SealOperands.readBlock_kept {r : RegionName} (hr : r ≠ .ct) {i : Nat} (hi : i < r.blocks s) {os : List Block}
    (hos : os.length ≤ pts.length) :
    (s.MEM.writeBlocks Ac os).readBlock (r.block i s) = s.MEM.readBlock (r.block i s) := by
  obtain ⟨_, _, _, _, hacc⟩ := accepted_of_passes h.passes
  obtain ⟨n, hcount, hbase⟩ := hacc.counted r
  rw [blocks_of_count hcount] at hi
  refine Memory.readBlock_congr fun k hk => Memory.read_writeBlocks_outside _ fun hx => ?_
  obtain ⟨hpt, had⟩ := hacc.regionsSound.apart (r.block i s + k) (h.inRegion_ct.mpr (by omega))
  have hin := inRegion_block hcount hbase hi hk
  cases r with
  | pt => exact hpt hin
  | ct => exact hr rfl
  | ad => exact had hin

theorem SealOperands.plaintext_kept {os : List Block} (hos : os.length ≤ pts.length) {i : Nat} (hi : i < pts.length) :
    (s.MEM.writeBlocks Ac os).readBlock (Ap + 16 * i) = some pts[i] := by
  have hkept := h.readBlock_kept (r := .pt) (by decide) (i := i) (hi.trans_eq h.ptBlocks_eq.symm) hos
  rw [(h.block_eq.1 i hi).1] at hkept
  exact hkept.trans ((Memory.readBlocks_eq_some.mp h.plaintext).2 i hi)

theorem SealOperands.associated_kept {os : List Block} (hos : os.length ≤ pts.length) {i : Nat} (hi : i < ads.length) :
    (s.MEM.writeBlocks Ac os).readBlock (Aa + 16 * i) = some ads[i] := by
  have hkept := h.readBlock_kept (r := .ad) (by decide) (i := i) (hi.trans_eq h.adBlocks_eq.symm) hos
  rw [h.block_eq.2 i hi] at hkept
  exact hkept.trans ((Memory.readBlocks_eq_some.mp h.associated).2 i hi)

/-- The issue of a SEAL whose checks pass leaves its phases what they need. -/
theorem SealOperands.ready : SealReady (issue .sealMessage s) key iv Ac pts ads where
  holdsKey := h.key
  holdsIV := h.iv
  ptBlocks := h.ptBlocks_eq
  adBlocks := h.adBlocks_eq
  small := h.small
  plaintext i hi := by
    refine (congrArg _ (h.block_eq.1 i hi).1).trans (h.plaintext_kept ?_ hi)
    rw [List.length_take, length_sealCiphertext]
    exact Nat.min_le_right _ _
  stores i hi := (h.block_eq.1 i hi).2
  associated i hi := (congrArg _ (h.block_eq.2 i hi)).trans (h.associated_kept (length_sealCiphertext _ _ _).le hi)

/-- What an accepted SEAL leaves. -/
theorem execSeal_eq_sealed :
    execSeal s = .next (sealed s
      (sealTag (expandKey key) iv ads (sealCiphertext (expandKey key) iv pts))
      (s.MEM.writeBlocks Ac (sealCiphertext (expandKey key) iv pts))) := by
  obtain ⟨v, hrun, hc, hmem, hTAG⟩ := runSeal_of_ready h.ready
  have hop : v.seq.pos.op = some .sealMessage := by rw [hc.seq]; rfl
  rw [execSeal, sealCheck_eq_none_iff.mpr h.passes]
  refine hrun.trans ?_
  rw [opFinish, hop]
  refine congrArg _ ((complete_of_carries hc).trans ?_)
  rw [hTAG, hmem]
  rfl

end Accepted

end Sys2Proof.Machine
end

section
/-! SUPPORT. SEAL as an instruction (R120, R125, R126): what it leaves, what it does not read, and the round trip. -/

namespace Sys2Proof.Machine

variable {s t : State} {key : Block} {iv : Nonce} {Ap Ac Aa : Nat} {pts ads : List Block}

/-! ## Every SEAL that completes starts from operands -/

/-- A SEAL whose phases answer next got its length block (R110). -/
theorem runSeal_small (h : runSeal s = .next t) : s.adBlocks < 2 ^ 57 ∧ s.ptBlocks < 2 ^ 57 := by
  rw [runSeal_eq] at h
  obtain ⟨v1, h1, c1, -⟩ := sealStart_next s
  rw [h1, andThen_next] at h
  obtain ⟨v2, h2, h⟩ := andThen_eq_next.mp h
  obtain ⟨v3, h3, h⟩ := andThen_eq_next.mp h
  obtain ⟨v4, h4, h⟩ := andThen_eq_next.mp h
  obtain ⟨v5, h5, h⟩ := andThen_eq_next.mp h
  obtain ⟨v6, h6, -⟩ := andThen_eq_next.mp h
  have c3 : Carries v2 v3 := by
    cases h3
    exact .of_scratch v2 _ _
  have hc := c1.trans <| (loop_gctr.carries _ _ _ _ h2).trans <| c3.trans <|
    (loop_hashAd.carries _ _ _ _ h4).trans (loop_hashCt.carries _ _ _ _ h5)
  rw [sealHashLength, opLenblk, hc.adBlocks, hc.ptBlocks] at h6
  by_contra hlarge
  rw [if_neg hlarge] at h6
  cases h6

/-- The plaintext and the associated data of an accepted SEAL are there. -/
theorem SealAccepted.readBlocks {p a : Nat} (h : SealAccepted s key iv p a) {r : RegionName} (hr : r ≠ .ct) :
    ∃ bs, s.MEM.readBlocks (r.baseReg s).val (r.blocks s) = some bs :=
  Memory.readBlocks_of_readBlock fun _ hi => Memory.readBlock_of_bytes fun _ hk => h.block_written hr hi hk

theorem execSeal_operands (h : execSeal s = .next t) :
    ∃ key iv pts ads,
      SealOperands s key iv s.host.PT_ADDR.val s.host.CT_ADDR.val s.host.AD_ADDR.val pts ads := by
  have hcheck := (execSeal_next h).1
  rw [execSeal, hcheck] at h
  obtain ⟨had, hpt⟩ := runSeal_small (s := issue .sealMessage s) h
  obtain ⟨key, iv, p, a, hacc⟩ := sealCheck_eq_none_iff_accepted.mp hcheck
  obtain ⟨pts, hpts⟩ := hacc.readBlocks (r := .pt) (by decide)
  obtain ⟨ads, hads⟩ := hacc.readBlocks (r := .ad) (by decide)
  have hp : RegionName.pt.blocks s = p := blocks_of_count (Reg.value_eq_some.mpr hacc.ptBlocks)
  have ha : RegionName.ad.blocks s = a := blocks_of_count (Reg.value_eq_some.mpr hacc.adBlocks)
  obtain ⟨hplen, -⟩ := Memory.readBlocks_eq_some.mp hpts
  obtain ⟨halen, -⟩ := Memory.readBlocks_eq_some.mp hads
  exact ⟨key, iv, pts, ads,
    { passes := hacc.passes, key := hacc.key, iv := hacc.iv
      ptBlocks := by rw [hplen, hp, hacc.ptBlocks]
      adBlocks := by rw [halen, ha, hacc.adBlocks]
      ptAddr := fun h0 => Reg.eq_holding_of_held (hacc.ptBased (by omega)).1
      ctAddr := fun h0 => Reg.eq_holding_of_held (hacc.ptBased (by omega)).2
      adAddr := fun h0 => Reg.eq_holding_of_held (hacc.adBased (by omega))
      plaintext := by rw [hplen]; exact hpts
      associated := by rw [halen]; exact hads
      small := ⟨hplen ▸ hpt, halen ▸ had⟩ }⟩

/-! ## The result (R120) -/

/-- The state a SEAL leaves, field by field. -/
theorem sealed_eq (s : State) (tag : Block) (m : Memory) :
    sealed s tag m =
      { s with
        host := { s.host with DOUT := .blank s.host.DOUT.val, TAG := .holding tag }
        STATUS := (s.STATUS &&& ~~~3#32) ||| 2#32
        seq := .idle
        dp := .leftBy s.drawn
        MEM := m
        unseen := (issue .sealMessage s).unseenAtCompletion
        out := none
        drawn := s.drawn + 1 } := by
  rw [← statusAtCompletion_statusAtIssue]
  rfl

/-- Settles O37: the issue is that of O48 (`commandWriteIssues`), and the whole command leaves the state `sealed`. -/
theorem sealResult : Obligations.SealResult := by
  intro s key iv Ap Ac Aa pts ads h rk cts
  have hb : s.busy = false := Bool.not_eq_true _ ▸ h.passes 1
  constructor
  · obtain ⟨q, x, y, hwrite, hop, hphase⟩ := commandWriteIssues.2 s 2 .sealMessage hb (.inr ⟨rfl, rfl, h.passes⟩)
    exact ⟨q, x, y, hop, hphase, hwrite⟩
  · have hrun := execSeal_eq_sealed h
    have hlen : cts.length = pts.length := length_sealCiphertext _ _ _
    refine ⟨s.MEM.writeBlocks Ac cts, s.host.DOUT.val, .leftBy s.drawn, (issue .sealMessage s).unseenAtCompletion,
      s.drawn + 1, rfl, ?_, rfl, (execSeal_unseen hrun).2, ?_, ?_, ?_, fun x hx => ?_⟩
    · exact hrun.trans (congrArg _ (sealed_eq _ _ _))
    · rw [← hlen]
      exact Memory.readBlocks_writeBlocks _ _ _
    · exact Memory.readBlocks_eq_some.mpr ⟨rfl, fun i hi => h.plaintext_kept hlen.le hi⟩
    · exact Memory.readBlocks_eq_some.mpr ⟨rfl, fun i hi => h.associated_kept hlen.le hi⟩
    · refine Memory.read_writeBlocks_outside _ fun hin => hx (h.inRegion_ct.mpr ?_)
      rwa [hlen] at hin

/-! ## The round trip (R126) -/

/-- Settles O40: what the first SEAL leaves are operands of the second, and SEAL's ciphertext is GCTR, its own
inverse. -/
theorem sealRoundTrip : Obligations.SealRoundTrip := by
  intro s t key iv Ap Ac Aa Ac' pts ads h ht u hu
  have hlen : (sealCiphertext (expandKey key) iv pts).length = pts.length := length_sealCiphertext _ _ _
  rw [exec, execSeal_eq_sealed h] at ht
  obtain rfl := Host.Outcome.next.inj ht
  have hops : SealOperands u key iv Ac Ac' Aa (sealCiphertext (expandKey key) iv pts) ads :=
    { passes := hu, key := h.key, iv := h.iv
      ptBlocks := by rw [hlen]; exact h.ptBlocks
      adBlocks := h.adBlocks
      ptAddr := fun _ => rfl
      ctAddr := fun _ => rfl
      adAddr := h.adAddr
      plaintext := Memory.readBlocks_writeBlocks _ _ _
      associated := Memory.readBlocks_eq_some.mpr ⟨rfl, fun i hi => h.associated_kept hlen.le hi⟩
      small := by rw [hlen]; exact h.small }
  refine ⟨_, execSeal_eq_sealed hops, ?_⟩
  rw [sealCiphertext_eq_gctrBlocks, sealCiphertext_eq_gctrBlocks, gctrBlocks_gctrBlocks]
  exact Memory.readBlocks_writeBlocks _ _ _

/-! ## Zero counts (R125) -/

/-- The tag of no data at all: GHASH of the zero length block is zero. -/
theorem sealTag_nil (rk : Schedule) (iv : Nonce) : sealTag rk iv [] [] = cipherBlock rk (counterBlock iv 0) := by
  have hzero : ghashFrom (cipherBlock rk 0) 0 [lengthBlock 0 0] = 0 :=
    ghashFrom_zeros _ (List.forall_mem_singleton.mpr (by decide))
  show ghashFrom (cipherBlock rk 0) 0 [lengthBlock 0 0] ^^^ _ = _
  rw [hzero]
  exact BitVec.zero_xor

/-- With both counts zero the checks look at BUSY, KEY and IV only. -/
theorem sealOperands_nil (hb : s.busy = false) (hKEY : s.host.KEY = .holding key) (hIV : s.host.IV = .holding iv)
    (hpt : s.host.PT_BLOCKS = .holding 0) (had : s.host.AD_BLOCKS = .holding 0) :
    SealOperands s key iv Ap Ac Aa [] [] where
  passes := by
    have hempty : ({ base := 0, size := 0 } : Range).inMemory s.plat = true := by simp [Range.inMemory_iff, Range.has]
    refine sealCheck_eq_none_iff.mp ?_
    simp [sealCheck, hb, hKEY, hIV, hpt, had, State.ptBlocks, State.adBlocks, RegionName.range, RegionName.blocks,
      hempty, Range.meets, Range.written]
  key := hKEY
  iv := hIV
  ptBlocks := hpt
  adBlocks := had
  ptAddr := by simp
  ctAddr := by simp
  adAddr := by simp
  plaintext := rfl
  associated := rfl
  small := by simp

/-- The checks read the address registers through the ranges and marks of the regions that are not empty. -/
theorem SealAccepted.setAddresses {p a : Nat} (h : SealAccepted s key iv p a) {x y z : Reg Nat}
    (hrange : ∀ r : RegionName,
      r.range (s.withHost (((s.host.setPT_ADDR x).setCT_ADDR y).setAD_ADDR z)) = r.range s)
    (hpt : 0 < p → x.held = true ∧ y.held = true) (had : 0 < a → z.held = true) :
    SealAccepted (s.withHost (((s.host.setPT_ADDR x).setCT_ADDR y).setAD_ADDR z)) key iv p a where
  busy := h.busy
  key := h.key
  iv := h.iv
  ptBlocks := h.ptBlocks
  adBlocks := h.adBlocks
  ptBased := hpt
  adBased := had
  inside r := by rw [hrange]; exact h.inside r
  ctPt := by rw [hrange, hrange]; exact h.ctPt
  ctAd := by rw [hrange, hrange]; exact h.ctAd
  ptWritten := by rw [hrange]; exact h.ptWritten
  adWritten := by rw [hrange]; exact h.adWritten

/-- The address registers of an empty plaintext are no operands (R31). -/
theorem SealOperands.setPT_ADDR (h : SealOperands s key iv Ap Ac Aa [] ads) (x y : Reg Nat) :
    SealOperands (s.withHost ((s.host.setPT_ADDR x).setCT_ADDR y)) key iv Ap Ac Aa [] ads := by
  obtain ⟨key', iv', p, a, hacc⟩ := accepted_of_passes h.passes
  obtain rfl : 0 = p := Reg.holding_inj.mp (h.ptBlocks.symm.trans hacc.ptBlocks)
  have hacc' := hacc.setAddresses (x := x) (y := y) (z := s.host.AD_ADDR)
    (fun r => by
      cases r with
      | pt | ct => exact (if_pos h.ptBlocks_eq).trans (if_pos h.ptBlocks_eq).symm
      | ad => rfl)
    (fun h0 => absurd h0 (Nat.lt_irrefl 0)) hacc.adBased
  exact
    { passes := hacc'.passes, key := h.key, iv := h.iv, ptBlocks := h.ptBlocks, adBlocks := h.adBlocks
      ptAddr := fun h0 => absurd h0 (Nat.lt_irrefl 0)
      ctAddr := fun h0 => absurd h0 (Nat.lt_irrefl 0)
      adAddr := h.adAddr, plaintext := rfl, associated := h.associated, small := h.small }

/-- The address register of empty associated data is no operand (R31). -/
theorem SealOperands.setAD_ADDR (h : SealOperands s key iv Ap Ac Aa pts []) (x : Reg Nat) :
    SealOperands (s.withHost (s.host.setAD_ADDR x)) key iv Ap Ac Aa pts [] := by
  obtain ⟨key', iv', p, a, hacc⟩ := accepted_of_passes h.passes
  obtain rfl : 0 = a := Reg.holding_inj.mp (h.adBlocks.symm.trans hacc.adBlocks)
  have hacc' := hacc.setAddresses (x := s.host.PT_ADDR) (y := s.host.CT_ADDR) (z := x)
    (fun r => by
      cases r with
      | pt | ct => rfl
      | ad => exact (if_pos h.adBlocks_eq).trans (if_pos h.adBlocks_eq).symm)
    hacc.ptBased (fun h0 => absurd h0 (Nat.lt_irrefl 0))
  exact
    { passes := hacc'.passes, key := h.key, iv := h.iv, ptBlocks := h.ptBlocks, adBlocks := h.adBlocks
      ptAddr := h.ptAddr, ctAddr := h.ctAddr
      adAddr := fun h0 => absurd h0 (Nat.lt_irrefl 0)
      plaintext := h.plaintext, associated := rfl, small := h.small }

/-- An empty plaintext leaves no ciphertext to show. -/
theorem unseenAtCompletion_no_blocks (h : s.ptBlocks = 0) :
    (issue .sealMessage s).unseenAtCompletion = { results := true, bytes := s.unseen.bytes } :=
  congrArg (Unseen.mk true) (if_pos h)

/-- Settles O39, by the state `sealed`: what it is with both counts zero, and that the address registers of an empty
region do not come into it. -/
theorem zeroCounts : Obligations.ZeroCounts := by
  refine ⟨fun s key iv hb hKEY hIV hpt had => ?_, fun s t x y hpt ht => ?_, fun s t x had ht => ?_⟩
  · have hops : SealOperands s key iv 0 0 0 [] [] := sealOperands_nil hb hKEY hIV hpt had
    refine ⟨s.host.DOUT.val, .leftBy s.drawn, s.drawn + 1, rfl, (execSeal_eq_sealed hops).trans ?_⟩
    rw [sealed_eq, unseenAtCompletion_no_blocks hops.ptBlocks_eq, ← sealTag_nil]
    rfl
  · obtain ⟨key, iv, pts, ads, hops⟩ := execSeal_operands ht
    obtain rfl : pts = [] := List.length_eq_zero_iff.mp (Reg.holding_inj.mp (hops.ptBlocks.symm.trans hpt))
    obtain rfl := Host.Outcome.next.inj ((execSeal_eq_sealed hops).symm.trans ht)
    have hops' := hops.setPT_ADDR x y
    refine (execSeal_eq_sealed hops').trans ?_
    rw [sealed_eq, sealed_eq, unseenAtCompletion_no_blocks hops'.ptBlocks_eq,
      unseenAtCompletion_no_blocks hops.ptBlocks_eq]
    rfl
  · obtain ⟨key, iv, pts, ads, hops⟩ := execSeal_operands ht
    obtain rfl : ads = [] := List.length_eq_zero_iff.mp (Reg.holding_inj.mp (hops.adBlocks.symm.trans had))
    obtain rfl := Host.Outcome.next.inj ((execSeal_eq_sealed hops).symm.trans ht)
    exact execSeal_eq_sealed (hops.setAD_ADDR x)

end Sys2Proof.Machine
end

section
/-! SUPPORT. No exceptions (R135, R137): every instruction, and every step of the core, completes or is refused for one of
its reasons; and the idle core (R147). -/

namespace Sys2Proof.Machine

variable {s : State} {reasons : List Refusal}

/-! ## Answers -/

/-- The result is a next state, or a refusal for one of the reasons given. -/
def Answers (reasons : List Refusal) (r : Result) : Prop := (∃ t, r = .next t) ∨ ∃ e ∈ reasons, r = .refused e

theorem Answers.next (t : State) : Answers reasons (.next t) := .inl ⟨t, rfl⟩

/-- An operation with a check of its operands answers, if the reason of the check is one of those given. -/
theorem Answers.ite {c : Prop} [Decidable c] {t : State} {e : Refusal} (h : ¬ c → e ∈ reasons) :
    Answers reasons (if c then .next t else .refused e) := by
  by_cases hc : c
  · exact .inl ⟨t, if_pos hc⟩
  · exact .inr ⟨e, h hc, if_neg hc⟩

/-- What follows an answer and always completes answers for the same reasons. -/
theorem Answers.andThen_next {r : Result} (h : Answers reasons r) (f : State → State) :
    Answers reasons (andThen r fun t => .next (f t)) := by
  rcases h with ⟨t, rfl⟩ | ⟨e, he, rfl⟩
  · exact .next (f t)
  · exact .inr ⟨e, he, rfl⟩

/-! ## Commands -/

theorem execNop_answers (s : State) : Answers (refusalsOf .nop) (exec .nop s) := by
  cases hb : s.busy with
  | true => exact .inr ⟨.rfBusy, by decide, execNop_busy hb⟩
  | false => exact .inl ⟨s, execNop_idle hb⟩

/-- ENCRYPT_BLOCK is refused while BUSY or without an operand, and completes otherwise (R92). -/
theorem execEncryptBlock_answers (s : State) : Answers (refusalsOf .encryptBlock) (exec .encryptBlock s) := by
  cases hb : s.busy with
  | true => exact .inr ⟨.rfBusy, by decide, exec_encryptBlock_refused (encryptCheck_busy hb)⟩
  | false =>
    by_cases hheld : s.host.KEY.held = true ∧ s.host.DIN.held = true
    · exact .inl ⟨_, exec_encryptBlock_completes (encryptCheck_eq_none_iff.mpr ⟨hb, hheld⟩)⟩
    · have hmissing : s.host.KEY.held = false ∨ s.host.DIN.held = false := by
        simpa only [not_and_or, Bool.not_eq_true] using hheld
      exact .inr ⟨.rfNoValue, by decide, exec_encryptBlock_refused (encryptCheck_noValue hb hmissing)⟩

theorem sealReason_mem (k : Nat) : sealReason k ∈ refusalsOf .sealMessage := by
  unfold sealReason
  split <;> decide

/-- SEAL completes if every check of R122 passes; otherwise a first one fails, and it decides the reason. -/
theorem execSeal_answers (hi : s.Inv) : Answers (refusalsOf .sealMessage) (exec .sealMessage s) := by
  classical
  obtain ⟨hrefused, hcompletes⟩ := sealChecksInOrder s
  by_cases hpass : ∀ k, ¬ s.SealFails k
  · obtain ⟨t, ht, -⟩ := hcompletes hi hpass
    exact .inl ⟨t, ht⟩
  · have hfail : ∃ k, s.SealFails k := not_forall_not.mp hpass
    obtain ⟨hexec, -⟩ := hrefused (Nat.find hfail) (Nat.find_spec hfail) fun _ => Nat.find_min hfail
    exact .inr ⟨_, sealReason_mem _, hexec⟩

/-! ## Instructions -/

/-- GHASH always completes: its loop begins with a Y that holds a value. -/
theorem exec_ghash_completes (xs : List Block) (s : State) : ∃ t, exec (.ghash xs) s = .next t := by
  obtain ⟨Z, V, o, h⟩ := hashLoop_eq xs (s := s.withDp (s.dp.setY (.holding 0))) rfl
  exact ⟨_, h⟩

/-- The commands answer by their issue checks, ARK, RCON and LENBLK by the check of their operands; every other
operation completes (log 2). -/
theorem exec_answers (hi : s.Inv) (i : Instr) : Answers (refusalsOf i) (exec i s) := by
  cases i with
  | nop => exact execNop_answers s
  | encryptBlock => exact execEncryptBlock_answers s
  | sealMessage => exact execSeal_answers hi
  | ark r => exact .ite fun h => by simpa [refusalsOf, Instr.wellFormed] using h
  | rcon k => exact .ite fun h => by simpa [refusalsOf, Instr.wellFormed] using h
  | lenblk a p => exact .ite fun h => by simpa [refusalsOf, Instr.wellFormed] using h
  | gctr bs => exact .inl ⟨_, exec_gctr bs s⟩
  | ghash xs => exact .inl (exec_ghash_completes xs s)
  | tagenc => exact .inl ⟨_, opTagenc_eq rfl rfl⟩
  | _ => exact .next _

/-! ## The core -/

/-- A micro-operation is refused for a block in memory that holds no value (R32), or for an operand out of range. -/
theorem Micro.run_answers (m : Micro) (s : State) : Answers [.rfNoValue, .badUop] (m.run s) := by
  cases m with
  | ark r => exact .ite fun _ => by decide
  | lenblk => exact .ite fun _ => by decide
  | load r =>
    show Answers _ (loadBlock r s.seq.pos.blk s)
    unfold loadBlock
    cases s.MEM.readBlock (r.block s.seq.pos.blk s) with
    | none => exact .inr ⟨.rfNoValue, by decide, rfl⟩
    | some x => exact .next _
  | finish =>
    show Answers _ (opFinish s)
    unfold opFinish
    split <;> exact .next _
  | _ => exact .next _

theorem coreStep_answers (s : State) : Answers [.rfNoValue, .badUop] (coreStep s) := by
  unfold coreStep
  split
  · exact .next s
  next it rest _ => exact (it.act.run_answers s).andThen_next (moveOn rest)

/-- Settles O42: the instructions by `exec_answers`, a step of the core by `coreStep_answers`. -/
theorem noInstructionFaults : Obligations.NoInstructionFaults := by
  refine fun s hi => ⟨exec_answers hi, ?_⟩
  simpa [Answers] using coreStep_answers s

/-- Between commands there is nothing to do (R147). -/
theorem coreStep_idle (hi : s.Inv) (hb : s.busy = false) : coreStep s = .next s := by
  rw [coreStep, hi.seq_idle hb]
  rfl

/-- Settles O52: a step with no turn to come is the core's. -/
theorem idleStepChangesNothing : Obligations.IdleStepChangesNothing := fun _ hi hb =>
  ⟨coreStep_idle hi hb, fun ha => (step_of_no_turn ha).trans (coreStep_idle hi hb)⟩

end Sys2Proof.Machine
end

section
/-! SUPPORT. Reset during a run (R150, R151), and the results that the host has been shown (R156): what each turn does
to them. -/

namespace Sys2Proof.Machine

variable {s t : State} {reg v x : Nat}

/-! ## The ciphertext region of a SEAL in progress -/

/-- The range of a region is the region, the regions being sound (R31). -/
theorem State.RegionsSound.has_iff (h : s.RegionsSound) (r : RegionName) (x : Nat) :
    (r.range s).has x ↔ s.InRegion r x := by
  obtain ⟨n, hn⟩ := Option.ne_none_iff_exists'.mp (h.counted r)
  exact range_has_iff hn (h.based r n hn) x

/-- The completion of a SEAL hides its ciphertext region, that of an ENCRYPT_BLOCK nothing (R41, R156). -/
theorem State.Inv.unseenAtCompletion_hides_iff (hi : s.Inv) (x : Nat) :
    s.unseenAtCompletion.Hides x ↔ (s.seq.pos.op = some .sealMessage ∧ s.InRegion .ct x) ∨ s.unseen.Hides x := by
  rw [unseenAtCompletion_hides]
  exact or_congr_left (and_congr_right fun hop => (hi.regions hop).has_iff .ct x)

/-- Reset leaves the ciphertext region of the SEAL it abandons without values (R151). -/
theorem read_memAfterReset_abandoned (hi : s.Inv) (hop : s.seq.pos.op = some .sealMessage) (hx : s.InRegion .ct x) :
    (memAfterReset s).read x = none := by
  simp only [memAfterReset, hop, Memory.read_erase]
  exact if_pos (((hi.regions hop).has_iff .ct x).mpr hx)

/-- Reset leaves every other byte (log 13). -/
theorem read_memAfterReset_kept (hi : s.Inv) (hx : ¬ (s.seq.pos.op = some .sealMessage ∧ s.InRegion .ct x)) :
    (memAfterReset s).read x = s.MEM.read x := by
  unfold memAfterReset
  split
  next hop =>
    rw [Memory.read_erase]
    exact if_neg fun hr => hx ⟨hop, ((hi.regions hop).has_iff .ct x).mp hr⟩
  · rfl

/-- Settles O4: the turn is `resetCore`, whose memory is `memAfterReset`. -/
theorem resetAbandonsCommand : Obligations.ResetAbandonsCommand := by
  intro s rest hi ha
  refine ⟨memAfterReset s, ?_, fun x hop hx => read_memAfterReset_abandoned hi hop hx,
    fun x hx => read_memAfterReset_kept hi hx⟩
  rw [step, ha]
  rfl

/-! ## What a step does to the results -/

/-- What a step does to DOUT, TAG, memory and what the host has not been shown, with the turn that does it. -/
inductive ResultCase (s t : State) : Prop where
  /-- The core takes a step, by its turn or under a WAIT. -/
  | core (turns : List Turn) (eq : coreStep (s.withAgenda turns) = .next t)
  /-- Nothing. -/
  | keeps (dout : t.host.DOUT = s.host.DOUT) (tag : t.host.TAG = s.host.TAG) (mem : t.MEM = s.MEM)
      (unseen : t.unseen = s.unseen)
  /-- A poll returns DONE = 1 and shows them. -/
  | polls (turn : s.NextPolls) (host : t.host = s.host) (mem : t.MEM = s.MEM) (unseen : t.unseen = .nothing)
  /-- A CMD write issues a command, which drops DOUT and TAG. -/
  | issues (turn : s.NextIssues) (mem : t.MEM = s.MEM) (unseen : t.unseen = s.unseen)
  /-- The host writes memory. -/
  | writes (addr : Nat) (bytes : List Byte) (turn : s.agenda.head? = some (.host (.memWrite addr bytes)))
      (host : t.host = s.host) (mem : t.MEM = s.MEM.writeBytes addr bytes)
      (unseen : t.unseen = s.unseen.minus { base := addr, size := bytes.length })
  /-- An ENCRYPT_BLOCK runs whole. -/
  | encrypt (turns : List Turn) (turn : s.NextIssues) (eq : execEncryptBlock (s.withAgenda turns) = .next t)
  /-- A SEAL runs whole. -/
  | sealing (turns : List Turn) (turn : s.agenda.head? = some (.command 2))
      (eq : execSeal (s.withAgenda turns) = .next t)
  /-- An operation is presented by its code; it may write TAG. -/
  | operation (bytes : List Byte) (turn : s.agenda.head? = some (.uop bytes)) (dout : t.host.DOUT = s.host.DOUT)
      (mem : t.MEM = s.MEM) (unseen : t.unseen = s.unseen)
  /-- Reset. -/
  | reset (turn : s.agenda.head? = some .reset) (unseen : t.unseen = { results := false, bytes := s.unseen.bytes })

/-- A HostWrite that answers next writes an operand register, issues a command, or is NOP's CMD write (R20). -/
theorem hostWrite_next (h : hostWrite reg v s = .next t) :
    (∃ k : HostRegs, k.DOUT = s.host.DOUT ∧ k.TAG = s.host.TAG ∧ t = s.withHost k)
      ∨ ∃ c : Command, reg = 10 ∧ v = c.word ∧ t = issue c s := by
  cases hb : s.busy with
  | true => cases (hostWrite_busy reg v hb).symm.trans h
  | false =>
    cases hw : operandWidth s.plat reg with
    | some width =>
      rw [hostWrite_operand v hb hw, writeReg] at h
      split at h <;> cases h
      exact .inl ⟨_, (put_results s.host reg v).1, (put_results s.host reg v).2, rfl⟩
    | none =>
      by_cases hr : reg = 10
      · subst hr
        rw [hostWrite_command v hb] at h
        split at h
        next hv =>
          rcases issueCommand_next h with rfl | ⟨c, hc, -, rfl⟩
          · exact .inl ⟨t.host, rfl, rfl, rfl⟩
          · exact .inr ⟨c, rfl, by rwa [toNat_ofNat_of_lt hv] at hc, rfl⟩
        · cases h
      · cases (hostWrite_other v hb hw hr).symm.trans h

section Turns

variable {rest : List Turn}

/-- A read of a register shows the results if it is a poll that returns DONE = 1, and is nothing to them otherwise. -/
theorem hostRead_result (hpoll : reg = 11 → s.agenda.head? ∈ [some .wait, some (.host (.read 11))])
    (h : hostRead reg (s.withAgenda rest) = .next t) : ResultCase s t := by
  obtain ⟨r, rfl⟩ := hostRead_cases h
  rcases afterRead_eq reg (s.withAgenda rest) with ⟨hreg, hdone, he⟩ | ⟨-, he⟩ <;> rw [he]
  · exact .polls ⟨hdone, hpoll hreg⟩ rfl rfl rfl
  · exact .keeps rfl rfl rfl rfl

theorem hostMove_result {m : HostMove} (ha : s.agenda = .host m :: rest)
    (h : hostMove m (s.withAgenda rest) = .next t) : ResultCase s t := by
  have hturn : s.agenda.head? = some (.host m) := by rw [ha, List.head?_cons]
  cases m with
  | write reg v =>
    rcases hostWrite_next h with ⟨k, hdout, htag, rfl⟩ | ⟨c, rfl, rfl, rfl⟩
    · exact .keeps hdout htag rfl rfl
    · exact .issues (by cases c <;> simp [State.NextIssues, hturn, Command.word]) rfl rfl
  | read reg => exact hostRead_result (by rintro rfl; simp [hturn]) h
  | memWrite addr bytes =>
    obtain ⟨-, -, hf⟩ := hostAccess_next h
    cases hf
    exact .writes addr bytes hturn rfl rfl rfl
  | memRead addr n =>
    obtain ⟨-, -, hf⟩ := hostAccess_next h
    obtain ⟨bytes, -, hf⟩ := reading_eq_next.mp hf
    cases hf
    exact .keeps rfl rfl rfl rfl

theorem runCommand_result {w : Word} (ha : s.agenda = .command w :: rest)
    (h : runCommand w (s.withAgenda rest) = .next t) : ResultCase s t := by
  have hturn : s.agenda.head? = some (.command w) := by rw [ha, List.head?_cons]
  unfold runCommand at h
  split at h
  · cases h
  split at h
  · cases h
  next hw =>
  rcases decodeCommand_eq_ok hw with ⟨rfl, rfl⟩ | ⟨rfl, rfl⟩ | ⟨rfl, rfl⟩
  · obtain rfl := execNop_next h
    exact .keeps rfl rfl rfl rfl
  · exact .encrypt rest (by simp [State.NextIssues, hturn]) h
  · exact .sealing rest hturn h

theorem runUop_result {bytes : List Byte} (ha : s.agenda = .uop bytes :: rest)
    (h : runUop bytes (s.withAgenda rest) = .next t) : ResultCase s t := by
  unfold runUop at h
  split at h
  · cases h
  split at h
  · cases h
  next hd =>
  have he := exec_effect (decodeUop_not_command hd) h
  exact .operation bytes (by rw [ha, List.head?_cons]) (by rw [he.carries.host]; rfl) he.mem he.carries.unseen

end Turns

/-- What a step does to the results, turn by turn. -/
theorem step_result (h : step s = .next t) : ResultCase s t := by
  unfold step at h
  split at h
  · exact .core s.agenda h
  next turn rest ha =>
  cases turn with
  | host m => exact hostMove_result ha h
  | core => exact .core rest h
  | command w => exact runCommand_result ha h
  | uop bytes => exact runUop_result ha h
  | reset =>
    cases h
    exact .reset (by rw [ha, List.head?_cons]) rfl
  | wait =>
    have h : runWait rest s = .next t := h
    unfold runWait at h
    split at h
    · exact hostRead_result (fun _ => by simp [ha]) h
    · exact .core s.agenda h

/-! ## A completion leaves the results not shown -/

/-- A whole ENCRYPT_BLOCK or SEAL leaves its results not shown. -/
theorem command_hides_results {i : Instr} (hc : i = .encryptBlock ∨ i = .sealMessage) (h : exec i s = .next t) :
    t.unseen.results = true ∧ (i = .sealMessage → ∀ x, s.InRegion .ct x → t.unseen.Hides x) := by
  rcases hc with rfl | rfl
  · exact ⟨by rw [execEncryptBlock_unseen h], nofun⟩
  · obtain ⟨hresults, hhides⟩ := execSeal_unseen h
    exact ⟨hresults, fun _ x hx => (hhides x).mpr (.inl hx)⟩

/-- A step of the core that completes a command leaves its results not shown. -/
theorem coreStep_hides_results (hi : s.Inv) (h : coreStep s = .next t) (hs : s.busy = true) (ht : t.busy = false) :
    t.unseen.results = true
      ∧ (s.seq.pos.op = some .sealMessage → ∀ x, s.InRegion .ct x → t.unseen.Hides x) := by
  rcases coreStep_unseen h with ⟨-, status⟩ | ⟨unseen, -⟩
  · rw [State.busy, status, ← State.busy, hs] at ht
    cases ht
  · rw [unseen]
    exact ⟨rfl, fun hop x hx => (hi.unseenAtCompletion_hides_iff x).mpr (.inl ⟨hop, hx⟩)⟩

/-! ## Results are shown by a poll only -/

/-- A step of the core shows nothing. -/
theorem coreStep_hides_more (h : coreStep s = .next t) :
    (s.unseen.results = true → t.unseen.results = true) ∧ ∀ x, s.unseen.Hides x → t.unseen.Hides x := by
  rcases coreStep_unseen h with ⟨hu, -⟩ | ⟨hu, -⟩ <;> rw [hu]
  · exact ⟨id, fun _ => id⟩
  · exact ⟨fun _ => rfl, fun x hx => (unseenAtCompletion_hides x).mpr (.inr hx)⟩

/-- DOUT and TAG, when not shown, stay so until a poll or reset. -/
theorem results_hidden_until_poll (h : step s = .next t) (hs : s.unseen.results = true)
    (ht : t.unseen.results = false) : s.NextPolls ∨ s.agenda.head? = some .reset := by
  have contradiction {P : Prop} (hkept : t.unseen.results = true) : P := by
    rw [ht] at hkept
    cases hkept
  cases step_result h with
  | core _ eq => exact contradiction ((coreStep_hides_more eq).1 hs)
  | keeps _ _ _ unseen | issues _ _ unseen | writes _ _ _ _ _ unseen | operation _ _ _ _ unseen =>
    exact contradiction (by rw [unseen]; exact hs)
  | encrypt _ _ eq => exact contradiction (by rw [execEncryptBlock_unseen eq])
  | sealing _ _ eq => exact contradiction (execSeal_unseen eq).1
  | polls turn => exact .inl turn
  | reset turn => exact .inr turn

/-- A byte that is not shown stays so until a poll or the host's own write of it. -/
theorem bytes_hidden_until_poll (h : step s = .next t) (hs : s.unseen.Hides x) (ht : ¬ t.unseen.Hides x) :
    s.NextPolls ∨ s.NextHostWrites x := by
  cases step_result h with
  | core _ eq => exact absurd ((coreStep_hides_more eq).2 x hs) ht
  | keeps _ _ _ unseen | issues _ _ unseen | operation _ _ _ _ unseen => exact absurd (unseen ▸ hs) ht
  | encrypt _ _ eq => exact absurd (execEncryptBlock_unseen eq ▸ hs) ht
  | sealing _ _ eq => exact absurd (((execSeal_unseen eq).2 x).mpr (.inr hs)) ht
  | reset _ unseen => exact absurd (unseen ▸ hs) ht
  | polls turn => exact .inl turn
  | writes addr bytes turn _ _ unseen =>
    refine .inr ⟨addr, bytes, turn, ?_⟩
    by_contra hout
    exact ht (unseen ▸ (Unseen.hides_minus _ x).mpr ⟨hs, hout⟩)

/-! ## What the host reads -/

/-- HostRead(STATUS) replies the two flags, and shows the results if DONE is 1 (R21, R156). -/
theorem hostRead_status_eq (s : State) : hostRead 11 s = .next
    { s with
      unseen := if s.STATUS.getLsbD 1 then .nothing else s.unseen
      replies := .reg 11 ((s.STATUS.getLsbD 0).toNat + 2 * (s.STATUS.getLsbD 1).toNat) :: s.replies } := by
  rw [hostRead_status, readStatus_toNat, State.afterRead, State.isDone]
  cases s.STATUS.getLsbD 1 <;> rfl

/-- Never both flags being set, the reply is 1 while BUSY, 2 when DONE and 0 otherwise. -/
theorem hostRead_status_of_inv (hi : s.Inv) : hostRead 11 s = .next
    { s with
      unseen := if s.isDone then .nothing else s.unseen
      replies := .reg 11 (if s.busy then 1 else if s.isDone then 2 else 0) :: s.replies } := by
  have hcode : ∀ busy done : Bool, ¬ (busy = true ∧ done = true) →
      busy.toNat + 2 * done.toNat = if busy then 1 else if done then 2 else 0 := by decide
  rw [hostRead_status_eq, hcode (s.STATUS.getLsbD 0) (s.STATUS.getLsbD 1) hi.oneFlag]
  rfl

/-- A read of DOUT or TAG before the poll is refused (log 23). -/
theorem hostRead_not_shown (hb : s.busy = false) (hu : s.unseen.results = true) :
    hostRead 3 s = .refused .rfNoValue ∧ hostRead 4 s = .refused .rfNoValue := by
  have hshown (r : Reg Block) : s.shown r = none := if_pos hu
  constructor <;> (rw [hostRead_idle hb rfl, hshown]; rfl)

/-- A read of DOUT or TAG after the poll returns its value. -/
theorem hostRead_shown (hb : s.busy = false) (hu : s.unseen.results = false) (v : Block) :
    (s.host.DOUT = .holding v → hostRead 3 s = .next { s with replies := .reg 3 v.toNat :: s.replies })
      ∧ (s.host.TAG = .holding v → hostRead 4 s = .next { s with replies := .reg 4 v.toNat :: s.replies }) := by
  have hshown : s.shown (.holding v) = some v := if_neg (by simp [hu])
  constructor <;> (intro hv; rw [hostRead_idle hb rfl, hv, hshown]; rfl)

/-- A read of memory that meets a byte not shown is refused (log 23), as is one of a byte that does not exist. -/
theorem hostMemRead_not_shown (hb : s.busy = false) {addr n k : Nat} (hk : k < n) (hu : s.unseen.Hides (addr + k)) :
    hostMemRead addr n s = .refused .rfNoValue := by
  have hnone : s.shownBytes addr n = none :=
    Option.eq_none_iff_forall_ne_some.mpr fun bytes h => (shownBytes_eq_some.mp h).1 k hk hu
  unfold hostMemRead
  rw [hnone]
  by_cases hex : s.AddressesExist addr n
  · exact (hostAccess_idle hb ..).1 hex
  · exact (hostAccess_idle hb ..).2 hex

/-- A read of bytes that are shown returns them. -/
theorem hostMemRead_shown (hb : s.busy = false) {addr n : Nat} {bytes : List Byte} (hex : s.AddressesExist addr n)
    (hu : ∀ k < n, ¬ s.unseen.Hides (addr + k)) (hbytes : s.MEM.readBytes addr n = some bytes) :
    hostMemRead addr n s = .next { s with replies := .mem addr bytes :: s.replies } := by
  refine ((hostAccess_idle hb ..).1 hex).trans ?_
  rw [shownBytes_eq_some.mpr ⟨hu, hbytes⟩]
  rfl

/-! ## How long results stay valid -/

/-- Once shown, DOUT and TAG stay shown and valid until the next issue or reset; an operation presented on its own may
write TAG (log 2). -/
theorem results_valid (hi : s.Inv) (h : step s = .next t) (hr : s.agenda.head? ≠ some .reset) (hb : s.busy = false)
    (hu : s.unseen.results = false) (hn : ¬ s.NextIssues) :
    t.unseen.results = false ∧ t.host.DOUT = s.host.DOUT
      ∧ ((∀ bytes, s.agenda.head? ≠ some (.uop bytes)) → t.host.TAG = s.host.TAG) := by
  cases step_result h with
  | core turns eq =>
    cases (coreStep_idle (hi.withAgenda turns) hb).symm.trans eq
    exact ⟨hu, rfl, fun _ => rfl⟩
  | keeps dout tag _ unseen => exact ⟨by rw [unseen, hu], dout, fun _ => tag⟩
  | polls _ host _ unseen => exact ⟨by rw [unseen]; rfl, by rw [host], fun _ => by rw [host]⟩
  | writes _ _ _ host _ unseen => exact ⟨by rw [unseen]; exact hu, by rw [host], fun _ => by rw [host]⟩
  | operation bytes turn dout _ unseen => exact ⟨by rw [unseen, hu], dout, fun hno => absurd turn (hno bytes)⟩
  | issues turn | encrypt _ turn => exact absurd turn hn
  | sealing _ turn => exact absurd (by simp [State.NextIssues, turn]) hn
  | reset turn => exact absurd turn hr

/-- A byte that is shown stays shown and keeps its value until the host or a SEAL writes it, or reset. -/
theorem byte_valid (hi : s.Inv) (h : step s = .next t) (hr : s.agenda.head? ≠ some .reset) (hu : ¬ s.unseen.Hides x)
    (hw : ¬ s.NextHostWrites x) (hm : ¬ s.SealMayWrite x) :
    t.MEM.read x = s.MEM.read x ∧ ¬ t.unseen.Hides x := by
  cases step_result h with
  | core turns eq =>
    have hout : ¬ (s.seq.pos.op = some .sealMessage ∧ s.InRegion .ct x) := fun ⟨hop, hx⟩ => hm ⟨hx, .inl hop⟩
    have hi' := hi.withAgenda turns
    refine ⟨coreStep_read hi' eq hout, ?_⟩
    rcases coreStep_unseen eq with ⟨unseen, -⟩ | ⟨unseen, -⟩ <;> rw [unseen]
    · exact hu
    · rw [hi'.unseenAtCompletion_hides_iff]
      exact not_or.mpr ⟨hout, hu⟩
  | keeps _ _ mem unseen | issues _ mem unseen | operation _ _ _ mem unseen =>
    exact ⟨by rw [mem], by rwa [unseen]⟩
  | polls _ _ mem unseen => exact ⟨by rw [mem], by rw [unseen]; exact Unseen.not_hides_nothing x⟩
  | writes addr bytes turn _ mem unseen =>
    have hout : ¬ (addr ≤ x ∧ x < addr + bytes.length) := fun hx => hw ⟨addr, bytes, turn, hx⟩
    exact ⟨by rw [mem, Memory.read_writeBytes, if_neg hout],
      by rw [unseen, Unseen.hides_minus]; exact fun hx => hu hx.1⟩
  | encrypt turns _ eq =>
    obtain ⟨-, -, d, rfl⟩ := execEncryptBlock_next eq
    exact ⟨rfl, by rw [execEncryptBlock_unseen eq]; exact hu⟩
  | sealing turns turn eq =>
    have hout : ¬ s.InRegion .ct x := fun hx => hm ⟨hx, .inr turn⟩
    exact ⟨execSeal_read eq hout, by rw [(execSeal_unseen eq).2]; exact not_or.mpr ⟨hout, hu⟩⟩
  | reset turn => exact absurd turn hr

/-! ## The statement -/

/-- Settles O41: what each turn does to the results (`step_result`), and what the host's reads return. -/
theorem resultsShownByPoll : Obligations.ResultsShownByPoll := by
  refine ⟨fun i s t hc h => command_hides_results hc h, fun s t hi h hs ht => coreStep_hides_results hi h hs ht,
    fun s hb hu => hostRead_not_shown hb hu, fun s addr n k hb hk hu => hostMemRead_not_shown hb hk hu,
    fun s t h => ⟨results_hidden_until_poll h, fun x => bytes_hidden_until_poll h⟩, hostRead_status_eq,
    fun s hi => hostRead_status_of_inv hi, fun s v hb hu => hostRead_shown hb hu v,
    fun s addr n bytes hb hex hu hbytes => hostMemRead_shown hb hex hu hbytes, fun s t hi h hr => ⟨?_, ?_⟩⟩
  · intro v hb hu hn
    obtain ⟨hshown, hdout, htag⟩ := results_valid hi h hr hb hu hn
    exact ⟨hshown, hdout.trans, fun hv hno => (htag hno).trans hv⟩
  · intro x b hx hu hw hm
    obtain ⟨hread, hshown⟩ := byte_valid hi h hr hu hw hm
    exact ⟨hread.trans hx, hshown⟩

end Sys2Proof.Machine
end
